-- ==== Sys2Proof/Word.lean ====
section
/-! DEFINITION. The words of the B4L-DSP engine: bytes, 32-bit words, binary64 encodings and complex pairs (spec/00_scope.md R8, R13, R14). -/

namespace Sys2Proof

/-- One byte of DMEM (R60). -/
abbrev Byte := BitVec 8

/-- One 32-bit register, descriptor word or host word (R32, R63, R80). -/
abbrev Word := BitVec 32

/-- The encoding of a binary64: sign bit 63, biased exponent bits 62:52, fraction bits 51:0 (R13). -/
abbrev F64 := BitVec 64

/-- A complex number: an ordered pair of binary64 values (R14). -/
structure C64 where
  re : F64
  im : F64
deriving DecidableEq, Repr, Inhabited

end Sys2Proof
end

