-- ==== Sys2Proof/Config.lean ====
section
/-! DEFINITION. What an implementation fixes (the parameters of spec/00_scope.md R6) and the free values:
what the spec leaves open, as opaque constants that no proof can evaluate. -/

namespace Sys2Proof

/-- The implementation parameters of R6 that are numbers. Every value of this type is legal:
DMEM_SIZE = 2^(16 + dmemSel) with 2^16 <= DMEM_SIZE <= 2^31, LOG2_NMAX = 10 + nmaxSel with
10 <= LOG2_NMAX <= 16. The two base addresses are the platform's (R62); they are word addresses,
because a host access carries no address bits 1:0 (R63). -/
structure Params where
  dmemSel      : Fin 16
  nmaxSel      : Fin 7
  hasFastConv  : Bool
  regBaseWord  : Nat
  dmemBaseWord : Nat
deriving DecidableEq, Repr

/-- log2(DMEM_SIZE) (R6, R34). -/
def Params.log2Dmem (p : Params) : Nat := 16 + p.dmemSel.val

/-- LOG2_NMAX (R6, R34). -/
def Params.log2Nmax (p : Params) : Nat := 10 + p.nmaxSel.val

/-- DMEM_SIZE in bytes (R6). -/
def Params.dmemSize (p : Params) : Nat := 2 ^ p.log2Dmem

/-- NMAX = 2^LOG2_NMAX (R6). -/
def Params.nmax (p : Params) : Nat := 2 ^ p.log2Nmax

/-- The "suggested" column of R6 (DESIGN CHOICE, unsafe: logs 1 and 2): DMEM_SIZE = 2^22,
LOG2_NMAX = 12, HAS_FAST_CONV = 1; REG_BASE = 0 and DMEM_BASE = 0x400000, for which R6 suggests none. -/
def Config.suggested : Params :=
  { dmemSel := 6, nmaxSel := 2, hasFastConv := true, regBaseWord := 0, dmemBaseWord := 0x100000 }

/-- What faithful rounding (R19) leaves open about one value of Cos2pi, Sin2pi or the twiddle ROM:
which neighbour of the exact value is returned (`pick`, a magnitude encoding that is clamped into the
range the neighbours span), and the sign of a zero returned for a nonzero exact value (log 4). -/
structure FaithfulChoice where
  pick    : Nat
  zeroNeg : Bool
deriving DecidableEq, Repr, Inhabited

/-- Free: how Cos2pi rounds at each exact argument (R20, I1). DESIGN CHOICE, safe: log 3. -/
opaque Config.cosChoice : Rat → FaithfulChoice

/-- Free: how Sin2pi rounds at each exact argument (R20, I1). DESIGN CHOICE, safe: log 3. -/
opaque Config.sinChoice : Rat → FaithfulChoice

/-- Free: how TWC[r] is rounded in a ROM for a given LOG2_NMAX (R21, I2). DESIGN CHOICE, safe: log 5. -/
opaque Config.romCosChoice : Nat → Nat → FaithfulChoice

/-- Free: how TWS[r] is rounded in a ROM for a given LOG2_NMAX (R21, I2). DESIGN CHOICE, safe: log 5. -/
opaque Config.romSinChoice : Nat → Nat → FaithfulChoice

/-- Where a pending abort, or a soft reset of a busy engine, takes effect relative to the command at
CPC (R214, R241): before it is fetched, after it completed whole, or in its middle. `cut done`
also says whether an interrupted SETCFG's write happened (R214 outcome 2, I10). -/
inductive AbortPoint where
  | before
  | after
  | cut (done : Bool)
deriving DecidableEq, Repr, Inhabited

/-- Free: where the n-th interruption takes effect (I8). DESIGN CHOICE, safe: log 9. -/
opaque Config.abortPoint : Nat → AbortPoint

/-- Free: the byte at offset `a` of the destination left by the n-th interruption (I9). DESIGN CHOICE, safe: log 11. -/
opaque Config.freeByte : Nat → Nat → Byte

/-- Free: the byte a busy engine holds in its descriptor for a byte of DMEM that nothing has written,
by the number of the interruption and the offset (I7). DESIGN CHOICE, safe: log 12. -/
opaque Config.heldByte : Nat → Nat → Byte

end Sys2Proof
end

