-- ==== Sys2Proof/Syntax.lean ====
section
/-! DEFINITION. The commands of the B4L-DSP engine, one constructor per row of spec/opcode_table.json
(spec/30_encoding.md R83 to R87). -/

namespace Sys2Proof

/-- The configuration register a SETCFG names, INDEX 0 to 5 (R87). -/
inductive CfgReg where
  | window
  | step
  | firSize
  | convFft
  | cutoff
  | fs
deriving DecidableEq, Repr, Inhabited

/-- A command with its operands (R83, R84). Address operands are DMEM byte offsets, count operands
element or frame counts, all 32-bit unsigned (R82). -/
inductive Instr where
  /-- END: end the command list (R106). -/
  | endList
  /-- NOP (R107). -/
  | nop
  /-- SETCFG: write one configuration register with VALUE = (VHI, VLO) (R108). -/
  | setcfg (reg : CfgReg) (vlo vhi : Word)
  /-- STFT: framed forward transform (R148). -/
  | stft (dst src len : Word)
  /-- ISTFT: framed inverse transform with overlap-add (R151). -/
  | istft (dst src frames bins outlen : Word)
  /-- FFT; `inCplx` is IN_CPLX (R140). -/
  | fft (inCplx : Bool) (dst src len : Word)
  /-- IFFT; `outRe` is OUT_RE (R142). -/
  | ifft (outRe : Bool) (dst src len : Word)
  /-- FIRGEN with HP = 0: low-pass kernel (R166). -/
  | firgenLp (dst : Word)
  /-- FIRGEN with HP = 1: high-pass kernel (R167). -/
  | firgenHp (dst : Word)
  /-- CONV with FAST = 0: direct convolution (R185). -/
  | conv (xc fc outRe : Bool) (dst x n f m : Word)
  /-- CONV with FAST = 1: overlap-add convolution (R187). -/
  | convFast (xc fc outRe : Bool) (dst x n f m : Word)
deriving DecidableEq, Repr, Inhabited

end Sys2Proof
end

