-- ==== Sys2Proof/WellFormed.lean ====
section
/-! DEFINITION. Which command terms have an encoding (spec/30_encoding.md R83, R87). -/

namespace Sys2Proof

/-- The registers of INDEX 0 to 3 are 32 bits wide; CFG_CUTOFF and CFG_FS are 64 (R87). -/
def CfgReg.wide : CfgReg → Bool
  | .window | .step | .firSize | .convFft => false
  | .cutoff | .fs => true

/-- For a SETCFG of a 32-bit register VHI is reserved and must be 0 (R83, R87). -/
def vhiAllowed (reg : CfgReg) (vhi : Word) : Bool :=
  reg.wide || vhi == 0

/-- A command that some descriptor encodes. Every operand of every other command may have any value:
what is illegal about it is checked by the command that uses it. -/
def Instr.wellFormed : Instr → Bool
  | .endList => true
  | .nop => true
  | .setcfg reg _ vhi => vhiAllowed reg vhi
  | .stft _ _ _ => true
  | .istft _ _ _ _ _ => true
  | .fft _ _ _ _ => true
  | .ifft _ _ _ _ => true
  | .firgenLp _ => true
  | .firgenHp _ => true
  | .conv _ _ _ _ _ _ _ _ => true
  | .convFast _ _ _ _ _ _ _ _ => true

end Sys2Proof
end

