-- ==== Sys2Proof/Decode.lean ====
section
/-! DEFINITION. The decoder, total on any bytes (spec/30_encoding.md R80 to R89), and the encoder. -/

namespace Sys2Proof

/-- A descriptor: eight 32-bit words (R80). -/
structure Descriptor where
  w0 : Word
  w1 : Word := 0
  w2 : Word := 0
  w3 : Word := 0
  w4 : Word := 0
  w5 : Word := 0
  w6 : Word := 0
  w7 : Word := 0
deriving DecidableEq, Repr, Inhabited

/-- Why a descriptor is illegal, in the order of R88. `truncated` is the model's own: fewer than 32
bytes were given to the decoder, which a fetch never does (R80, R102). -/
inductive Illegal where
  | badOpcode
  | reservedHeader
  | reservedWord (k : Nat)
  | badIndex
  | noFast
  | truncated
deriving DecidableEq, Repr, Inhabited

/-- ERR_INFO of an ILLEGAL_CMD: reason in bits 7:0, word index for reason 3 in bits 15:8 (R202). -/
def Illegal.info : Illegal → Word
  | .badOpcode => 1
  | .reservedHeader => 2
  | .reservedWord k => BitVec.ofNat 32 (3 + 256 * k)
  | .badIndex => 4
  | .noFast => 5
  | .truncated => 1

/-- OPC = w0[7:0] (R81). -/
def Descriptor.opc (d : Descriptor) : BitVec 8 := d.w0.extractLsb' 0 8

/-- FLAGS = w0[15:8] (R81). -/
def Descriptor.flags (d : Descriptor) : BitVec 8 := d.w0.extractLsb' 8 8

/-- w0[31:16], reserved (R81). -/
def Descriptor.high (d : Descriptor) : BitVec 16 := d.w0.extractLsb' 16 16

/-- FLAGS[k], which is bit 8 + k of w0 (R84). -/
def Descriptor.flag (d : Descriptor) (k : Nat) : Bool := d.flags.getLsbD k

/-- The mask of the FLAGS bits an opcode leaves free (R84); `none` where the opcode is undefined (R85). -/
def freeFlags (opc : BitVec 8) : Option (BitVec 8) :=
  if opc = 0x01 ∨ opc = 0x02 ∨ opc = 0x03 ∨ opc = 0x10 ∨ opc = 0x11 then some 0x00
  else if opc = 0x12 ∨ opc = 0x13 ∨ opc = 0x20 then some 0x01
  else if opc = 0x30 then some 0x0F
  else none

/-- The configuration register of a SETCFG INDEX (R87). -/
def cfgRegOfIndex (w1 : Word) : Option CfgReg :=
  if w1 = 0 then some .window
  else if w1 = 1 then some .step
  else if w1 = 2 then some .firSize
  else if w1 = 3 then some .convFft
  else if w1 = 4 then some .cutoff
  else if w1 = 5 then some .fs
  else none

/-- SETCFG INDEX of a configuration register (R87). -/
def indexOfCfgReg : CfgReg → Word
  | .window => 0
  | .step => 1
  | .firSize => 2
  | .convFft => 3
  | .cutoff => 4
  | .fs => 5

/-- Operand words from `k` on, with their indices. -/
def Descriptor.wordsFrom (d : Descriptor) (k : Nat) : List (Nat × Word) :=
  [(1, d.w1), (2, d.w2), (3, d.w3), (4, d.w4), (5, d.w5), (6, d.w6), (7, d.w7)].drop (k - 1)

/-- The reserved operand words of a descriptor (R83): those its format does not use, and VHI of a
SETCFG of a 32-bit register (R87; INDEX 0 to 3 only, so a bad index reserves w4 to w7 alone). -/
def Descriptor.reserved (d : Descriptor) : List (Nat × Word) :=
  if d.opc = 0x03 then
    if d.w1.toNat ≤ 3 then d.wordsFrom 3 else d.wordsFrom 4
  else if d.opc = 0x10 ∨ d.opc = 0x12 ∨ d.opc = 0x13 then d.wordsFrom 4
  else if d.opc = 0x11 ∨ d.opc = 0x30 then d.wordsFrom 6
  else if d.opc = 0x20 then d.wordsFrom 2
  else d.wordsFrom 1

/-- The lowest word of a list that is nonzero (R88 (3), R202). -/
def firstNonzero : List (Nat × Word) → Option Nat
  | [] => none
  | (k, w) :: rest => if w = 0 then firstNonzero rest else some k

/-- The command a descriptor that passed the checks selects, with its operands (R83, R86); `none`
only for an undefined opcode or a bad SETCFG index. -/
def Descriptor.select (d : Descriptor) : Option Instr :=
  if d.opc = 0x01 then some .endList
  else if d.opc = 0x02 then some .nop
  else if d.opc = 0x03 then (cfgRegOfIndex d.w1).map fun r => .setcfg r d.w2 d.w3
  else if d.opc = 0x10 then some (.stft d.w1 d.w2 d.w3)
  else if d.opc = 0x11 then some (.istft d.w1 d.w2 d.w3 d.w4 d.w5)
  else if d.opc = 0x12 then some (.fft (d.flag 0) d.w1 d.w2 d.w3)
  else if d.opc = 0x13 then some (.ifft (d.flag 0) d.w1 d.w2 d.w3)
  else if d.opc = 0x20 then some (if d.flag 0 then .firgenHp d.w1 else .firgenLp d.w1)
  else if d.opc = 0x30 then
    some (if d.flag 0 then .convFast (d.flag 1) (d.flag 2) (d.flag 3) d.w1 d.w2 d.w3 d.w4 d.w5
      else .conv (d.flag 1) (d.flag 2) (d.flag 3) d.w1 d.w2 d.w3 d.w4 d.w5)
  else none

/-- CONV with FAST = 1 (R84), which exists only when HAS_FAST_CONV = 1 (R88 (5)). -/
def Descriptor.asksFast (d : Descriptor) : Bool := d.opc == 0x30 && d.flag 0

/-- Decoding: R88's checks in their order, then the selection of R86 (R89). -/
def decode (hasFast : Bool) (d : Descriptor) : Except Illegal Instr :=
  match freeFlags d.opc with
  | none => .error .badOpcode
  | some free =>
    if d.high ≠ 0 ∨ d.flags &&& ~~~free ≠ 0 then .error .reservedHeader
    else match firstNonzero d.reserved with
      | some k => .error (.reservedWord k)
      | none =>
        match d.select with
        | none => .error .badIndex
        | some i => if d.asksFast && !hasFast then .error .noFast else .ok i

/-- A 32-bit word from four bytes, the byte at the lowest offset least significant (R61). -/
def wordOfBytes (b0 b1 b2 b3 : Byte) : Word := b3 ++ b2 ++ b1 ++ b0

/-- The eight words of 32 bytes, in DMEM order (R80). -/
def descriptorOfBytes : List Byte → Option Descriptor
  | [a0, a1, a2, a3, b0, b1, b2, b3, c0, c1, c2, c3, d0, d1, d2, d3,
     e0, e1, e2, e3, f0, f1, f2, f3, g0, g1, g2, g3, h0, h1, h2, h3] =>
    some { w0 := wordOfBytes a0 a1 a2 a3, w1 := wordOfBytes b0 b1 b2 b3,
           w2 := wordOfBytes c0 c1 c2 c3, w3 := wordOfBytes d0 d1 d2 d3,
           w4 := wordOfBytes e0 e1 e2 e3, w5 := wordOfBytes f0 f1 f2 f3,
           w6 := wordOfBytes g0 g1 g2 g3, w7 := wordOfBytes h0 h1 h2 h3 }
  | _ => none

/-- The decoder on bytes: the first 32 of them are the descriptor (R80); fewer are refused. -/
def decodeBytes (hasFast : Bool) (bs : List Byte) : Except Illegal Instr :=
  match descriptorOfBytes (bs.take 32) with
  | some d => decode hasFast d
  | none => .error .truncated

/-- w0 of a command: OPC and the FLAGS bits in bits 8 to 11 (R81, R84, R86). -/
def headerWord (opc : Word) (b8 b9 b10 b11 : Bool) : Word :=
  opc ||| (if b8 then 0x100 else 0) ||| (if b9 then 0x200 else 0) |||
    (if b10 then 0x400 else 0) ||| (if b11 then 0x800 else 0)

/-- The descriptor of a command, from the tables of R83 to R87. -/
def encode : Instr → Descriptor
  | .endList => { w0 := 0x01 }
  | .nop => { w0 := 0x02 }
  | .setcfg r lo hi => { w0 := 0x03, w1 := indexOfCfgReg r, w2 := lo, w3 := hi }
  | .stft dst src len => { w0 := 0x10, w1 := dst, w2 := src, w3 := len }
  | .istft dst src frames bins outlen =>
    { w0 := 0x11, w1 := dst, w2 := src, w3 := frames, w4 := bins, w5 := outlen }
  | .fft c dst src len => { w0 := headerWord 0x12 c false false false, w1 := dst, w2 := src, w3 := len }
  | .ifft r dst src len => { w0 := headerWord 0x13 r false false false, w1 := dst, w2 := src, w3 := len }
  | .firgenLp dst => { w0 := 0x20, w1 := dst }
  | .firgenHp dst => { w0 := headerWord 0x20 true false false false, w1 := dst }
  | .conv xc fc re dst x n f m =>
    { w0 := headerWord 0x30 false xc fc re, w1 := dst, w2 := x, w3 := n, w4 := f, w5 := m }
  | .convFast xc fc re dst x n f m =>
    { w0 := headerWord 0x30 true xc fc re, w1 := dst, w2 := x, w3 := n, w4 := f, w5 := m }

/-- The four bytes of a word, least significant first (R61). -/
def bytesOfWord (w : Word) : List Byte :=
  [w.extractLsb' 0 8, w.extractLsb' 8 8, w.extractLsb' 16 8, w.extractLsb' 24 8]

/-- The 32 bytes of a descriptor as DMEM holds them (R61, R80). -/
def bytesOfDescriptor (d : Descriptor) : List Byte :=
  bytesOfWord d.w0 ++ bytesOfWord d.w1 ++ bytesOfWord d.w2 ++ bytesOfWord d.w3 ++
    bytesOfWord d.w4 ++ bytesOfWord d.w5 ++ bytesOfWord d.w6 ++ bytesOfWord d.w7

/-- The 32 bytes of an instruction given as one number of `nbits` bits, bit 0 the least significant
bit of w0 and later words counting on from it; every bit above `nbits` is 0. -/
def tableBytes (nbits w : Nat) : List Byte :=
  (List.range 32).map fun k => BitVec.ofNat 8 (w % 2 ^ nbits / 2 ^ (8 * k))

/-- The instruction the decoder reads from a table row's bits, for an engine with HAS_FAST_CONV = 1,
the suggested value (DESIGN CHOICE, unsafe: log 1). -/
def decodeTableWord (nbits w : Nat) : Option Instr :=
  (decodeBytes Config.suggested.hasFastConv (tableBytes nbits w)).toOption

end Sys2Proof
end

