-- ==== Sys2Proof/Machine/State.lean ====
section
/-! DEFINITION. The architectural state of the engine (spec/10_state.md R30), its value after reset
(spec/70_reset_and_hazards.md R240), and why a step can stop. -/

namespace Sys2Proof.Machine

/-- A 32-bit host access on the host's bus, at a word address: the interface carries no address bits
1:0 and no byte strobes (R63). -/
inductive HostAccess where
  | read (wordAddr : Nat)
  | write (wordAddr : Nat) (v : Word)
deriving DecidableEq, Repr, Inhabited

/-- Who moves next: the sequencer, the host with one access, or the platform's reset input (R23,
R75, R240). DESIGN CHOICE, safe: log 7. -/
inductive Turn where
  | engine
  | host (a : HostAccess)
  | powerOn
deriving DecidableEq, Repr, Inhabited

/-- The state of the engine (R30). ID, VERSION, the twiddle ROM, TW_COS and TW_SIN, and IRQ are
functions of it; the sequencer is BUSY exactly when STATUS.BUSY = 1 (R51). -/
structure State where
  /-- The implementation parameters, which PARAM reads (R6, R34). No step changes them. -/
  params       : Params
  /-- DMEM: the bytes written since power-on, addresses strictly rising; an unlisted byte has no
  value (R60, R79). -/
  mem          : List Host.Cell
  /-- STATUS (R36). -/
  status       : Word
  /-- An abort request that has not taken effect (R214, R240). -/
  abortPending : Bool
  /-- IRQ_EN (R37). -/
  irqEn        : Word
  /-- ERR_CODE (R39). -/
  errCode      : Word
  /-- ERR_INFO (R40). -/
  errInfo      : Word
  /-- CPC (R38). -/
  cpc          : Word
  /-- CMD_COUNT (R41). -/
  cmdCount     : Word
  /-- RESULT (R42). -/
  result       : Word
  /-- CFG_WINDOW (R43). -/
  cfgWindow    : Word
  /-- CFG_STEP (R44). -/
  cfgStep      : Word
  /-- CFG_FIR_SIZE (R45). -/
  cfgFirSize   : Word
  /-- CFG_CONV_FFT (R46). -/
  cfgConvFft   : Word
  /-- CFG_CUTOFF_LO (R47). -/
  cfgCutoffLo  : Word
  /-- CFG_CUTOFF_HI (R47). -/
  cfgCutoffHi  : Word
  /-- CFG_FS_LO (R48). -/
  cfgFsLo      : Word
  /-- CFG_FS_HI (R48). -/
  cfgFsHi      : Word
  /-- TW_INDEX (R50). -/
  twIndex      : Word
  /-- MODEL'S OWN: who moves next; when empty, the sequencer (log 7). -/
  turns        : List Turn
  /-- MODEL'S OWN: the word the last host read returned (log 8). -/
  hostData     : Word
  /-- MODEL'S OWN: how many interruptions, by an abort or a soft reset, have drawn free values (log 9). -/
  draws        : Nat
deriving DecidableEq, Repr

/-- Why a step stops with a fault. -/
inductive Fault where
  /-- Raised by a descriptor fetch, by a command reading a source array and by a host read of DMEM
  when a byte it reads has no value, because nothing has written it since power-on (R79: "treat it
  as a fault of the reading run"). Safe: the hardware goes on with an unspecified byte (log 6). -/
  | unwrittenByte
deriving DecidableEq, Repr

/-- Why a step refuses. -/
inductive Refusal where
  /-- Raised by an arm of `exec` for an instruction that has no meaning yet; no arm of this model
  answers with it. Safe. -/
  | notModelled (mnemonic : String)
deriving DecidableEq, Repr

/-- The codes of ERR_CODE[7:0] that a run can raise (R201). -/
inductive ErrorCode where
  | illegalCmd
  | invalidDimension
  | invalidCutoff
  | dimensionMismatch
  | addressError
  | fetchError
  | overlapError
deriving DecidableEq, Repr, Inhabited

/-- Error(code, info) of R9: what a command, the decode or the fetch raises. -/
structure ErrorReport where
  code : ErrorCode
  info : Word
deriving DecidableEq, Repr, Inhabited

/-- The machine right after power-on reset (R240): every register at its reset value, the sequencer
IDLE, no request pending, no byte of DMEM with a value. `params` at the suggested values (DESIGN
CHOICE, logs 1 and 2); the model's own fields empty or 0 (DESIGN CHOICE, logs 7 to 9). -/
def State.reset : State :=
  { params := Config.suggested
    mem := []
    status := 0x00000000
    abortPending := false
    irqEn := 0x00000000
    errCode := 0x00000000
    errInfo := 0x00000000
    cpc := 0x00000000
    cmdCount := 0
    result := 0
    cfgWindow := 1024
    cfgStep := 512
    cfgFirSize := 512
    cfgConvFft := 1024
    cfgCutoffLo := 0x00000000
    cfgCutoffHi := 0x408F4000
    cfgFsLo := 0x00000000
    cfgFsHi := 0x00000000
    twIndex := 0
    turns := []
    hostData := 0
    draws := 0 }

end Sys2Proof.Machine
end

