-- ==== Sys2Proof/Machine/Flags.lean ====
section
/-! DEFINITION. The flags of STATUS and the interrupt line (spec/10_state.md R36, R37, R51, R54, R56):
the engine has no arithmetic condition codes, so these are all its flags. -/

namespace Sys2Proof.Machine

/-- The flags of STATUS (R36). -/
inductive Flag where
  | busy
  | done
  | err
  | aborted
  | hostViol
deriving DecidableEq, Repr, Inhabited

/-- The bit of STATUS that holds a flag (R36). -/
def flagBit : Flag → Nat
  | .busy => 0
  | .done => 1
  | .err => 2
  | .aborted => 3
  | .hostViol => 4

/-- A STATUS word with the one flag set. -/
def flagMask (f : Flag) : Word := BitVec.twoPow 32 (flagBit f)

/-- A flag of a STATUS word. -/
def flagOf (status : Word) (f : Flag) : Bool := status.getLsbD (flagBit f)

/-- A flag of the engine. -/
def State.flag (s : State) (f : Flag) : Bool := flagOf s.status f

/-- STATUS.BUSY, the sequencer state (R51). -/
def State.busy (s : State) : Bool := s.flag .busy

/-- Sets a flag; the other bits of STATUS are kept. -/
def State.setFlag (s : State) (f : Flag) : State := { s with status := s.status ||| flagMask f }

/-- Clears a flag; the other bits of STATUS are kept. -/
def State.clearFlag (s : State) (f : Flag) : State := { s with status := s.status &&& ~~~flagMask f }

/-- STATUS after a host write of `v`: write-one-to-clear on bits 4:1, BUSY read-only (R36). -/
def statusAfterWrite (status v : Word) : Word := status &&& ~~~(v &&& 0x1E)

/-- The bits of IRQ_EN a host write stores (R37). -/
def irqEnMask : Word := 0x1E

/-- IRQ = (STATUS[4:1] & IRQ_EN[4:1]) != 0 (R54). -/
def State.irq (s : State) : Bool := s.status.extractLsb' 1 4 &&& s.irqEn.extractLsb' 1 4 != 0

/-- STATUS at the end of a run: the flag that tells how it ended set, BUSY cleared (R105). -/
def State.endRun (s : State) (f : Flag) : State :=
  { (s.setFlag f).clearFlag .busy with abortPending := false }

end Sys2Proof.Machine
end

