-- ==== Sys2Proof/Machine/Float.lean ====
section
/-! DEFINITION. IEEE 754 binary64 arithmetic, rounded to nearest with ties to even, every NaN result
canonical (spec/00_scope.md R13 to R17). Operands become exact integers in units of 2^-1074, the
result is computed exactly as a ratio of naturals and rounded once. What the spec takes from IEEE 754
without stating it is log 17. -/

namespace Sys2Proof.Machine

/-- The canonical quiet NaN CNAN (R15). -/
def cnan : F64 := 0x7FF8000000000000

/-- +0.0. -/
def posZero : F64 := 0x0000000000000000

/-- -0.0. -/
def negZero : F64 := 0x8000000000000000

/-- 1.0. -/
def f64One : F64 := 0x3FF0000000000000

/-- 0.5. -/
def f64Half : F64 := 0x3FE0000000000000

/-- 2.0. -/
def f64Two : F64 := 0x4000000000000000

/-- C054 = RN(0.54) (R17). -/
def c054 : F64 := 0x3FE147AE147AE148

/-- C046 = RN(0.46) (R17). -/
def c046 : F64 := 0x3FDD70A3D70A3D71

/-- PI64 = RN(pi) (R17). -/
def pi64 : F64 := 0x400921FB54442D18

/-- The sign bit, bit 63 (R13). -/
def signBit (a : F64) : Bool := a.getLsbD 63

/-- The biased exponent, bits 62:52 (R13). -/
def expField (a : F64) : Nat := (a.extractLsb' 52 11).toNat

/-- The fraction, bits 51:0 (R13). -/
def fracField (a : F64) : Nat := (a.extractLsb' 0 52).toNat

/-- A NaN: exponent all ones, fraction nonzero. -/
def isNaN (a : F64) : Bool := expField a == 2047 && fracField a != 0

/-- An infinity: exponent all ones, fraction zero. -/
def isInf (a : F64) : Bool := expField a == 2047 && fracField a == 0

/-- Finite: neither a NaN nor an infinity. -/
def isFinite (a : F64) : Bool := expField a != 2047

/-- The magnitude of a finite value in units of 2^-1074, exact; subnormals included (R13). -/
def magUnits (a : F64) : Nat :=
  if expField a = 0 then fracField a else (2 ^ 52 + fracField a) * 2 ^ (expField a - 1)

/-- A finite value in units of 2^-1074, exact. -/
def units (a : F64) : Int := if signBit a then -(magUnits a : Int) else (magUnits a : Int)

/-- `n / d` rounded to the nearest integer, ties to even. -/
def rneDiv (n d : Nat) : Nat :=
  if 2 * (n % d) < d then n / d
  else if 2 * (n % d) = d then n / d + (n / d) % 2
  else n / d + 1

/-- How many bits the quantum of a magnitude of `t` units lies above the unit: 0 while 53 bits hold it. -/
def quantumShift (t : Nat) : Nat := Nat.log2 t - 52

/-- The encoding, sign bit aside, of infinity. -/
def infMag : Nat := 2047 * 2 ^ 52

/-- The encoding, sign bit aside, of `n / d` units rounded to nearest, ties to even, with overflow
to infinity: RN of R15. -/
def roundMag (n d : Nat) : Nat :=
  let k := quantumShift (n / d)
  min (k * 2 ^ 52 + rneDiv n (d * 2 ^ k)) infMag

/-- The encoding, sign bit aside, of the largest binary64 not above `n / d` units. -/
def floorMag (n d : Nat) : Nat :=
  let k := quantumShift (n / d)
  k * 2 ^ 52 + n / (d * 2 ^ k)

/-- A binary64 from its sign and the rest of its encoding. -/
def ofSignMag (neg : Bool) (m : Nat) : F64 := BitVec.ofNat 64 ((if neg then 2 ^ 63 else 0) + m)

/-- RN of the exact value (-1)^neg * (n / d) units of 2^-1074 (R15). -/
def roundUnits (neg : Bool) (n d : Nat) : F64 := ofSignMag neg (roundMag n d)

/-- neg(a): flips the sign bit, and gives CNAN for a NaN (R15). -/
def fneg (a : F64) : F64 := if isNaN a then cnan else a ^^^ negZero

/-- add(a, b) (R15). An exact zero sum is -0.0 only when both operands are negative. -/
def fadd (a b : F64) : F64 :=
  if isNaN a || isNaN b then cnan
  else if isInf a then (if isInf b && signBit a != signBit b then cnan else a)
  else if isInf b then b
  else
    let z := units a + units b
    if z = 0 then (if signBit a && signBit b then negZero else posZero)
    else roundUnits (decide (z < 0)) z.natAbs 1

/-- sub(a, b) (R15): a + (-b). -/
def fsub (a b : F64) : F64 := fadd a (fneg b)

/-- mul(a, b) (R15). -/
def fmul (a b : F64) : F64 :=
  let neg := signBit a != signBit b
  if isNaN a || isNaN b then cnan
  else if isInf a || isInf b then
    (if magUnits a = 0 || magUnits b = 0 then cnan else ofSignMag neg infMag)
  else roundUnits neg (magUnits a * magUnits b) (2 ^ 1074)

/-- div(a, b) (R15): division of a nonzero value by zero gives an infinity, 0/0 and inf/inf CNAN. -/
def fdiv (a b : F64) : F64 :=
  let neg := signBit a != signBit b
  if isNaN a || isNaN b then cnan
  else if isInf a then (if isInf b then cnan else ofSignMag neg infMag)
  else if isInf b then ofSignMag neg 0
  else if magUnits b = 0 then (if magUnits a = 0 then cnan else ofSignMag neg infMag)
  else roundUnits neg (magUnits a * 2 ^ 1074) (magUnits b)

/-- f64(n): an integer as a binary64, exact for |n| <= 2^53 (R15). -/
def f64OfInt (n : Int) : F64 := roundUnits (decide (n < 0)) (n.natAbs * 2 ^ 1074) 1

/-- `a < b` on the exact values of two finite binary64 (R162). -/
def exactLt (a b : F64) : Bool := decide (units a < units b)

/-- promote(a) = (a, +0.0) (R14). -/
def promote (a : F64) : C64 := ⟨a, posZero⟩

/-- The complex zero (+0.0, +0.0) (R14). -/
def czero : C64 := ⟨posZero, posZero⟩

/-- cadd (R16). -/
def cadd (x y : C64) : C64 := ⟨fadd x.re y.re, fadd x.im y.im⟩

/-- csub (R16). -/
def csub (x y : C64) : C64 := ⟨fsub x.re y.re, fsub x.im y.im⟩

/-- cmul (R16), each product rounded before it is used. -/
def cmul (x y : C64) : C64 :=
  ⟨fsub (fmul x.re y.re) (fmul x.im y.im), fadd (fmul x.re y.im) (fmul x.im y.re)⟩

/-- cscale (R16). -/
def cscale (x : C64) (s : F64) : C64 := ⟨fmul x.re s, fmul x.im s⟩

end Sys2Proof.Machine
end

