-- ==== Sys2Proof/Machine/Ops.lean ====
section
/-! DEFINITION. The named operations over memory and registers: DMEM reads and writes (spec/00_scope.md
R9, spec/20_memory.md R61), completion of a command (spec/40_control.md R103), error entry
(spec/60_exceptions.md R203) and, beside it, the start request that leaves the error state (R101, R208). -/

namespace Sys2Proof.Machine

/-- What a step, or the meaning of a command, answers. -/
abbrev Result := Host.Outcome State Fault Refusal

/-- The value of the byte at offset `a`; `none` for a byte nothing has written (R79). -/
def readByte (mem : List Host.Cell) (a : Nat) : Option Byte :=
  match mem with
  | [] => none
  | c :: rest => if c.1 = a then some c.2 else readByte rest a

/-- Writes the byte at offset `a`, keeping the addresses strictly rising. -/
def writeByte (mem : List Host.Cell) (a : Nat) (b : Byte) : List Host.Cell :=
  match mem with
  | [] => [(a, b)]
  | c :: rest =>
    if c.1 < a then c :: writeByte rest a b
    else if c.1 = a then (a, b) :: rest
    else (a, b) :: c :: rest

/-- Addresses strictly rising: the canonical form of DMEM. No entry can equal what an unlisted byte
reads as, since that is no value. -/
abbrev memWf (mem : List Host.Cell) : Prop := mem.Pairwise fun c d => c.1 < d.1

/-- The values of `n` bytes from offset `a`; `none` if one of them has no value. -/
def readBytes (mem : List Host.Cell) (a : Nat) : Nat → Option (List Byte)
  | 0 => some []
  | n + 1 =>
    match readByte mem a, readBytes mem (a + 1) n with
    | some b, some bs => some (b :: bs)
    | _, _ => none

/-- Writes bytes from offset `a` on. -/
def writeBytes (mem : List Host.Cell) (a : Nat) : List Byte → List Host.Cell
  | [] => mem
  | b :: bs => writeBytes (writeByte mem a b) (a + 1) bs

/-- The unsigned integer of little-endian bytes: the byte at the lowest offset least significant (R61). -/
def natOfBytes : List Byte → Nat
  | [] => 0
  | b :: bs => b.toNat + 256 * natOfBytes bs

/-- The `n` little-endian bytes of an unsigned integer (R61). -/
def bytesOfNat (v : Nat) : Nat → List Byte
  | 0 => []
  | n + 1 => BitVec.ofNat 8 v :: bytesOfNat (v / 256) n

/-- MemRead(addr, n) of R9. -/
def memRead (mem : List Host.Cell) (a n : Nat) : Option Nat := (readBytes mem a n).map natOfBytes

/-- MemWrite(addr, n, v) of R9. -/
def memWrite (mem : List Host.Cell) (a n v : Nat) : List Host.Cell := writeBytes mem a (bytesOfNat v n)

/-- RdF(a) of R9. -/
def rdF (mem : List Host.Cell) (a : Nat) : Option F64 := (memRead mem a 8).map (BitVec.ofNat 64)

/-- WrF(a, x) of R9. -/
def wrF (mem : List Host.Cell) (a : Nat) (x : F64) : List Host.Cell := memWrite mem a 8 x.toNat

/-- RdC(a) of R9. -/
def rdC (mem : List Host.Cell) (a : Nat) : Option C64 :=
  match rdF mem a, rdF mem (a + 8) with
  | some re, some im => some ⟨re, im⟩
  | _, _ => none

/-- Writes binary64 values from offset `a` on, 8 bytes each (R68). -/
def wrFs (mem : List Host.Cell) (a : Nat) : List F64 → List Host.Cell
  | [] => mem
  | x :: xs => wrFs (wrF mem a x) (a + 8) xs

/-- Complex values as the binary64 values they occupy in DMEM: re, then im (R14, R68). -/
def parts (xs : List C64) : List F64 := xs.flatMap fun x => [x.re, x.im]

/-- Reads one item for each index of a list, in order; `none` if one of them has no value. -/
def collect {α : Type} (read : Nat → Option α) : List Nat → Option (List α)
  | [] => some []
  | i :: is =>
    match read i, collect read is with
    | some x, some xs => some (x :: xs)
    | _, _ => none

/-- `isPow2(n)`: n = 2^k for some k >= 0 (R11). -/
def isPow2 (n : Nat) : Bool := n != 0 && 2 ^ Nat.log2 n == n

/-- The number an error code writes to ERR_CODE (R201). -/
def ErrorCode.number : ErrorCode → Word
  | .illegalCmd => 0x01
  | .invalidDimension => 0x02
  | .invalidCutoff => 0x03
  | .dimensionMismatch => 0x04
  | .addressError => 0x05
  | .fetchError => 0x06
  | .overlapError => 0x07

/-- Error entry: ERR_CODE and ERR_INFO written, STATUS.ERR set, BUSY cleared, the run over; CPC,
CMD_COUNT, RESULT, the configuration and DMEM are kept (R203, R204). An abort still pending has no
effect (R214 outcome 3). -/
def raise (e : ErrorReport) (s : State) : State :=
  { s.endRun .err with errCode := e.code.number, errInfo := e.info }

/-- The error a command of dimension sub-code `k` raises (R202). -/
def dimensionError (k : Nat) : ErrorReport := ⟨.invalidDimension, BitVec.ofNat 32 k⟩

/-- Start request (R101): from IDLE it clears DONE, ERR, ABORTED, ERR_CODE, ERR_INFO and CMD_COUNT and
begins a run at the current CPC, which is also the way out of the error state (R208); while BUSY it
has no effect. -/
def startRequest (s : State) : State :=
  if s.busy then s
  else
    { (((s.clearFlag .done).clearFlag .err).clearFlag .aborted).setFlag .busy with
      errCode := 0, errInfo := 0, cmdCount := 0 }

/-- Completion: CMD_COUNT + 1 and CPC + 32 (R103). -/
def complete (s : State) : State := { s with cmdCount := s.cmdCount + 1, cpc := s.cpc + 32 }

/-- CFG_CUTOFF = (CFG_CUTOFF_HI, CFG_CUTOFF_LO) (R47, R49). -/
def State.cutoff (s : State) : F64 := s.cfgCutoffHi ++ s.cfgCutoffLo

/-- CFG_FS = (CFG_FS_HI, CFG_FS_LO) (R48, R49). -/
def State.fs (s : State) : F64 := s.cfgFsHi ++ s.cfgFsLo

end Sys2Proof.Machine
end

