-- ==== Sys2Proof/Machine/Control.lean ====
section
/-! DEFINITION. END, NOP and SETCFG (spec/40_control.md R106 to R108). -/

namespace Sys2Proof.Machine

/-- END: the command completes, then the run ends with DONE (R106). An abort still pending has no
effect (R214 outcome 1). -/
def execEndList (s : State) : Result := .next ((complete s).endRun .done)

/-- NOP: completes, nothing else (R107). -/
def execNop (s : State) : Result := .next (complete s)

/-- The write of a SETCFG, stored without a legality check (R108); VHI is used by the 64-bit
registers only. -/
def writeCfg (reg : CfgReg) (vlo vhi : Word) (s : State) : State :=
  match reg with
  | .window => { s with cfgWindow := vlo }
  | .step => { s with cfgStep := vlo }
  | .firSize => { s with cfgFirSize := vlo }
  | .convFft => { s with cfgConvFft := vlo }
  | .cutoff => { s with cfgCutoffLo := vlo, cfgCutoffHi := vhi }
  | .fs => { s with cfgFsLo := vlo, cfgFsHi := vhi }

/-- SETCFG (R108). -/
def execSetcfg (reg : CfgReg) (vlo vhi : Word) (s : State) : Result :=
  .next (complete (writeCfg reg vlo vhi s))

end Sys2Proof.Machine
end

