-- ==== Sys2Proof/Machine/Operands.lean ====
section
/-! DEFINITION. Array operands of the data commands: their checks (spec/20_memory.md R66, R67), and the
one shape of a data command: checks, then a destination array computed from DMEM, then RESULT and
completion (spec/60_exceptions.md R204, R206). -/

namespace Sys2Proof.Machine

/-- An array operand: the descriptor word that holds its base, the base, the element count and the
element size, 8 for real and 16 for complex (R66). -/
structure ArrayRef where
  word  : Nat
  base  : Nat
  count : Nat
  esize : Nat
deriving DecidableEq, Repr, Inhabited

/-- The size of an array in bytes, an exact integer (R10, R66). -/
def ArrayRef.bytes (a : ArrayRef) : Nat := a.count * a.esize

/-- An array operand as a descriptor word gives it; `cplx` says whether its elements are complex (R14). -/
def arrayRef (word : Nat) (base : Word) (count : Nat) (cplx : Bool) : ArrayRef :=
  { word := word, base := base.toNat, count := count, esize := if cplx then 16 else 8 }

/-- R66: alignment before range; ERR_INFO names the word and the cause (R202). -/
def arrayError (dmemSize : Nat) (a : ArrayRef) : Option ErrorReport :=
  if a.base % 8 ≠ 0 then some ⟨.addressError, BitVec.ofNat 32 (a.word + 256)⟩
  else if a.base + a.bytes > dmemSize then some ⟨.addressError, BitVec.ofNat 32 a.word⟩
  else none

/-- Two byte ranges intersect: both non-empty, each starting before the other's end (R67). -/
def overlaps (d s : ArrayRef) : Bool :=
  decide (0 < d.bytes ∧ 0 < s.bytes ∧ d.base < s.base + s.bytes ∧ s.base < d.base + d.bytes)

/-- R67: the destination against one source; ERR_INFO names both words (R202). -/
def overlapError (d s : ArrayRef) : Option ErrorReport :=
  if overlaps d s then some ⟨.overlapError, BitVec.ofNat 32 (d.word + 256 * s.word)⟩ else none

/-- A data command with its operands and its latched configuration (R104). -/
structure Job where
  /-- The checks on dimensions and cutoff, in the command's own order (R206 3, 4). -/
  dims   : List (Option ErrorReport)
  /-- The destination array, descriptor word 1. -/
  dst    : ArrayRef
  /-- The source arrays, in ascending order of their descriptor words. -/
  srcs   : List ArrayRef
  /-- The binary64 values of the destination, from its base on, as a function of DMEM; `none` if a
  byte they depend on has no value. -/
  output : List Host.Cell → Option (List F64)
  /-- The value of RESULT (R42). -/
  result : Nat

/-- The first error of a list of checks made in order (R205). -/
def firstError (checks : List (Option ErrorReport)) : Option ErrorReport := checks.findSome? id

/-- Every check of a data command after decode, in the order of R206: dimensions and cutoff, then the
arrays in ascending word order, then the overlaps. -/
def Job.checks (j : Job) (dmemSize : Nat) : List (Option ErrorReport) :=
  j.dims ++ (j.dst :: j.srcs).map (arrayError dmemSize) ++ j.srcs.map (overlapError j.dst)

/-- The first error of a data command, if any check fails. -/
def Job.error (j : Job) (dmemSize : Nat) : Option ErrorReport := firstError (j.checks dmemSize)

/-- The state after a data command whose checks passed: the destination written, RESULT set, the
command complete (R42, R103). -/
def Job.finish (j : Job) (xs : List F64) (s : State) : State :=
  complete { s with mem := wrFs s.mem j.dst.base xs, result := BitVec.ofNat 32 j.result }

/-- A data command: an error is taken before any write (R204); otherwise the command completes whole. -/
def runJob (j : Job) (s : State) : Result :=
  match j.error s.params.dmemSize with
  | some e => .next (raise e s)
  | none =>
    match j.output s.mem with
    | none => .fault .unwrittenByte
    | some xs => .next (j.finish xs s)

/-- Fails with `e` unless `ok` holds. -/
def require (ok : Bool) (e : ErrorReport) : Option ErrorReport := if ok then none else some e

/-- `count` real elements from `base` on (R68). -/
def readReals (mem : List Host.Cell) (base count : Nat) : Option (List F64) :=
  collect (fun k => rdF mem (base + 8 * k)) (List.range count)

/-- `count` complex elements from `base` on (R68). -/
def readComplexes (mem : List Host.Cell) (base count : Nat) : Option (List C64) :=
  collect (fun k => rdC mem (base + 16 * k)) (List.range count)

/-- `count` elements as complex values, a real element promoted (R14, R182). -/
def readPromoted (mem : List Host.Cell) (base count : Nat) (cplx : Bool) : Option (List C64) :=
  if cplx then readComplexes mem base count else (readReals mem base count).map (List.map promote)

/-- Complex results as they go to the destination: both parts, or the real parts alone (R142, R182). -/
def outputParts (realOnly : Bool) (xs : List C64) : List F64 :=
  if realOnly then xs.map C64.re else parts xs

end Sys2Proof.Machine
end

