-- ==== Sys2Proof/Machine/Trig.lean ====
section
/-! DEFINITION. The trigonometric parameters: Cos2pi, Sin2pi of an exact rational (spec/00_scope.md
R18 to R20) and the twiddle ROM (R21). Each value is exact where the true value is 0, 1/2, -1/2, 1
or -1; elsewhere the true value is irrational, the model computes its two binary64 neighbours by
fixed-point enclosure, and WHICH of them is returned is a free value of Config (logs 3 to 5). -/

namespace Sys2Proof.Machine

/-- Sum over k < K of (-1)^k * floor(2^p / ((2k+1) m^(2k+1))), from term `k` on; `pw` is m^(2k+1). -/
def arctanInvSum (p m : Nat) : Nat → Nat → Nat → Int
  | 0, _, _ => 0
  | K + 1, k, pw => (2 ^ p / ((2 * k + 1) * pw) : Nat) - arctanInvSum p m K (k + 1) (pw * m ^ 2)

/-- How many terms of the arctangent series the enclosure of pi sums. -/
def piTerms (p : Nat) : Nat := p / 4 + 2

/-- Machin's formula, pi = 16 arctan(1/5) - 4 arctan(1/239), scaled by 2^p: within `piError p`. -/
def piFixed (p : Nat) : Int :=
  16 * arctanInvSum p 5 (piTerms p) 0 5 - 4 * arctanInvSum p 239 (piTerms p) 0 239

/-- A bound of the error of `piFixed`: one unit a term and one for the rest of each series. -/
def piError (p : Nat) : Nat := 20 * (piTerms p + 1)

/-- A lower bound of (pi/2)(a/b) scaled by 2^p. -/
def angleLo (a b p : Nat) : Nat := (piFixed p - piError p).toNat * a / (2 * b)

/-- An upper bound of (pi/2)(a/b) scaled by 2^p. -/
def angleHi (a b p : Nat) : Nat := (piFixed p + piError p).toNat * a / (2 * b) + 1

/-- Alternating sum of `K` terms of a Taylor series in fixed point with p fractional bits: the term
after `t` (index j) is t * th^2 / ((j+1)(j+2)), rounded down. Sine starts at j = 1 with th, cosine
at j = 0 with 1. -/
def taylorSum (p th : Nat) : Nat → Nat → Nat → Int
  | 0, _, _ => 0
  | K + 1, j, t =>
    (t : Int) - taylorSum p th K (j + 2) (t * th ^ 2 / (2 ^ (2 * p) * ((j + 1) * (j + 2))))

/-- How many Taylor terms are summed. -/
def taylorTerms (p : Nat) : Nat := p / 8 + 8

/-- A bound of the error of a Taylor sum in units of 2^-p: two units a term and two for the rest. -/
def taylorError (p : Nat) : Nat := 2 * taylorTerms p + 2

/-- sin of an angle given in fixed point. -/
def sinFixed (p th : Nat) : Int := taylorSum p th (taylorTerms p) 1 th

/-- cos of an angle given in fixed point. -/
def cosFixed (p th : Nat) : Int := taylorSum p th (taylorTerms p) 0 (2 ^ p)

/-- An enclosure of sin((pi/2)(a/b)) scaled by 2^p, for 0 <= a <= b: through the sine up to half a
right angle, through the cosine of the complement above it. -/
def quadrantSin (a b p : Nat) : Nat × Nat :=
  if 2 * a ≤ b then
    ((sinFixed p (angleLo a b p) - taylorError p).toNat, (sinFixed p (angleHi a b p) + taylorError p).toNat)
  else
    ((cosFixed p (angleHi (b - a) b p) - taylorError p).toNat,
      (cosFixed p (angleLo (b - a) b p) + taylorError p).toNat)

/-- The ends of the enclosure of sin((pi/2)(a/b)) at precision p, as the encodings, sign bit aside, of
the largest binary64 not above each. -/
def enclosureFloors (a b p : Nat) : Nat × Nat :=
  let e := quadrantSin a b p
  (floorMag (e.1 * 2 ^ 1074) (2 ^ p), floorMag (e.2 * 2 ^ 1074) (2 ^ p))

/-- The largest binary64 not above sin((pi/2)(a/b)), as an encoding sign bit aside: the floor on which
both ends of the enclosure agree at the first precision p, 2p, 4p, ... where they do. -/
def floorSearch (a b : Nat) : Nat → Nat → Nat
  | 0, p => (enclosureFloors a b p).1
  | k + 1, p =>
    let f := enclosureFloors a b p
    if f.1 = f.2 then f.1 else floorSearch a b k (2 * p)

/-- How often the precision doubles at most: from 128 bits to more than 2^14 * b, at which both ends agree
for every value that is not a binary64 (log 3; proved by `enclosureFloors_agree`). -/
def searchSteps (b : Nat) : Nat := Nat.log2 b + 8

/-- The largest binary64 not above sin((pi/2)(a/b)), for 0 <= a <= b where that is not a binary64. -/
def quadrantFloor (a b : Nat) : Nat := floorSearch a b (searchSteps b) 128

/-- A faithful rounding (R19) of (-1)^neg * sin((pi/2)(a/b)), a value that is not a binary64: the free
choice clamped to the neighbour below and the neighbour above. -/
def faithful (neg : Bool) (a b : Nat) (c : FaithfulChoice) : F64 :=
  let f := quadrantFloor a b
  let m := max f (min (f + 1) c.pick)
  ofSignMag (if m = 0 then c.zeroNeg else neg) m

/-- The sine of `q` right angles plus (pi/2)(a/b), rounded faithfully. -/
def faithfulSin (q a b : Nat) (c : FaithfulChoice) : F64 :=
  if q % 4 = 0 then faithful false a b c
  else if q % 4 = 1 then faithful false (b - a) b c
  else if q % 4 = 2 then faithful true a b c
  else faithful true (b - a) b c

/-- The numerator of x modulo its denominator: x mod 1 is `turnNum x / x.den`. -/
def turnNum (x : Rat) : Nat := (x.num % (x.den : Int)).toNat

/-- The true values of cos(2 pi x) that are binary64: those at multiples of 1/4 and 1/6 (R20). -/
def exactCos2pi (x : Rat) : Option F64 :=
  if x.den = 1 then some f64One
  else if x.den = 2 then some (fneg f64One)
  else if x.den = 3 then some (fneg f64Half)
  else if x.den = 4 then some posZero
  else if x.den = 6 then some f64Half
  else none

/-- The true values of sin(2 pi x) that are binary64: those at multiples of 1/4 and 1/12 (R20). -/
def exactSin2pi (x : Rat) : Option F64 :=
  if x.den = 1 ∨ x.den = 2 then some posZero
  else if x.den = 4 then some (if turnNum x = 1 then f64One else fneg f64One)
  else if x.den = 12 then some (if turnNum x < 6 then f64Half else fneg f64Half)
  else none

/-- A faithful rounding of cos(2 pi x), with the free choice `c` (R19). -/
def roundedCos2pi (x : Rat) (c : FaithfulChoice) : F64 :=
  match exactCos2pi x with
  | some v => v
  | none => faithfulSin (4 * turnNum x / x.den + 1) (4 * turnNum x % x.den) x.den c

/-- A faithful rounding of sin(2 pi x), with the free choice `c` (R19). -/
def roundedSin2pi (x : Rat) (c : FaithfulChoice) : F64 :=
  match exactSin2pi x with
  | some v => v
  | none => faithfulSin (4 * turnNum x / x.den) (4 * turnNum x % x.den) x.den c

/-- Cos2pi of TRIG (R20). -/
def cos2pi (x : Rat) : F64 := roundedCos2pi x (Config.cosChoice x)

/-- Sin2pi of TRIG (R20). -/
def sin2pi (x : Rat) : F64 := roundedSin2pi x (Config.sinChoice x)

/-- TWC[r] of the ROM for NMAX = 2^log2Nmax (R21). -/
def romCos (log2Nmax r : Nat) : F64 :=
  roundedCos2pi (mkRat r (2 ^ log2Nmax)) (Config.romCosChoice log2Nmax r)

/-- TWS[r] of the ROM for NMAX = 2^log2Nmax (R21). -/
def romSin (log2Nmax r : Nat) : F64 :=
  roundedSin2pi (mkRat r (2 ^ log2Nmax)) (Config.romSinChoice log2Nmax r)

end Sys2Proof.Machine
end

