-- ==== Sys2Proof/Machine/Transform.lean ====
section
/-! DEFINITION. The STFT/IFFT engine: Hamming window, FFT core, FFT, IFFT, STFT and ISTFT
(spec/41_transform.md). -/

namespace Sys2Proof.Machine

/-- HamW(n, N) = sub(C054, mul(C046, Cos2pi(n / (N - 1)))) on the exact rational (R120). -/
def hamW (n N : Nat) : F64 := fsub c054 (fmul c046 (cos2pi (mkRat n (N - 1))))

/-- bitrev_m(k): bit j of k becomes bit m-1-j (R125). -/
def bitrev : Nat → Nat → Nat
  | 0, _ => 0
  | m + 1, k => (k % 2) * 2 ^ m + bitrev m (k / 2)

/-- The direction of a transform (R126). -/
inductive Dir where
  | fwd
  | inv
deriving DecidableEq, Repr, Inhabited

/-- The twiddle factor of ROM entry r: (TWC[r], neg(TWS[r])) forward, (TWC[r], TWS[r]) inverse (R126, R127). -/
def twiddle (log2Nmax : Nat) (dir : Dir) (r : Nat) : C64 :=
  match dir with
  | .fwd => ⟨romCos log2Nmax r, fneg (romSin log2Nmax r)⟩
  | .inv => ⟨romCos log2Nmax r, romSin log2Nmax r⟩

/-- One butterfly of R126 with twiddle `w`, on elements p = blk + j and q = blk + j + half. -/
def butterfly (w : C64) (p q : Nat) (A : List C64) : List C64 :=
  let t := cmul w (A.getD q czero)
  let u := A.getD p czero
  (A.set p (cadd u t)).set q (csub u t)

/-- The butterflies of stage s of a transform of length L, as (blk, j), in the order of R126: blk in
steps of 2^s, and for each of them j in [0, 2^(s-1)). -/
def stagePairs (L s : Nat) : List (Nat × Nat) :=
  (List.range (L / 2 ^ s)).flatMap fun b => (List.range (2 ^ (s - 1))).map fun j => (b * 2 ^ s, j)

/-- The butterfly (blk, j) of stage s, its twiddle at ROM index j * (NMAX / 2^s) (R126, R127). -/
def stageButterfly (log2Nmax : Nat) (dir : Dir) (s : Nat) (A : List C64) (bj : Nat × Nat) : List C64 :=
  butterfly (twiddle log2Nmax dir (bj.2 * (2 ^ log2Nmax / 2 ^ s)))
    (bj.1 + bj.2) (bj.1 + bj.2 + 2 ^ (s - 1)) A

/-- Stage s of R126. -/
def fftStage (log2Nmax : Nat) (dir : Dir) (L s : Nat) (A : List C64) : List C64 :=
  (stagePairs L s).foldl (stageButterfly log2Nmax dir s) A

/-- The input in bit-reversed order (R126). -/
def bitReversed (a : List C64) (m : Nat) : List C64 :=
  (List.range (2 ^ m)).map fun k => a.getD (bitrev m k) czero

/-- 2^(-m) as a binary64, for m <= 1022 (R128). -/
def invPow2 (m : Nat) : F64 := roundUnits false (2 ^ 1074) (2 ^ m)

/-- FFTCORE(a, 2^m, dir): bit reversal, stages 1 to m in ascending order, and for INV the scaling by
2^(-m) (R126, R128). -/
def fftCore (log2Nmax m : Nat) (dir : Dir) (a : List C64) : List C64 :=
  let A := (List.range m).foldl (fun A i => fftStage log2Nmax dir (2 ^ m) (i + 1) A) (bitReversed a m)
  match dir with
  | .fwd => A
  | .inv => A.map fun x => cscale x (invPow2 m)

/-- The length check of FFT and IFFT: a power of two in [1, NMAX] (R140 (1), R142 (1)). -/
def lenCheck (p : Params) (len : Nat) : Option ErrorReport :=
  require (isPow2 len && decide (len ≤ p.nmax)) (dimensionError 5)

/-- The values of the frame length and the hop the STFT and ISTFT accept (R147). -/
def frameChecks (s : State) : List (Option ErrorReport) :=
  [ require (isPow2 s.cfgWindow.toNat && decide (2 ≤ s.cfgWindow.toNat ∧ s.cfgWindow.toNat ≤ s.params.nmax))
      (dimensionError 1),
    require (decide (1 ≤ s.cfgStep.toNat)) (dimensionError 2) ]

/-- FFT as a data command (R140). -/
def fftJob (inCplx : Bool) (dst src len : Word) (s : State) : Job :=
  { dims := [lenCheck s.params len.toNat]
    dst := arrayRef 1 dst len.toNat true
    srcs := [arrayRef 2 src len.toNat inCplx]
    output := fun mem => (readPromoted mem src.toNat len.toNat inCplx).map fun a =>
      parts (fftCore s.params.log2Nmax (Nat.log2 len.toNat) .fwd a)
    result := len.toNat }

/-- IFFT as a data command (R142). -/
def ifftJob (outRe : Bool) (dst src len : Word) (s : State) : Job :=
  { dims := [lenCheck s.params len.toNat]
    dst := arrayRef 1 dst len.toNat (!outRe)
    srcs := [arrayRef 2 src len.toNat true]
    output := fun mem => (readComplexes mem src.toNat len.toNat).map fun a =>
      outputParts outRe (fftCore s.params.log2Nmax (Nat.log2 len.toNat) .inv a)
    result := len.toNat }

/-- F = (LEN - N) // step, the frame count of an STFT (R148). -/
def stftFrames (len n step : Nat) : Nat := (len - n) / step

/-- Frame i of an STFT: N windowed samples from sample i * step on, promoted (R122, R148). -/
def stftFrame (mem : List Host.Cell) (src n step i : Nat) : Option (List C64) :=
  collect (fun k => (rdF mem (src + 8 * (i * step + k))).map fun x => promote (fmul x (hamW k n)))
    (List.range n)

/-- STFT as a data command (R148): the spectra of the frames in ascending order, frame-major. -/
def stftJob (dst src len : Word) (s : State) : Job :=
  let n := s.cfgWindow.toNat
  let step := s.cfgStep.toNat
  let frames := stftFrames len.toNat n step
  { dims := frameChecks s ++ [require (decide (n ≤ len.toNat)) (dimensionError 3)]
    dst := arrayRef 1 dst (frames * n) true
    srcs := [arrayRef 2 src len.toNat false]
    output := fun mem =>
      (collect (stftFrame mem src.toNat n step) (List.range frames)).map fun fs =>
        fs.flatMap fun a => parts (fftCore s.params.log2Nmax (Nat.log2 n) .fwd a)
    result := frames }

/-- Adds the real parts of one inverse frame into the accumulator from position `at0` on (R151). -/
def overlapAdd (acc : List F64) (at0 : Nat) (y : List C64) : List F64 :=
  (List.range y.length).foldl
    (fun acc k => acc.set (at0 + k) (fadd (acc.getD (at0 + k) posZero) (y.getD k czero).re)) acc

/-- The output of an ISTFT: the frames' real parts added in ascending order into +0.0 (R151). -/
def istftSum (log2Nmax n step outlen : Nat) (spectra : List (List C64)) : List F64 :=
  (List.range spectra.length).foldl
    (fun acc i => overlapAdd acc (i * step) (fftCore log2Nmax (Nat.log2 n) .inv (spectra.getD i [])))
    (List.replicate outlen posZero)

/-- ISTFT as a data command (R151). -/
def istftJob (dst src frames bins outlen : Word) (s : State) : Job :=
  let n := s.cfgWindow.toNat
  let step := s.cfgStep.toNat
  { dims := frameChecks s ++
      [ require (decide (bins.toNat = n)) ⟨.dimensionMismatch, 1⟩,
        require (decide (frames.toNat = 0 ∨ (frames.toNat - 1) * step + n ≤ outlen.toNat)) (dimensionError 6) ]
    dst := arrayRef 1 dst outlen.toNat false
    srcs := [arrayRef 2 src (frames.toNat * bins.toNat) true]
    output := fun mem =>
      (collect (fun i => readComplexes mem (src.toNat + 16 * (i * n)) n) (List.range frames.toNat)).map
        (istftSum s.params.log2Nmax n step outlen.toNat)
    result := outlen.toNat }

/-- FFT (R140). -/
def execFft (inCplx : Bool) (dst src len : Word) (s : State) : Result :=
  runJob (fftJob inCplx dst src len s) s

/-- IFFT (R142). -/
def execIfft (outRe : Bool) (dst src len : Word) (s : State) : Result :=
  runJob (ifftJob outRe dst src len s) s

/-- STFT (R148). -/
def execStft (dst src len : Word) (s : State) : Result := runJob (stftJob dst src len s) s

/-- ISTFT (R151). -/
def execIstft (dst src frames bins outlen : Word) (s : State) : Result :=
  runJob (istftJob dst src frames bins outlen s) s

end Sys2Proof.Machine
end

