-- ==== Sys2Proof/Machine/Conv.lean ====
section
/-! DEFINITION. The linear convolution engine: CONV and CONV.FAST (spec/43_conv.md). -/

namespace Sys2Proof.Machine

/-- The loops of R185 over a number domain: for each input sample in ascending order, the whole kernel
in ascending order, each product added into the accumulator, which starts at zero. -/
def convAcc {α : Type} (add mul : α → α → α) (zero : α) (xs fs : List α) : List α :=
  (List.range xs.length).foldl
    (fun acc i => (List.range fs.length).foldl
      (fun acc j => acc.set (i + j) (add (acc.getD (i + j) zero) (mul (xs.getD i zero) (fs.getD j zero))))
      acc)
    (List.replicate (xs.length + fs.length - 1) zero)

/-- Direct convolution in the real domain (R185). -/
def convReal (xs fs : List F64) : List F64 := convAcc fadd fmul posZero xs fs

/-- Direct convolution in the complex domain (R185). -/
def convComplex (xs fs : List C64) : List C64 := convAcc cadd cmul czero xs fs

/-- Segment b of the input, S samples padded to P with the complex zero (R187). -/
def segment (xs : List C64) (S P b : Nat) : List C64 :=
  (List.range P).map fun n => if n < S ∧ b * S + n < xs.length then xs.getD (b * S + n) czero else czero

/-- The accumulation of one segment's result, from position `at0` on, within the output length (R187). -/
def segmentAdd (acc : List C64) (at0 : Nat) (y : List C64) : List C64 :=
  (List.range y.length).foldl
    (fun acc n =>
      if at0 + n < acc.length then acc.set (at0 + n) (cadd (acc.getD (at0 + n) czero) (y.getD n czero)) else acc)
    acc

/-- The overlap-add loop of R187 for FFT length P = 2^m. -/
def convOverlapAdd (log2Nmax m : Nat) (xs fs : List C64) : List C64 :=
  let P := 2 ^ m
  let S := P - fs.length + 1
  let H := fftCore log2Nmax m .fwd ((List.range P).map fun j => fs.getD j czero)
  (List.range ((xs.length + S - 1) / S)).foldl
    (fun acc b =>
      let X := fftCore log2Nmax m .fwd (segment xs S P b)
      let Y := (List.range P).map fun k => cmul (X.getD k czero) (H.getD k czero)
      segmentAdd acc (b * S) (fftCore log2Nmax m .inv Y))
    (List.replicate (xs.length + fs.length - 1) czero)

/-- The domain is complex when X or F is complex (R181). -/
def convCplx (xc fc : Bool) : Bool := xc || fc

/-- The destination holds complex elements in the complex domain without OUT_RE, and reals otherwise (R181). -/
def convDstCplx (xc fc outRe : Bool) : Bool := convCplx xc fc && !outRe

/-- The checks N >= 1 and M >= 1 (R183 (1), (2)). -/
def convChecks (n m : Nat) : List (Option ErrorReport) :=
  [require (decide (1 ≤ n)) (dimensionError 7), require (decide (1 ≤ m)) (dimensionError 8)]

/-- The FAST parameter checks on P = CFG_CONV_FFT (R184). -/
def fastChecks (p : Params) (cfgP m : Nat) : List (Option ErrorReport) :=
  [ require (isPow2 cfgP && decide (2 ≤ cfgP ∧ cfgP ≤ p.nmax)) (dimensionError 9),
    require (decide (m ≤ cfgP)) (dimensionError 10) ]

/-- The elements CONV writes (R182, R185): in the real domain on the reals, in the complex domain on
promoted elements. -/
def convOutput (xc fc outRe : Bool) (x n f m : Nat) (mem : List Host.Cell) : Option (List F64) :=
  if convCplx xc fc then
    match readPromoted mem x n xc, readPromoted mem f m fc with
    | some xs, some fs => some (outputParts outRe (convComplex xs fs))
    | _, _ => none
  else
    match readReals mem x n, readReals mem f m with
    | some xs, some fs => some (convReal xs fs)
    | _, _ => none

/-- The elements CONV.FAST writes: always computed on promoted elements; the real parts in the real
domain (R187). -/
def convFastOutput (log2Nmax cfgP : Nat) (xc fc outRe : Bool) (x n f m : Nat) (mem : List Host.Cell) :
    Option (List F64) :=
  match readPromoted mem x n xc, readPromoted mem f m fc with
  | some xs, some fs =>
    some (outputParts (!convDstCplx xc fc outRe) (convOverlapAdd log2Nmax (Nat.log2 cfgP) xs fs))
  | _, _ => none

/-- The arrays CONV and CONV.FAST read: X (word 2) and F (word 4) (R183). -/
def convSources (xc fc : Bool) (x n f m : Word) : List ArrayRef :=
  [arrayRef 2 x n.toNat xc, arrayRef 4 f m.toNat fc]

/-- CONV as a data command (R183, R185). -/
def convJob (xc fc outRe : Bool) (dst x n f m : Word) : Job :=
  { dims := convChecks n.toNat m.toNat
    dst := arrayRef 1 dst (n.toNat + m.toNat - 1) (convDstCplx xc fc outRe)
    srcs := convSources xc fc x n f m
    output := convOutput xc fc outRe x.toNat n.toNat f.toNat m.toNat
    result := n.toNat + m.toNat - 1 }

/-- CONV.FAST as a data command (R183, R184, R187). -/
def convFastJob (xc fc outRe : Bool) (dst x n f m : Word) (s : State) : Job :=
  { dims := convChecks n.toNat m.toNat ++ fastChecks s.params s.cfgConvFft.toNat m.toNat
    dst := arrayRef 1 dst (n.toNat + m.toNat - 1) (convDstCplx xc fc outRe)
    srcs := convSources xc fc x n f m
    output := convFastOutput s.params.log2Nmax s.cfgConvFft.toNat xc fc outRe x.toNat n.toNat f.toNat m.toNat
    result := n.toNat + m.toNat - 1 }

/-- CONV (R185). -/
def execConv (xc fc outRe : Bool) (dst x n f m : Word) (s : State) : Result :=
  runJob (convJob xc fc outRe dst x n f m) s

/-- CONV.FAST (R187). On an engine with HAS_FAST_CONV = 0 the command does not exist: it is taken as
the illegal command the decoder also finds it to be, reason 5 (R88 (5), R187). -/
def execConvFast (xc fc outRe : Bool) (dst x n f m : Word) (s : State) : Result :=
  if s.params.hasFastConv then runJob (convFastJob xc fc outRe dst x n f m s) s
  else .next (raise ⟨.illegalCmd, Illegal.noFast.info⟩ s)

end Sys2Proof.Machine
end

