-- ==== Sys2Proof/Machine/Firgen.lean ====
section
/-! DEFINITION. The windowed-sinc FIR coefficient generator: FIRGEN.LP and FIRGEN.HP (spec/42_firgen.md). -/

namespace Sys2Proof.Machine

/-- R161: M even and M >= 2. -/
def firSizeCheck (m : Nat) : Option ErrorReport :=
  require (decide (m % 2 = 0 ∧ 2 ≤ m)) (dimensionError 4)

/-- R162: both finite; then fc > 0; then 2 * fc < fs on the exact values. -/
def cutoffChecks (fc fs : F64) : List (Option ErrorReport) :=
  [ require (isFinite fc && isFinite fs) ⟨.invalidCutoff, 1⟩,
    require (exactLt posZero fc) ⟨.invalidCutoff, 2⟩,
    require (decide (2 * units fc < units fs)) ⟨.invalidCutoff, 3⟩ ]

/-- The exact rational fc * n / fs (R163, R18), for a positive fs. -/
def sincArg (fc fs : F64) (n : Int) : Rat := mkRat (units fc * n) (units fs).toNat

/-- LPC(n) (R163). -/
def lpc (fc fs : F64) (n : Int) : F64 :=
  if n = 0 then fdiv (fmul f64Two fc) fs
  else fdiv (sin2pi (sincArg fc fs n)) (fmul pi64 (f64OfInt n))

/-- HPC(n) = sub(DELTA(n), LPC(n)), DELTA the exact unit impulse (R164). -/
def hpc (fc fs : F64) (n : Int) : F64 := fsub (if n = 0 then f64One else posZero) (lpc fc fs n)

/-- Output element j of a kernel K of size M: mul(K(j - M/2), HamW(j, M)) (R165). -/
def firElement (kernel : Int → F64) (m j : Nat) : F64 :=
  fmul (kernel ((j : Int) - ((m / 2 : Nat) : Int))) (hamW j m)

/-- FIRGEN with a given kernel as a data command; it reads no DMEM (R166, R167). -/
def firgenJob (kernel : F64 → F64 → Int → F64) (dst : Word) (s : State) : Job :=
  { dims := firSizeCheck s.cfgFirSize.toNat :: cutoffChecks s.cutoff s.fs
    dst := arrayRef 1 dst s.cfgFirSize.toNat false
    srcs := []
    output := fun _ => some
      ((List.range s.cfgFirSize.toNat).map (firElement (kernel s.cutoff s.fs) s.cfgFirSize.toNat))
    result := s.cfgFirSize.toNat }

/-- FIRGEN.LP (R166). -/
def execFirgenLp (dst : Word) (s : State) : Result := runJob (firgenJob lpc dst s) s

/-- FIRGEN.HP (R167). -/
def execFirgenHp (dst : Word) (s : State) : Result := runJob (firgenJob hpc dst s) s

end Sys2Proof.Machine
end

