-- ==== Sys2Proof/Machine/Dispatch.lean ====
section
/-! DEFINITION. exec: the meaning of each command, one arm per constructor of Instr. -/

namespace Sys2Proof.Machine

/-- The rule of a decoded command, run at CPC in the state `s` (spec/40_control.md R100). -/
def exec (i : Instr) (s : State) : Host.Outcome State Fault Refusal :=
  match i with
  | .endList => Sys2Proof.Machine.execEndList s
  | .nop => Sys2Proof.Machine.execNop s
  | .setcfg reg vlo vhi => Sys2Proof.Machine.execSetcfg reg vlo vhi s
  | .stft dst src len => Sys2Proof.Machine.execStft dst src len s
  | .istft dst src frames bins outlen => Sys2Proof.Machine.execIstft dst src frames bins outlen s
  | .fft inCplx dst src len => Sys2Proof.Machine.execFft inCplx dst src len s
  | .ifft outRe dst src len => Sys2Proof.Machine.execIfft outRe dst src len s
  | .firgenLp dst => Sys2Proof.Machine.execFirgenLp dst s
  | .firgenHp dst => Sys2Proof.Machine.execFirgenHp dst s
  | .conv xc fc outRe dst x n f m => Sys2Proof.Machine.execConv xc fc outRe dst x n f m s
  | .convFast xc fc outRe dst x n f m => Sys2Proof.Machine.execConvFast xc fc outRe dst x n f m s

end Sys2Proof.Machine
end

