-- ==== Sys2Proof/Machine/Sequencer.lean ====
section
/-! DEFINITION. The command sequencer: fetch, decode and execution of the command at CPC
(spec/40_control.md R100 to R104), abort (spec/60_exceptions.md R214), soft reset and power-on reset
(spec/70_reset_and_hazards.md R240, R241). -/

namespace Sys2Proof.Machine

/-- What the fetch of the descriptor at CPC gives (R102). -/
inductive Fetched where
  | words (bs : List Byte)
  | beyondDmem
  | unwritten
deriving DecidableEq, Repr

/-- R102: FETCH_ERROR when cpc + 32 > DMEM_SIZE, on exact integers; otherwise all 32 bytes at once. -/
def fetch (s : State) : Fetched :=
  if s.cpc.toNat + 32 > s.params.dmemSize then .beyondDmem
  else
    match readBytes s.mem s.cpc.toNat 32 with
    | some bs => .words bs
    | none => .unwritten

/-- FETCH_ERROR, ERR_INFO 0 (R102, R202). -/
def fetchErrorReport : ErrorReport := ⟨.fetchError, 0⟩

/-- ILLEGAL_CMD with the reason the decoder found (R200, R202). -/
def illegalReport (e : Illegal) : ErrorReport := ⟨.illegalCmd, e.info⟩

/-- One round of the run loop: fetch, decode, execute and complete the command at CPC (R100). -/
def runCommand (s : State) : Result :=
  match fetch s with
  | .beyondDmem => .next (raise fetchErrorReport s)
  | .unwritten => .fault .unwrittenByte
  | .words bs =>
    match decodeBytes s.params.hasFastConv bs with
    | .error e => .next (raise (illegalReport e) s)
    | .ok i => exec i s

/-- The data command of a decoded command; END, NOP and SETCFG have no destination array. -/
def jobOf (i : Instr) (s : State) : Option Job :=
  match i with
  | .endList => none
  | .nop => none
  | .setcfg _ _ _ => none
  | .stft dst src len => some (stftJob dst src len s)
  | .istft dst src frames bins outlen => some (istftJob dst src frames bins outlen s)
  | .fft inCplx dst src len => some (fftJob inCplx dst src len s)
  | .ifft outRe dst src len => some (ifftJob outRe dst src len s)
  | .firgenLp dst => some (firgenJob lpc dst s)
  | .firgenHp dst => some (firgenJob hpc dst s)
  | .conv xc fc outRe dst x n f m => some (convJob xc fc outRe dst x n f m)
  | .convFast xc fc outRe dst x n f m => some (convFastJob xc fc outRe dst x n f m s)

/-- The unspecified bytes of an interrupted destination: `n` free bytes from offset `a` on (R214
outcome 2, I9), drawn with the number of the interruption. -/
def scramble (draw : Nat) (mem : List Host.Cell) (a n : Nat) : List Host.Cell :=
  writeBytes mem a ((List.range n).map fun k => Config.freeByte draw (a + k))

/-- The end of a run by an abort: ABORTED set, BUSY cleared, ERR_CODE and ERR_INFO kept (R214). -/
def endAborted (s : State) : State := s.endRun .aborted

/-- A decoded command cut in its middle (R214 outcome 2): its destination array unspecified, or for a
SETCFG its write done or not; CPC, CMD_COUNT and RESULT kept. A command one of whose checks fails
makes no write, so it is never in the middle of one: its error ends the run (R204, outcome 3; log 10). -/
def cutCommand (i : Instr) (done : Bool) (s : State) : State :=
  match jobOf i s with
  | some j =>
    match j.error s.params.dmemSize with
    | some e => raise e s
    | none => endAborted { s with mem := scramble s.draws s.mem j.dst.base j.dst.bytes }
  | none =>
    match i with
    | .setcfg reg vlo vhi => endAborted (if done then writeCfg reg vlo vhi s else s)
    | _ => endAborted s

/-- An engine turn of a run with an interruption at the point `p` of the command at CPC (R214): before
its fetch, after it completed whole (unless it ended the run itself), or in its middle. -/
def interruptAt (p : AbortPoint) (s : State) : Result :=
  match p with
  | .before => .next (endAborted s)
  | .after =>
    match runCommand s with
    | .next t => .next (if t.busy then endAborted t else t)
    | .fault r => .fault r
    | .refused r => .refused r
  | .cut done =>
    match fetch s with
    | .beyondDmem => .next (raise fetchErrorReport s)
    | .unwritten => .fault .unwrittenByte
    | .words bs =>
      match decodeBytes s.params.hasFastConv bs with
      | .error e => .next (raise (illegalReport e) s)
      | .ok i => .next (cutCommand i done s)

/-- A new interruption, by an abort or by a soft reset: the free bytes it leaves are drawn with a number
that no earlier interruption used (log 9). -/
def nextDraw (s : State) : State := { s with draws := s.draws + 1 }

/-- An abort takes effect at a point the spec leaves open: drawn from the free value (I8). -/
def abortTurn (s : State) : Result := interruptAt (Config.abortPoint s.draws) (nextDraw s)

/-- The sequencer's turn: nothing while IDLE; a pending abort takes effect; otherwise one command. -/
def engineTurn (s : State) : Result :=
  if s.busy then (if s.abortPending then abortTurn s else runCommand s) else .next s

/-- Every register at its value after reset, the sequencer IDLE; DMEM, the parameters and the model's
own fields are kept (R240, R241). -/
def resetRegisters (s : State) : State :=
  { State.reset with
    params := s.params, mem := s.mem, turns := s.turns, hostData := s.hostData, draws := s.draws }

/-- Power-on reset: every register at its value after reset, every byte of DMEM unspecified (R240). -/
def powerOnReset (s : State) : State := { resetRegisters s with mem := [] }

/-- The 32 bytes a busy engine holds as its descriptor: those of DMEM at CPC, a free value for each
byte that nothing has written (R79, I7; log 12). -/
def heldDescriptor (s : State) : List Byte :=
  (List.range 32).map fun k =>
    (readByte s.mem (s.cpc.toNat + k)).getD (Config.heldByte s.draws (s.cpc.toNat + k))

/-- The data command a busy engine has in progress; none where CPC admits no fetch (R102), where the
descriptor is illegal, or where the command has no destination array. -/
def jobInProgress (s : State) : Option Job :=
  if s.cpc.toNat + 32 > s.params.dmemSize then none
  else (decodeBytes s.params.hasFastConv (heldDescriptor s)).toOption.bind (jobOf · s)

/-- DMEM when a soft reset stops the command in progress at the point `p` (R241): as before it, as the
completed command leaves it, or with every byte of its destination unspecified. A command one of
whose checks fails writes nothing (R204; log 10); where a source byte has no value, neither have the
results, and the destination is unspecified after it too (log 12). -/
def stoppedMem (p : AbortPoint) (s : State) : List Host.Cell :=
  match jobInProgress s with
  | none => s.mem
  | some j =>
    if p = .before ∨ (j.error s.params.dmemSize).isSome then s.mem
    else
      match p, j.output s.mem with
      | .after, some xs => wrFs s.mem j.dst.base xs
      | _, _ => scramble s.draws s.mem j.dst.base j.dst.bytes

/-- Soft reset (R241): it cannot be masked or refused. While IDLE it changes only registers; while BUSY
the command in progress stops first, at a point the spec leaves open. -/
def softReset (s : State) : State :=
  if s.busy then
    resetRegisters { nextDraw s with mem := stoppedMem (Config.abortPoint s.draws) (nextDraw s) }
  else resetRegisters s

/-- Abort request (R214): while IDLE no effect; while BUSY it is pending until it takes effect. -/
def abortRequest (s : State) : State := if s.busy then { s with abortPending := true } else s

end Sys2Proof.Machine
end

