-- ==== Sys2Proof/Machine/HostPort.lean ====
section
/-! DEFINITION. The host's side of the engine: the register block (spec/10_state.md R32 to R50), the
DMEM aperture (spec/20_memory.md R62 to R65) and the CTRL requests (R35). -/

namespace Sys2Proof.Machine

/-- The registers of R32. -/
inductive Reg where
  | id
  | version
  | param
  | ctrl
  | status
  | irqEn
  | errCode
  | errInfo
  | cpc
  | cmdCount
  | result
  | cfgWindow
  | cfgStep
  | cfgFirSize
  | cfgConvFft
  | cfgCutoffLo
  | cfgCutoffHi
  | cfgFsLo
  | cfgFsHi
  | twIndex
  | twCosLo
  | twCosHi
  | twSinLo
  | twSinHi
deriving DecidableEq, Repr, Inhabited

/-- The register map of R32, by byte offset. -/
def registerMap : List (Nat × Reg) :=
  [ (0x000, .id), (0x004, .version), (0x008, .param), (0x010, .ctrl), (0x014, .status), (0x018, .irqEn),
    (0x01C, .errCode), (0x020, .errInfo), (0x024, .cpc), (0x028, .cmdCount), (0x02C, .result),
    (0x040, .cfgWindow), (0x044, .cfgStep), (0x048, .cfgFirSize), (0x04C, .cfgConvFft),
    (0x050, .cfgCutoffLo), (0x054, .cfgCutoffHi), (0x058, .cfgFsLo), (0x05C, .cfgFsHi),
    (0x060, .twIndex), (0x068, .twCosLo), (0x06C, .twCosHi), (0x070, .twSinLo), (0x074, .twSinHi) ]

/-- The register at an offset of the block; `none` at a reserved offset (R32). -/
def regAt (offset : Nat) : Option Reg := (registerMap.find? fun e => e.1 == offset).map Prod.snd

/-- PARAM: LOG2_NMAX in bits 4:0, log2(DMEM_SIZE) in bits 12:8, HAS_FAST_CONV in bit 16 (R34). -/
def paramWord (p : Params) : Word :=
  BitVec.ofNat 32 (p.log2Nmax + 2 ^ 8 * p.log2Dmem + 2 ^ 16 * p.hasFastConv.toNat)

/-- The value of a register for the host (R32 to R50). CTRL is write-only and reads 0. -/
def readReg (r : Reg) (s : State) : Word :=
  match r with
  | .id => 0x42344C44
  | .version => 0x00000007
  | .param => paramWord s.params
  | .ctrl => 0
  | .status => s.status
  | .irqEn => s.irqEn
  | .errCode => s.errCode
  | .errInfo => s.errInfo
  | .cpc => s.cpc
  | .cmdCount => s.cmdCount
  | .result => s.result
  | .cfgWindow => s.cfgWindow
  | .cfgStep => s.cfgStep
  | .cfgFirSize => s.cfgFirSize
  | .cfgConvFft => s.cfgConvFft
  | .cfgCutoffLo => s.cfgCutoffLo
  | .cfgCutoffHi => s.cfgCutoffHi
  | .cfgFsLo => s.cfgFsLo
  | .cfgFsHi => s.cfgFsHi
  | .twIndex => s.twIndex
  | .twCosLo => (romCos s.params.log2Nmax s.twIndex.toNat).extractLsb' 0 32
  | .twCosHi => (romCos s.params.log2Nmax s.twIndex.toNat).extractLsb' 32 32
  | .twSinLo => (romSin s.params.log2Nmax s.twIndex.toNat).extractLsb' 0 32
  | .twSinHi => (romSin s.params.log2Nmax s.twIndex.toNat).extractLsb' 32 32

/-- The value a host read of a register block offset returns: a reserved offset reads 0 (R32). -/
def readRegister (offset : Nat) (s : State) : Word :=
  match regAt offset with
  | some r => readReg r s
  | none => 0

/-- A host write to CTRL: SOFT_RESET, else ABORT, else START, else nothing (R35). -/
def writeCtrl (v : Word) (s : State) : Result :=
  if v.getLsbD 2 then .next (softReset s)
  else if v.getLsbD 1 then .next (abortRequest s)
  else if v.getLsbD 0 then .next (startRequest s)
  else .next s

/-- A host access dropped because BUSY = 1 (R65 (d)). -/
def violation (s : State) : State := s.setFlag .hostViol

/-- A host write to a register marked "RW when idle" (R32, R65 (c)). -/
def whenIdle (store : State → State) (s : State) : Result :=
  .next (if s.busy then violation s else store s)

/-- The bits of CPC a host write stores: 4:0 are hardwired 0 (R38). -/
def cpcMask : Word := 0xFFFFFFE0

/-- A host write to a register (R32 to R50). A write to a read-only register has no effect. -/
def writeReg (r : Reg) (v : Word) (s : State) : Result :=
  match r with
  | .ctrl => writeCtrl v s
  | .status => .next { s with status := statusAfterWrite s.status v }
  | .irqEn => .next { s with irqEn := v &&& irqEnMask }
  | .cpc => whenIdle (fun s => { s with cpc := v &&& cpcMask }) s
  | .cfgWindow => whenIdle (fun s => { s with cfgWindow := v }) s
  | .cfgStep => whenIdle (fun s => { s with cfgStep := v }) s
  | .cfgFirSize => whenIdle (fun s => { s with cfgFirSize := v }) s
  | .cfgConvFft => whenIdle (fun s => { s with cfgConvFft := v }) s
  | .cfgCutoffLo => whenIdle (fun s => { s with cfgCutoffLo := v }) s
  | .cfgCutoffHi => whenIdle (fun s => { s with cfgCutoffHi := v }) s
  | .cfgFsLo => whenIdle (fun s => { s with cfgFsLo := v }) s
  | .cfgFsHi => whenIdle (fun s => { s with cfgFsHi := v }) s
  | .twIndex => .next { s with twIndex := BitVec.ofNat 32 (v.toNat % (s.params.nmax / 2)) }
  | .id | .version | .param | .errCode | .errInfo | .cmdCount | .result => .next s
  | .twCosLo | .twCosHi | .twSinLo | .twSinHi => .next s

/-- A host write to the register block: a reserved offset ignores it (R32). -/
def writeRegister (offset : Nat) (v : Word) (s : State) : Result :=
  match regAt offset with
  | some r => writeReg r v s
  | none => .next s

/-- A host read of DMEM offset `a`: while BUSY it returns 0, does not read DMEM and sets HOST_VIOL
(R65 (a)); while IDLE it returns MemRead(a, 4) (R64). -/
def hostReadDmem (a : Nat) (s : State) : Result :=
  if s.busy then .next { violation s with hostData := 0 }
  else
    match memRead s.mem a 4 with
    | some v => .next { s with hostData := BitVec.ofNat 32 v }
    | none => .fault .unwrittenByte

/-- A host write of `v` to DMEM offset `a`: while BUSY it is dropped and sets HOST_VIOL (R65 (b));
while IDLE it performs MemWrite(a, 4, v) (R64). -/
def hostWriteDmem (a : Nat) (v : Word) (s : State) : Result :=
  if s.busy then .next (violation s) else .next { s with mem := memWrite s.mem a 4 v.toNat }

/-- What a word address of the host's bus selects (R62). -/
inductive BusTarget where
  | register (offset : Nat)
  | dmem (offset : Nat)
  | elsewhere
deriving DecidableEq, Repr, Inhabited

/-- The two regions of R62: the register block from REG_BASE on, the DMEM aperture from DMEM_BASE on.
Should a platform let them overlap, the register block answers (log 2). -/
def busTarget (p : Params) (wordAddr : Nat) : BusTarget :=
  if p.regBaseWord ≤ wordAddr ∧ wordAddr < p.regBaseWord + 1024 then
    .register (4 * (wordAddr - p.regBaseWord))
  else if p.dmemBaseWord ≤ wordAddr ∧ 4 * (wordAddr - p.dmemBaseWord) < p.dmemSize then
    .dmem (4 * (wordAddr - p.dmemBaseWord))
  else .elsewhere

/-- One host access (R63). An access outside both regions is not this engine's: nothing happens (log 14). -/
def hostAccess (a : HostAccess) (s : State) : Result :=
  match a with
  | .read w =>
    match busTarget s.params w with
    | .register off => .next { s with hostData := readRegister off s }
    | .dmem off => hostReadDmem off s
    | .elsewhere => .next s
  | .write w v =>
    match busTarget s.params w with
    | .register off => writeRegister off v s
    | .dmem off => hostWriteDmem off v s
    | .elsewhere => .next s

/-- One turn: the one `turns` names next, or the sequencer's when it names none (log 7). -/
def takeTurn (s : State) : Result :=
  match s.turns with
  | [] => engineTurn s
  | .engine :: rest => engineTurn { s with turns := rest }
  | .host a :: rest => hostAccess a { s with turns := rest }
  | .powerOn :: rest => .next (powerOnReset { s with turns := rest })

/-- Makes `bs` the descriptor that the sequencer fetches next: a run in progress with nothing pending
and no other turn before it, CPC at a fetchable offset (CPC itself when it is one, else 0), the bytes
in DMEM there. -/
def placeCommand (bs : List Byte) (s : State) : State :=
  let at0 : Word := if s.cpc.toNat + 32 ≤ s.params.dmemSize then s.cpc else 0
  { s.setFlag .busy with
    cpc := at0, mem := writeBytes s.mem at0.toNat bs, abortPending := false, turns := [] }

end Sys2Proof.Machine
end

