-- ==== Sys2Proof/Machine/Step.lean ====
section
/-! DEFINITION. The step of the machine: one turn (spec/20_memory.md R75, spec/70_reset_and_hazards.md R252). -/

namespace Sys2Proof.Machine

/-- One step: a command of the sequencer, a host access or a power-on reset. -/
def step (s : State) : Host.Outcome State Fault Refusal := takeTurn s

/-- `s` with the instruction of the given bits stored where step fetches next (log 7). -/
def State.withFetchWord (s : State) (nbits w : Nat) : State := placeCommand (tableBytes nbits w) s

end Sys2Proof.Machine
end

