-- ==== Sys2Proof/Machine/Assembler.lean ====
section
/-! DEFINITION. The assembler syntax of spec/30_encoding.md R90 to R92: commands, pseudo-commands and
directives, from text to the bytes a host places in DMEM. A text is a list of characters. -/

namespace Sys2Proof.Machine

/-- One line of a command list, assembled. -/
inductive AsmItem where
  | blank
  | org (offset : Nat)
  | command (i : Instr)
  | data (align : Nat) (bs : List Byte)
deriving DecidableEq, Repr, Inhabited

/-- A blank character. -/
def isBlank (c : Char) : Bool := c == ' ' || c == '\t' || c == '\r'

/-- Without blanks at either end. -/
def trimBlanks (cs : List Char) : List Char :=
  ((cs.dropWhile isBlank).reverse.dropWhile isBlank).reverse

/-- The value of a digit in a base up to 16; lower or upper case. -/
def digitOf (base : Nat) (c : Char) : Option Nat :=
  let v := if '0' ≤ c ∧ c ≤ '9' then c.toNat - 48
    else if 'a' ≤ c ∧ c ≤ 'f' then c.toNat - 87
    else if 'A' ≤ c ∧ c ≤ 'F' then c.toNat - 55
    else 16
  if v < base then some v else none

/-- The number a nonempty digit list spells after `acc`. -/
def digitsFrom (base acc : Nat) : List Char → Option Nat
  | [] => some acc
  | c :: cs => match digitOf base c with
    | some d => digitsFrom base (base * acc + d) cs
    | none => none

/-- A nonempty list of digits. -/
def digits (base : Nat) (cs : List Char) : Option Nat :=
  if cs.isEmpty then none else digitsFrom base 0 cs

/-- A decimal or 0x hexadecimal literal (R90). -/
def natLiteral (cs : List Char) : Option Nat :=
  match cs with
  | '0' :: 'x' :: hs => digits 16 hs
  | _ => digits 10 cs

/-- An integer operand, in [0, 2^32) (R90). -/
def wordLiteral (cs : List Char) : Option Word :=
  match natLiteral (trimBlanks cs) with
  | some n => if n < 2 ^ 32 then some (BitVec.ofNat 32 n) else none
  | none => none

/-- A sign and what follows it. -/
def signOf : List Char → Bool × List Char
  | '-' :: cs => (true, cs)
  | '+' :: cs => (false, cs)
  | cs => (false, cs)

/-- RN of (-1)^neg * m * 10^e (R15, R90). -/
def decimalF64 (neg : Bool) (m : Nat) (e : Int) : F64 :=
  roundUnits neg (m * 10 ^ e.toNat * 2 ^ 1074) (10 ^ (-e).toNat)

/-- An exponent after `e` or `E`. -/
def exponentOf (cs : List Char) : Option Int :=
  match signOf cs with
  | (neg, ds) => (digits 10 ds).map fun n => if neg then -(n : Int) else (n : Int)

/-- A decimal literal, integer or with a fraction or exponent, converted by RN (R90). -/
def decimalLiteral (cs : List Char) : Option F64 :=
  let (neg, body) := signOf cs
  let mant := body.takeWhile fun c => c != 'e' && c != 'E'
  let int := mant.takeWhile (· != '.')
  let frac := (mant.drop int.length).drop 1
  let dotOk := decide (int.length = mant.length) || !frac.isEmpty
  let exp := match body.drop mant.length with
    | [] => some 0
    | _ :: rest => exponentOf rest
  match dotOk, digits 10 int, digits 10 (int ++ frac), exp with
  | true, some _, some m, some e => some (decimalF64 neg m (e - frac.length))
  | _, _, _, _ => none

/-- A binary64 operand: a decimal literal, or f64:0x and 16 hexadecimal digits (R90). -/
def f64Literal (cs : List Char) : Option F64 :=
  match trimBlanks cs with
  | 'f' :: '6' :: '4' :: ':' :: '0' :: 'x' :: hs =>
    if hs.length = 16 then (digits 16 hs).map (BitVec.ofNat 64) else none
  | t => decimalLiteral t

/-- Operands separated by commas outside parentheses. -/
def splitOperands (depth : Nat) (cur : List Char) : List Char → List (List Char)
  | [] => [cur.reverse]
  | c :: cs =>
    if c == ',' && depth == 0 then cur.reverse :: splitOperands 0 [] cs
    else if c == '(' then splitOperands (depth + 1) (c :: cur) cs
    else if c == ')' then splitOperands (depth - 1) (c :: cur) cs
    else splitOperands depth (c :: cur) cs

/-- The operands of a line; no text, no operands. -/
def operandsOf (cs : List Char) : List (List Char) :=
  if (trimBlanks cs).isEmpty then [] else (splitOperands 0 [] cs).map trimBlanks

/-- Every operand of a list through one reader. -/
def readAll {α : Type} (read : List Char → Option α) : List (List Char) → Option (List α)
  | [] => some []
  | c :: cs => match read c, readAll read cs with
    | some x, some xs => some (x :: xs)
    | _, _ => none

/-- A complex operand `(re, im)` (R92). -/
def c64Literal (cs : List Char) : Option C64 :=
  match trimBlanks cs with
  | '(' :: rest =>
    match rest.reverse with
    | ')' :: body =>
      match readAll f64Literal (splitOperands 0 [] body.reverse) with
      | some [re, im] => some ⟨re, im⟩
      | _ => none
    | _ => none
  | _ => none

/-- The eight bytes of a binary64 in DMEM (R61). -/
def f64Bytes (x : F64) : List Byte := bytesOfNat x.toNat 8

/-- The names of SETCFG's registers (R90). -/
def cfgName (cs : List Char) : Option CfgReg :=
  if cs = "window".toList then some .window
  else if cs = "step".toList then some .step
  else if cs = "fir_size".toList then some .firSize
  else if cs = "conv_fft".toList then some .convFft
  else if cs = "cutoff".toList then some .cutoff
  else if cs = "fs".toList then some .fs
  else none

/-- `setcfg <reg>, <value>`: an integer for a 32-bit register, a binary64 for a 64-bit one (R90). -/
def setcfgOf (reg : CfgReg) (value : List Char) : Option Instr :=
  if reg.wide then (f64Literal value).map fun v => .setcfg reg (v.extractLsb' 0 32) (v.extractLsb' 32 32)
  else (wordLiteral value).map fun v => .setcfg reg v 0

/-- A mnemonic's parts between dots. -/
def dotted (cs : List Char) : List (List Char) := cs.splitOn '.'

/-- Takes an optional suffix off the front of a list of suffixes. -/
def takeSuffix (name : String) (sfx : List (List Char)) : Bool × List (List Char) :=
  match sfx with
  | s :: rest => if s = name.toList then (true, rest) else (false, sfx)
  | [] => (false, [])

/-- `conv[.fast][.xc][.fc][.re]`, the suffixes at most once each and in this order (R90). -/
def convOf (sfx : List (List Char)) (ws : List Word) : Option Instr :=
  let (fast, s1) := takeSuffix "fast" sfx
  let (xc, s2) := takeSuffix "xc" s1
  let (fc, s3) := takeSuffix "fc" s2
  let (re, s4) := takeSuffix "re" s3
  match s4, ws with
  | [], [dst, x, n, f, m] => some (if fast then .convFast xc fc re dst x n f m else .conv xc fc re dst x n f m)
  | _, _ => none

/-- A command whose operands are all integers (R90), pseudo-commands `lpf`, `hpf` and `response`
included (R91). -/
def integerCommand (name : List Char) (sfx : List (List Char)) (ws : List Word) : Option Instr :=
  if name = "conv".toList then convOf sfx ws
  else match sfx, ws with
    | [], [] =>
      if name = "end".toList then some .endList
      else if name = "nop".toList then some .nop
      else none
    | [], [dst] =>
      if name = "lpf".toList then some (.firgenLp dst)
      else if name = "hpf".toList then some (.firgenHp dst)
      else none
    | [s], [dst] =>
      if name = "firgen".toList then
        (if s = "lp".toList then some (.firgenLp dst) else if s = "hp".toList then some (.firgenHp dst) else none)
      else none
    | [], [dst, src, len] =>
      if name = "stft".toList then some (.stft dst src len)
      else if name = "fft".toList ∨ name = "response".toList then some (.fft false dst src len)
      else if name = "ifft".toList then some (.ifft false dst src len)
      else none
    | [s], [dst, src, len] =>
      if name = "fft".toList ∧ s = "c".toList then some (.fft true dst src len)
      else if name = "ifft".toList ∧ s = "re".toList then some (.ifft true dst src len)
      else none
    | [], [dst, src, frames, bins, outlen] =>
      if name = "istft".toList then some (.istft dst src frames bins outlen) else none
    | _, _ => none

/-- The register a pseudo-command `set...` names (R91). -/
def pseudoSet (name : List Char) : Option CfgReg :=
  if name = "setwin".toList then some .window
  else if name = "setstep".toList then some .step
  else if name = "setfir".toList then some .firSize
  else if name = "setcfft".toList then some .convFft
  else if name = "setcutoff".toList then some .cutoff
  else if name = "setfs".toList then some .fs
  else none

/-- A command or pseudo-command (R90, R91). -/
def asmCommand (mnemonic : List Char) (ops : List (List Char)) : Option Instr :=
  match dotted mnemonic with
  | [] => none
  | name :: sfx =>
    if name = "setcfg".toList then
      match sfx, ops with
      | [], [reg, value] => (cfgName reg).bind fun r => setcfgOf r value
      | _, _ => none
    else match pseudoSet name, sfx, ops with
      | some r, [], [value] => setcfgOf r value
      | some _, _, _ => none
      | none, _, _ => (readAll wordLiteral ops).bind fun ws => integerCommand name sfx ws

/-- A directive (R92). -/
def asmDirective (name : List Char) (ops : List (List Char)) : Option AsmItem :=
  if name = ".org".toList then
    match readAll wordLiteral ops with
    | some [w] => some (.org w.toNat)
    | _ => none
  else if name = ".zero".toList then
    match readAll wordLiteral ops with
    | some [w] => some (.data 1 (List.replicate w.toNat 0))
    | _ => none
  else if name = ".f64".toList then
    (readAll f64Literal ops).map fun xs => .data 8 (xs.flatMap f64Bytes)
  else if name = ".c64".toList then
    (readAll c64Literal ops).map fun xs => .data 8 ((parts xs).flatMap f64Bytes)
  else none

/-- One line: its comment dropped, its first word the mnemonic or directive (R90, R92); `none` for a
line that is neither. -/
def asmLine (line : List Char) : Option AsmItem :=
  let text := trimBlanks (line.takeWhile (· != ';'))
  let head := text.takeWhile fun c => !isBlank c
  let ops := operandsOf (text.drop head.length)
  match head with
  | [] => some .blank
  | '.' :: _ => asmDirective head ops
  | _ => (asmCommand head ops).map .command

/-- A command list from offset `at0` on: each item's offset and bytes; `none` for a line that is no
item, a command off a multiple of 32, or data off its alignment (R92). -/
def assemble (at0 : Nat) : List (List Char) → Option (List (Nat × List Byte))
  | [] => some []
  | line :: rest =>
    match asmLine line with
    | none => none
    | some .blank => assemble at0 rest
    | some (.org o) => assemble o rest
    | some (.command i) =>
      if at0 % 32 = 0 then (assemble (at0 + 32) rest).map ((at0, bytesOfDescriptor (encode i)) :: ·) else none
    | some (.data align bs) =>
      if at0 % align = 0 then (assemble (at0 + bs.length) rest).map ((at0, bs) :: ·) else none

end Sys2Proof.Machine
end

