-- ==== Sys2Proof/Safety.lean ====
section
/-! DEFINITION. What holds of the engine in every state it can be in, in the terms the claims use. -/

namespace Sys2Proof.Machine

/-- At most one of DONE, ERR and ABORTED is set, and none while BUSY (spec/10_state.md R36,
spec/40_control.md R101, R105). -/
structure EndFlagsOk (s : State) : Prop where
  noneBusy  : s.busy = true → s.flag .done = false ∧ s.flag .err = false ∧ s.flag .aborted = false
  doneErr   : ¬(s.flag .done = true ∧ s.flag .err = true)
  doneAbort : ¬(s.flag .done = true ∧ s.flag .aborted = true)
  errAbort  : ¬(s.flag .err = true ∧ s.flag .aborted = true)

/-- The bits the spec hardwires to 0 read 0: STATUS 31:5, IRQ_EN 31:5 and 0, CPC 4:0, ERR_CODE 31:8;
TW_INDEX is an index of the ROM (spec/10_state.md R36 to R39, R50). -/
structure HardwiredOk (s : State) : Prop where
  status  : s.status &&& 0xFFFFFFE0 = 0
  irqEn   : s.irqEn &&& 0xFFFFFFE1 = 0
  cpc     : s.cpc &&& 0x1F = 0
  errCode : s.errCode &&& 0xFFFFFF00 = 0
  twIndex : s.twIndex.toNat < s.params.nmax / 2

/-- DMEM is in canonical form and lists only offsets that exist (spec/20_memory.md R60). -/
structure MemoryOk (s : State) : Prop where
  sorted : memWf s.mem
  inside : ∀ c ∈ s.mem, c.1 < s.params.dmemSize

/-- The registers of a run: no error recorded while BUSY (R101), an error recorded while ERR is set
(R203), an abort pending only while BUSY (R214), and CMD_COUNT never more than the commands that fit
below CPC, nor in DMEM (R41, R109). -/
structure RunOk (s : State) : Prop where
  clean   : s.busy = true → s.errCode = 0 ∧ s.errInfo = 0
  errCode : s.flag .err = true → s.errCode ≠ 0
  pending : s.abortPending = true → s.busy = true
  below   : s.busy = true → 32 * s.cmdCount.toNat ≤ s.cpc.toNat
  count   : 32 * s.cmdCount.toNat ≤ s.params.dmemSize

/-- The invariant of the engine. -/
structure State.Inv (s : State) : Prop where
  hardwired : HardwiredOk s
  endFlags  : EndFlagsOk s
  memory    : MemoryOk s
  run       : RunOk s

end Sys2Proof.Machine
end

