-- ==== Sys2Proof/Certificates/Slice0/Obligations.lean ====
section
/-! DEFINITION. The statements about the engine, from the numbered rules of spec/. -/

namespace Sys2Proof.Claims

open Sys2Proof.Machine

/-- The state after error entry, written out from R203: ERR_CODE and ERR_INFO written, STATUS.ERR (bit 2)
set, BUSY (bit 0) cleared, no request pending; everything else as it was. -/
def errorEntered (s : State) (code info : Word) : State :=
  { s with errCode := code, errInfo := info, status := (s.status ||| 0x4) &&& 0xFFFFFFFE, abortPending := false }

/-- The state after a data command completed (R103): memory and RESULT as given, CPC + 32, CMD_COUNT + 1;
everything else as it was. -/
def completed (s : State) (mem : List Host.Cell) (result : Word) : State :=
  { s with mem := mem, result := result, cpc := s.cpc + 32, cmdCount := s.cmdCount + 1 }

/-- The state at the end of an aborted run (R214): ABORTED (bit 3) set, BUSY cleared, nothing pending. -/
def abortedFrom (s : State) : State :=
  { s with status := (s.status ||| 0x8) &&& 0xFFFFFFFE, abortPending := false }

/-- Every byte outside `[a, a + n)` reads as before. -/
def SameOutside (mem mem' : List Host.Cell) (a n : Nat) : Prop :=
  ∀ x, x < a ∨ a + n ≤ x → readByte mem' x = readByte mem x

/-- An array of `n` bytes at `b` passes R66. -/
abbrev Fits (s : State) (b n : Nat) : Prop := b % 8 = 0 ∧ b + n ≤ s.params.dmemSize

/-- Two byte ranges do not intersect; an empty range intersects nothing (R67). -/
abbrev Apart (a n b m : Nat) : Prop := n = 0 ∨ m = 0 ∨ a + n ≤ b ∨ b + m ≤ a

/-- n = 2^k for some k >= 0 (R11). -/
def PowerOfTwo (n : Nat) : Prop := ∃ k, n = 2 ^ k

/-- Element j of an array, as a complex value: both parts when the array is complex, else promoted (R14, R68). -/
def element (cplx : Bool) (mem : List Host.Cell) (base j : Nat) : Option C64 :=
  if cplx then rdC mem (base + 16 * j) else (rdF mem (base + 8 * j)).map promote

/-- Bytes of an element (R14). -/
def esize (cplx : Bool) : Nat := if cplx then 16 else 8

/-- The first condition of a list that holds decides the error the command takes (R205, R206). -/
def TakesFirst (out : Result) (s : State) : List (Prop × Word × Word) → Prop
  | [] => True
  | (bad, code, info) :: rest =>
    (bad → out = .next (errorEntered s code info)) ∧ (¬bad → TakesFirst out s rest)

/-- ADDRESS_ERROR of R66 and R202 for the array of descriptor word `w`: misaligned, then out of range. -/
def addressRows (s : State) (w : Word) (b n : Nat) : List (Prop × Word × Word) :=
  [(b % 8 ≠ 0, 0x05, w + 0x100), (b + n > s.params.dmemSize, 0x05, w)]

/-- A command whose encoding exists on this engine (R88 (5)). -/
def Available (hasFast : Bool) : Instr → Prop
  | .convFast _ _ _ _ _ _ _ _ => hasFast = true
  | _ => True

/-- A faithful rounding of the exact real `v` (R19): a finite binary64 with no binary64 strictly between it
and `v`, equal to `v` when `v` is a binary64, and +0.0 when `v = 0`. Values in units of 2^-1074. -/
def IsFaithful (y : F64) (v : ℝ) : Prop :=
  isFinite y = true ∧ (v = 0 → y = posZero) ∧
    ∀ z : F64, isFinite z = true →
      ¬((units y : ℝ) < units z ∧ (units z : ℝ) < v * 2 ^ 1074) ∧
      ¬(v * 2 ^ 1074 < (units z : ℝ) ∧ (units z : ℝ) < units y) ∧
      ((units z : ℝ) = v * 2 ^ 1074 → (units y : ℝ) = v * 2 ^ 1074)

/-- RN of R15: `r` is the binary64 nearest to the exact value `v` (in units of 2^-1074), ties to even, with
overflow to infinity from half a unit in the last place above the largest finite value on. A nonzero `v`
keeps its sign. -/
def IsRN (r : F64) (v : ℚ) : Prop :=
  let bound : ℚ := (2 ^ 54 - 1) * 2 ^ 2044
  (v ≠ 0 → signBit r = decide (v < 0)) ∧
  (bound ≤ |v| → isInf r = true) ∧
  (|v| < bound → isFinite r = true ∧ ∀ z : F64, isFinite z = true →
    |(units r : ℚ) - v| ≤ |(units z : ℚ) - v| ∧
    (|(units z : ℚ) - v| = |(units r : ℚ) - v| → units z ≠ units r → r.toNat % 2 = 0))

/-- +0.0 or -0.0. -/
abbrev IsZero (a : F64) : Prop := a = 0x0000000000000000 ∨ a = 0x8000000000000000

/-- The infinity of a sign. -/
def infinity (neg : Bool) : F64 := if neg then 0xFFF0000000000000 else 0x7FF0000000000000

/-- The zero of a sign. -/
def zero (neg : Bool) : F64 := if neg then 0x8000000000000000 else 0x0000000000000000

/-- Element `k` of the transform of `a 0, ..., a (2^m - 1)` without the inverse scaling, by recursion: a
transform of length 1 is its element; one of length 2^(m+1) combines, with ROM entry j * NMAX / 2^(m+1), element
j of the transforms of the even and of the odd elements (R126, R127). -/
def fftRec (g : Nat) (dir : Dir) : Nat → (Nat → C64) → Nat → C64
  | 0, a, _ => a 0
  | m + 1, a, k =>
    let j := k % 2 ^ m
    let r := j * (2 ^ g / 2 ^ (m + 1))
    let w : C64 :=
      match dir with
      | .fwd => ⟨romCos g r, fneg (romSin g r)⟩
      | .inv => ⟨romCos g r, romSin g r⟩
    let u := fftRec g dir m (fun i => a (2 * i)) j
    let t := cmul w (fftRec g dir m (fun i => a (2 * i + 1)) j)
    if k < 2 ^ m then cadd u t else csub u t

/-- Element `k` of the overlap-add convolution of R187 with FFT length P = 2^p: over the segments of
S = P - M + 1 samples, in ascending order from the complex zero, the element at `k` of the inverse transform of
the product of the zero-padded segment's spectrum with the zero-padded filter's. -/
def fastElement (g p : Nat) (x f : Nat → C64) (N M k : Nat) : C64 :=
  let P := 2 ^ p
  let S := P - M + 1
  let core := fun (dir : Dir) (a : Nat → C64) => fftCore g p dir ((List.range P).map a)
  let H := core .fwd fun j => if j < M then f j else czero
  (List.range ((N + S - 1) / S)).foldl (fun acc b =>
    let X := core .fwd fun n => if n < S ∧ b * S + n < N then x (b * S + n) else czero
    let Y := core .inv fun i => cmul (X.getD i czero) (H.getD i czero)
    if b * S ≤ k ∧ k < b * S + P then cadd acc (Y.getD (k - b * S) czero) else acc) czero

/-- The engine executes one command at CPC next: BUSY, no abort pending, no other turn before it. -/
abbrev Running (s : State) : Prop := s.busy = true ∧ s.abortPending = false ∧ s.turns = []

/-- The sequence of words `w0` to `w7` decodes to `i`, is its encoding, and is what a line of assembler
text assembles to. -/
abbrev EncodesAs (text : String) (i : Instr) (d : Descriptor) : Prop :=
  asmLine text.toList = some (.command i) ∧ encode i = d ∧ decode true d = .ok i

/-- The command whose descriptor stands at CPC, when its bytes have values and are legal. -/
def commandAt (s : State) : Option Instr :=
  (readBytes s.mem s.cpc.toNat 32).bind fun bs => (decodeBytes s.params.hasFastConv bs).toOption

/-- The configuration registers are as they were. -/
abbrev SameConfig (s t : State) : Prop :=
  t.cfgWindow = s.cfgWindow ∧ t.cfgStep = s.cfgStep ∧ t.cfgFirSize = s.cfgFirSize ∧ t.cfgConvFft = s.cfgConvFft ∧
    t.cutoff = s.cutoff ∧ t.fs = s.fs

end Sys2Proof.Claims

open Sys2Proof Sys2Proof.Machine Sys2Proof.Claims

/-! ## Encoding -/

/-- R81, R83 to R87, R89: decoding the encoding of a well-formed command gives it back, every operand and
flag at every value, on words and on the 32 bytes of DMEM. -/
def Obligations.DecodeOfEncodeIsCommand : Prop :=
  ∀ (hasFast : Bool) (i : Instr), i.wellFormed = true → Available hasFast i →
    decode hasFast (encode i) = .ok i ∧ decodeBytes hasFast (bytesOfDescriptor (encode i)) = .ok i

/-- R86, R89: a descriptor that decodes is the encoding of the command it decodes to, which is well formed
and available: no two descriptors mean the same command, and no bit of a legal descriptor is ignored. -/
def Obligations.DecodedDescriptorIsEncoding : Prop :=
  ∀ (hasFast : Bool) (d : Descriptor) (i : Instr), decode hasFast d = .ok i →
    encode i = d ∧ i.wellFormed = true ∧ Available hasFast i

/-- R93: the encoding examples, from the assembler text to the words and back. -/
def Obligations.EncodingExamplesHold : Prop :=
  EncodesAs "end" .endList { w0 := 0x00000001 } ∧
  EncodesAs "setcfg cutoff, 1000" (.setcfg .cutoff 0x00000000 0x408F4000)
    { w0 := 0x00000003, w1 := 0x00000004, w2 := 0x00000000, w3 := 0x408F4000 } ∧
  EncodesAs "setcfg fs, 16000" (.setcfg .fs 0x00000000 0x40CF4000)
    { w0 := 0x00000003, w1 := 0x00000005, w2 := 0x00000000, w3 := 0x40CF4000 } ∧
  EncodesAs "stft 0x40000, 0x1000, 32000" (.stft 0x40000 0x1000 32000)
    { w0 := 0x00000010, w1 := 0x00040000, w2 := 0x00001000, w3 := 0x00007D00 } ∧
  EncodesAs "hpf 0x130000" (.firgenHp 0x130000) { w0 := 0x00000120, w1 := 0x00130000 } ∧
  EncodesAs "conv.xc.re 0x100, 0x200, 3, 0x300, 2" (.conv true false true 0x100 0x200 3 0x300 2)
    { w0 := 0x00000A30, w1 := 0x00000100, w2 := 0x00000200, w3 := 0x00000003, w4 := 0x00000300, w5 := 0x00000002 }

/-- R88 (1), (2), (4), (5), on the bit fields of w0 as numbers: an undefined opcode; then w0[31:16] or a reserved
FLAGS bit; then a bad SETCFG index and CONV.FAST where it is absent, both after the reserved words. The
reserved words (3) are the statement after this one. -/
def Obligations.IllegalHeadersRejectedInOrder : Prop :=
  ∀ (hasFast : Bool) (d : Descriptor),
    let opc := d.w0.toNat % 256
    let flags := d.w0.toNat / 256 % 256
    let known := opc = 0x01 ∨ opc = 0x02 ∨ opc = 0x03 ∨ opc = 0x10 ∨ opc = 0x11 ∨ opc = 0x12 ∨ opc = 0x13 ∨
      opc = 0x20 ∨ opc = 0x30
    let reservedSet := d.w0.toNat / 65536 ≠ 0 ∨
      (if opc = 0x12 ∨ opc = 0x13 ∨ opc = 0x20 then 1 < flags
        else if opc = 0x30 then 15 < flags else flags ≠ 0)
    (¬known → decode hasFast d = .error .badOpcode) ∧
    (known → reservedSet → decode hasFast d = .error .reservedHeader) ∧
    (known → ¬reservedSet → firstNonzero d.reserved = none →
      (opc = 0x03 → 6 ≤ d.w1.toNat → decode hasFast d = .error .badIndex) ∧
      (opc = 0x30 → flags % 2 = 1 → hasFast = false → decode hasFast d = .error .noFast) ∧
      (¬(opc = 0x03 ∧ 6 ≤ d.w1.toNat) → ¬(opc = 0x30 ∧ flags % 2 = 1 ∧ hasFast = false) →
        ∃ i, decode hasFast d = .ok i))

/-- R88 (3), R83, R87: with a legal header, a nonzero reserved operand word is reported, the lowest such word
first. The words a format reserves: END, NOP w1 to w7; FIRGEN w2 to w7; STFT, FFT, IFFT w4 to w7; ISTFT, CONV
w6, w7; SETCFG w4 to w7, and w3 for INDEX 0 to 3. -/
def Obligations.ReservedWordsRejectedLowestFirst : Prop :=
  ∀ (hasFast : Bool) (d : Descriptor) (k : Nat),
    let word : Nat → Word := fun j =>
      if j = 1 then d.w1 else if j = 2 then d.w2 else if j = 3 then d.w3 else if j = 4 then d.w4
        else if j = 5 then d.w5 else if j = 6 then d.w6 else d.w7
    let firstReserved : Option Nat :=
      if d.w0 = 0x01 ∨ d.w0 = 0x02 then some 1
      else if d.w0 = 0x20 ∨ d.w0 = 0x120 then some 2
      else if d.w0 = 0x03 ∧ d.w1.toNat ≤ 3 then some 3
      else if d.w0 = 0x03 ∨ d.w0 = 0x10 ∨ d.w0 &&& 0xFFFFFEFF = 0x12 ∨ d.w0 &&& 0xFFFFFEFF = 0x13 then some 4
      else if d.w0 = 0x11 ∨ d.w0 &&& 0xFFFFF0FF = 0x30 then some 6
      else none
    ∀ r, firstReserved = some r → r ≤ k → k ≤ 7 → word k ≠ 0 → (∀ j, r ≤ j → j < k → word j = 0) →
      decode hasFast d = .error (.reservedWord k)

/-! ## The sequencer -/

/-- R100: when the bytes at CPC decode to a command, a step of a running engine is that command's meaning. -/
def Obligations.StepRunsDecodedCommand : Prop :=
  ∀ (s : State) (bs : List Byte) (i : Instr), Running s → s.cpc.toNat + 32 ≤ s.params.dmemSize →
    readBytes s.mem s.cpc.toNat 32 = some bs → decodeBytes s.params.hasFastConv bs = .ok i →
    step s = exec i s

/-- R80, R100, R102: a command whose 32 encoded bytes stand at CPC is the one a running engine executes. -/
def Obligations.CommandInMemoryRuns : Prop :=
  ∀ (s : State) (i : Instr), Running s → i.wellFormed = true → Available s.params.hasFastConv i →
    s.cpc.toNat + 32 ≤ s.params.dmemSize →
    (∀ k, k < 32 → readByte s.mem (s.cpc.toNat + k) = (bytesOfDescriptor (encode i))[k]?) → step s = exec i s

/-- R102, R202: a fetch at cpc + 32 > DMEM_SIZE takes FETCH_ERROR with ERR_INFO 0, CPC unchanged. -/
def Obligations.FetchBeyondDmemTakesFetchError : Prop :=
  ∀ s : State, Running s → s.params.dmemSize < s.cpc.toNat + 32 → step s = .next (errorEntered s 0x06 0)

/-- R200, R202: an illegal descriptor takes ILLEGAL_CMD with its reason, before any effect. -/
def Obligations.IllegalDescriptorTakesIllegalCmd : Prop :=
  ∀ (s : State) (bs : List Byte) (e : Illegal), Running s → s.cpc.toNat + 32 ≤ s.params.dmemSize →
    readBytes s.mem s.cpc.toNat 32 = some bs → decodeBytes s.params.hasFastConv bs = .error e →
    ∃ info : Word, step s = .next (errorEntered s 0x01 info) ∧
      match e with
      | .badOpcode => info = 1
      | .reservedHeader => info = 2
      | .reservedWord k => info = BitVec.ofNat 32 (256 * k + 3)
      | .badIndex => info = 4
      | .noFast => info = 5
      | .truncated => True

/-- The model's choice of log 6, after R79: a fetch of a byte that nothing has written faults. -/
def Obligations.FetchOfUnwrittenByteFaults : Prop :=
  ∀ (s : State) (k : Nat), Running s → s.cpc.toNat + 32 ≤ s.params.dmemSize → k < 32 →
    readByte s.mem (s.cpc.toNat + k) = none → step s = .fault .unwrittenByte

/-- R203, R204: a command that answers a next state either takes an error with no other effect, or completes:
CPC + 32, CMD_COUNT + 1, and no error recorded. -/
def Obligations.CommandsFailPreciselyOrComplete : Prop :=
  ∀ (i : Instr) (s t : State), exec i s = .next t →
    (∃ code info, 0x01 ≤ code ∧ code ≤ 0x07 ∧ t = errorEntered s code info) ∨
    (t.cpc = s.cpc + 32 ∧ t.cmdCount = s.cmdCount + 1 ∧ t.errCode = s.errCode ∧ t.errInfo = s.errInfo ∧
      t.flag .err = s.flag .err ∧ t.flag .aborted = s.flag .aborted ∧ t.flag .hostViol = s.flag .hostViol ∧
      t.irqEn = s.irqEn ∧ t.twIndex = s.twIndex ∧ t.params = s.params)

/-- R201, R207, and the model's choice of log 6 after R79: no command is refused, and a command stops only when a
byte of one of its source arrays has never been written. -/
def Obligations.CommandsStopOnlyOnUnwrittenSources : Prop :=
  ∀ (i : Instr) (s : State), (∃ t, exec i s = .next t) ∨
    (exec i s = .fault .unwrittenByte ∧ ∃ j src a, jobOf i s = some j ∧ src ∈ j.srcs ∧
      src.base ≤ a ∧ a < src.base + src.bytes ∧ readByte s.mem a = none)

/-- R57: of all commands only SETCFG writes configuration registers, and only the one it names. -/
def Obligations.OnlySetcfgWritesConfiguration : Prop :=
  ∀ (i : Instr) (s t : State), exec i s = .next t →
    SameConfig s t ∨
    ∃ r lo hi, i = .setcfg r lo hi ∧
      (r ≠ .window → t.cfgWindow = s.cfgWindow) ∧ (r ≠ .step → t.cfgStep = s.cfgStep) ∧
      (r ≠ .firSize → t.cfgFirSize = s.cfgFirSize) ∧ (r ≠ .convFft → t.cfgConvFft = s.cfgConvFft) ∧
      (r ≠ .cutoff → t.cutoff = s.cutoff) ∧ (r ≠ .fs → t.fs = s.fs)

/-! ## END, NOP, SETCFG -/

/-- R106, R103: END completes, sets DONE (bit 1) and clears BUSY; nothing else changes. -/
def Obligations.EndCompletesTheRun : Prop :=
  ∀ s : State, exec .endList s = .next { s with
    cmdCount := s.cmdCount + 1, cpc := s.cpc + 32,
    status := (s.status ||| 0x2) &&& 0xFFFFFFFE, abortPending := false }

/-- R107, R103: NOP completes; nothing else changes. -/
def Obligations.NopCompletesOnly : Prop :=
  ∀ s : State, exec .nop s = .next { s with cmdCount := s.cmdCount + 1, cpc := s.cpc + 32 }

/-- R108: SETCFG stores its value in the register it names and completes; nothing else changes. -/
def Obligations.SetcfgCompletesWithItsWrite : Prop :=
  ∀ (r : CfgReg) (lo hi : Word) (s : State), ∃ t, exec (.setcfg r lo hi) s = .next t ∧
    match r with
    | .window => t = completed { s with cfgWindow := lo } s.mem s.result
    | .step => t = completed { s with cfgStep := lo } s.mem s.result
    | .firSize => t = completed { s with cfgFirSize := lo } s.mem s.result
    | .convFft => t = completed { s with cfgConvFft := lo } s.mem s.result
    | .cutoff => t = completed { s with cfgCutoffLo := lo, cfgCutoffHi := hi } s.mem s.result
    | .fs => t = completed { s with cfgFsLo := lo, cfgFsHi := hi } s.mem s.result

/-! ## The transforms -/

/-- R140: FFT completes, writing the FFT core's spectrum of its source to DST and LEN to RESULT, and nothing else. -/
def Obligations.FftCompletes : Prop :=
  ∀ (s : State) (c : Bool) (dst src len : Word) (m : Nat) (z : Nat → C64),
    len.toNat = 2 ^ m → 2 ^ m ≤ s.params.nmax →
    Fits s dst.toNat (16 * 2 ^ m) → Fits s src.toNat (esize c * 2 ^ m) →
    Apart dst.toNat (16 * 2 ^ m) src.toNat (esize c * 2 ^ m) →
    (∀ k, k < 2 ^ m → element c s.mem src.toNat k = some (z k)) →
    ∃ mem', exec (.fft c dst src len) s = .next (completed s mem' len) ∧
      (∀ k, k < 2 ^ m → rdC mem' (dst.toNat + 16 * k) =
        (fftCore s.params.log2Nmax m .fwd ((List.range (2 ^ m)).map z))[k]?) ∧
      SameOutside s.mem mem' dst.toNat (16 * 2 ^ m)

/-- R142: IFFT completes, writing both parts, or with OUT_RE the real parts, of the inverse transform. -/
def Obligations.IfftCompletes : Prop :=
  ∀ (s : State) (re : Bool) (dst src len : Word) (m : Nat) (z : Nat → C64),
    len.toNat = 2 ^ m → 2 ^ m ≤ s.params.nmax →
    Fits s dst.toNat (esize (!re) * 2 ^ m) → Fits s src.toNat (16 * 2 ^ m) →
    Apart dst.toNat (esize (!re) * 2 ^ m) src.toNat (16 * 2 ^ m) →
    (∀ k, k < 2 ^ m → rdC s.mem (src.toNat + 16 * k) = some (z k)) →
    ∃ mem', exec (.ifft re dst src len) s = .next (completed s mem' len) ∧
      (∀ k, k < 2 ^ m →
        let y := (fftCore s.params.log2Nmax m .inv ((List.range (2 ^ m)).map z))[k]?
        if re then rdF mem' (dst.toNat + 8 * k) = y.map C64.re else rdC mem' (dst.toNat + 16 * k) = y) ∧
      SameOutside s.mem mem' dst.toNat (esize (!re) * 2 ^ m)

/-- R148, R122: STFT completes, writing the spectrum of each windowed frame, frame-major, and F to RESULT; it
reads only the samples of its F = (LEN - N) // step frames. -/
def Obligations.StftCompletes : Prop :=
  ∀ (s : State) (dst src len : Word) (m F : Nat) (x : Nat → F64),
    s.cfgWindow.toNat = 2 ^ m → 1 ≤ m → 2 ^ m ≤ s.params.nmax → 1 ≤ s.cfgStep.toNat → 2 ^ m ≤ len.toNat →
    F = (len.toNat - 2 ^ m) / s.cfgStep.toNat →
    Fits s dst.toNat (16 * (F * 2 ^ m)) → Fits s src.toNat (8 * len.toNat) →
    Apart dst.toNat (16 * (F * 2 ^ m)) src.toNat (8 * len.toNat) →
    (∀ i n, i < F → n < 2 ^ m →
      rdF s.mem (src.toNat + 8 * (i * s.cfgStep.toNat + n)) = some (x (i * s.cfgStep.toNat + n))) →
    ∃ mem', exec (.stft dst src len) s = .next (completed s mem' (BitVec.ofNat 32 F)) ∧
      (∀ i k, i < F → k < 2 ^ m → rdC mem' (dst.toNat + 16 * (i * 2 ^ m + k)) =
        (fftCore s.params.log2Nmax m .fwd ((List.range (2 ^ m)).map fun n =>
          promote (fmul (x (i * s.cfgStep.toNat + n)) (hamW n (2 ^ m)))))[k]?) ∧
      SameOutside s.mem mem' dst.toNat (16 * (F * 2 ^ m))

/-- R151: ISTFT completes; output element p is the sum, from +0.0 and in ascending frame order, of the real parts
of the inverse transforms of the frames that cover p. -/
def Obligations.IstftCompletes : Prop :=
  ∀ (s : State) (dst src frames bins outlen : Word) (m : Nat) (z : Nat → C64),
    s.cfgWindow.toNat = 2 ^ m → 1 ≤ m → 2 ^ m ≤ s.params.nmax → 1 ≤ s.cfgStep.toNat → bins.toNat = 2 ^ m →
    (frames.toNat = 0 ∨ (frames.toNat - 1) * s.cfgStep.toNat + 2 ^ m ≤ outlen.toNat) →
    Fits s dst.toNat (8 * outlen.toNat) → Fits s src.toNat (16 * (frames.toNat * 2 ^ m)) →
    Apart dst.toNat (8 * outlen.toNat) src.toNat (16 * (frames.toNat * 2 ^ m)) →
    (∀ k, k < frames.toNat * 2 ^ m → rdC s.mem (src.toNat + 16 * k) = some (z k)) →
    ∃ mem', exec (.istft dst src frames bins outlen) s = .next (completed s mem' outlen) ∧
      (∀ p, p < outlen.toNat → rdF mem' (dst.toNat + 8 * p) =
        some ((List.range frames.toNat).foldl (fun acc i =>
          if i * s.cfgStep.toNat ≤ p ∧ p < i * s.cfgStep.toNat + 2 ^ m then
            fadd acc ((fftCore s.params.log2Nmax m .inv
              ((List.range (2 ^ m)).map fun k => z (i * 2 ^ m + k))).getD (p - i * s.cfgStep.toNat) czero).re
          else acc) posZero)) ∧
      SameOutside s.mem mem' dst.toNat (8 * outlen.toNat)

/-- R140, R142, R202, R206: the error FFT and IFFT take is the first of LEN, DST, SRC, overlap. -/
def Obligations.FftErrorsInOrder : Prop :=
  ∀ (s : State) (dst src len : Word),
    let n := len.toNat
    let rows := fun dbytes sbytes =>
      (¬(PowerOfTwo n ∧ n ≤ s.params.nmax), (0x02 : Word), (5 : Word)) ::
        addressRows s 1 dst.toNat dbytes ++ addressRows s 2 src.toNat sbytes ++
        [(¬Apart dst.toNat dbytes src.toNat sbytes, 0x07, 0x201)]
    (∀ c, TakesFirst (exec (.fft c dst src len) s) s (rows (16 * n) (esize c * n))) ∧
    (∀ re, TakesFirst (exec (.ifft re dst src len) s) s (rows (esize (!re) * n) (16 * n)))

/-- R147, R148, R202, R206: the error STFT takes is the first of window, step, LEN, DST, SRC, overlap. -/
def Obligations.StftErrorsInOrder : Prop :=
  ∀ (s : State) (dst src len : Word),
    let n := s.cfgWindow.toNat
    let step := s.cfgStep.toNat
    let dbytes := 16 * ((len.toNat - n) / step * n)
    TakesFirst (exec (.stft dst src len) s) s
      ([(¬(PowerOfTwo n ∧ 2 ≤ n ∧ n ≤ s.params.nmax), 0x02, 1), (step = 0, 0x02, 2), (len.toNat < n, 0x02, 3)] ++
        addressRows s 1 dst.toNat dbytes ++ addressRows s 2 src.toNat (8 * len.toNat) ++
        [(¬Apart dst.toNat dbytes src.toNat (8 * len.toNat), 0x07, 0x201)])

/-- R147, R151, R202, R206: the error ISTFT takes is the first of window, step, bins, overrun, DST, SRC, overlap. -/
def Obligations.IstftErrorsInOrder : Prop :=
  ∀ (s : State) (dst src frames bins outlen : Word),
    let n := s.cfgWindow.toNat
    let step := s.cfgStep.toNat
    let sbytes := 16 * (frames.toNat * bins.toNat)
    TakesFirst (exec (.istft dst src frames bins outlen) s) s
      ([(¬(PowerOfTwo n ∧ 2 ≤ n ∧ n ≤ s.params.nmax), 0x02, 1), (step = 0, 0x02, 2), (bins.toNat ≠ n, 0x04, 1),
        (1 ≤ frames.toNat ∧ outlen.toNat < (frames.toNat - 1) * step + n, 0x02, 6)] ++
        addressRows s 1 dst.toNat (8 * outlen.toNat) ++ addressRows s 2 src.toNat sbytes ++
        [(¬Apart dst.toNat (8 * outlen.toNat) src.toNat sbytes, 0x07, 0x201)])

/-- R131: within one stage of the FFT core the butterflies may run in any order: every permutation of them gives
the same values. -/
def Obligations.FftStageOrderIrrelevant : Prop :=
  ∀ (g L st : Nat) (dir : Dir) (A : List C64) (ps : List (Nat × Nat)), 1 ≤ st → ps.Perm (stagePairs L st) →
    ps.foldl (stageButterfly g dir st) A = fftStage g dir L st A

/-- R126 to R128: for every length 2^m from 1 to NMAX = 2^g, g at most 16 (R6), the in-place iterative FFT core
equals the recursive one, forward and, with every output multiplied by 2^-m, inverse. -/
def Obligations.FftCoreSplitsIntoEvenAndOdd : Prop :=
  ∀ (g m k : Nat) (a : List C64), g ≤ 16 → m ≤ g → a.length = 2 ^ m → k < 2 ^ m →
    let twoToMinusM : F64 := BitVec.ofNat 64 ((1023 - m) * 2 ^ 52)
    (fftCore g m .fwd a)[k]? = some (fftRec g .fwd m (a.getD · czero) k) ∧
    (fftCore g m .inv a)[k]? = some (cscale (fftRec g .inv m (a.getD · czero) k) twoToMinusM)

/-- R120: the Hamming coefficient for every n of every length N >= 2. R121: its ends are 0x3FB47AE147AE147C, and
where the cosine is exactly -1/2, at n/(N - 1) = 1/3 and 2/3, it is 0x3FE8A3D70A3D70A4, whatever TRIG is. -/
def Obligations.HammingWindowFixedValues : Prop :=
  ∀ n N : Nat, 2 ≤ N → n < N →
    hamW n N = fsub 0x3FE147AE147AE148 (fmul 0x3FDD70A3D70A3D71 (cos2pi ((n : ℚ) / ((N : ℚ) - 1)))) ∧
    (n = 0 ∨ n = N - 1 → hamW n N = 0x3FB47AE147AE147C) ∧
    (3 * n = N - 1 ∨ 3 * n = 2 * (N - 1) → hamW n N = 0x3FE8A3D70A3D70A4)

/-- R21: ROM entry 0 is (1.0, +0.0) and entry NMAX/4 is (+0.0, 1.0), for every NMAX. -/
def Obligations.TwiddleRomFixedEntries : Prop :=
  ∀ g, 2 ≤ g → romCos g 0 = 0x3FF0000000000000 ∧ romSin g 0 = 0 ∧
    romCos g (2 ^ (g - 2)) = 0 ∧ romSin g (2 ^ (g - 2)) = 0x3FF0000000000000

/-- R19, R20: Cos2pi and Sin2pi are faithful roundings of the cosine and the sine at every rational, whatever the
free choices are. R21: so are the twiddle ROM's entries for every NMAX = 2^g. -/
def Obligations.TrigIsFaithful : Prop :=
  (∀ x : ℚ, IsFaithful (cos2pi x) (Real.cos (2 * Real.pi * x)) ∧ IsFaithful (sin2pi x) (Real.sin (2 * Real.pi * x))) ∧
  ∀ g r : Nat,
    IsFaithful (romCos g r) (Real.cos (2 * Real.pi * r / 2 ^ g)) ∧
    IsFaithful (romSin g r) (Real.sin (2 * Real.pi * r / 2 ^ g))

/-! ## The FIR generator -/

/-- R163 to R167: FIRGEN.LP and FIRGEN.HP complete under R161 and R162, writing element j as
mul(K(j - M/2), HamW(j, M)) and M to RESULT. -/
def Obligations.FirgenCompletes : Prop :=
  ∀ (s : State) (hp : Bool) (dst : Word),
    let M := s.cfgFirSize.toNat
    M % 2 = 0 → 2 ≤ M → isFinite s.cutoff = true → isFinite s.fs = true →
    0 < units s.cutoff → 2 * units s.cutoff < units s.fs → Fits s dst.toNat (8 * M) →
    ∃ mem', exec (if hp then .firgenHp dst else .firgenLp dst) s = .next (completed s mem' s.cfgFirSize) ∧
      (∀ j, j < M →
        let n : Int := j - (M / 2 : Nat)
        let lp := if n = 0 then fdiv (fmul f64Two s.cutoff) s.fs
          else fdiv (sin2pi (mkRat (units s.cutoff * n) (units s.fs).toNat)) (fmul pi64 (f64OfInt n))
        let k := if hp then fsub (if n = 0 then f64One else posZero) lp else lp
        rdF mem' (dst.toNat + 8 * j) = some (fmul k (hamW j M))) ∧
      SameOutside s.mem mem' dst.toNat (8 * M)

/-- R161, R162, R166, R169, R202, R206: the error FIRGEN takes is the first of size, not finite, not positive,
not below half the rate, DST. -/
def Obligations.FirgenErrorsInOrder : Prop :=
  ∀ (s : State) (hp : Bool) (dst : Word),
    let M := s.cfgFirSize.toNat
    TakesFirst (exec (if hp then .firgenHp dst else .firgenLp dst) s) s
      ([(M % 2 = 1 ∨ M = 0, 0x02, 4), (isFinite s.cutoff = false ∨ isFinite s.fs = false, 0x03, 1),
        (units s.cutoff ≤ 0, 0x03, 2), (units s.fs ≤ 2 * units s.cutoff, 0x03, 3)] ++
        addressRows s 1 dst.toNat (8 * M))

/-- R163: LPC depends on fc and fs only through their exact ratio. -/
def Obligations.LowPassDependsOnRatioOnly : Prop :=
  ∀ (fc fs fc' fs' : F64) (n : Int),
    isFinite fc = true → isFinite fs = true → isFinite fc' = true → isFinite fs' = true →
    0 < units fc → 0 < units fc' → 2 * units fc < units fs → 2 * units fc' < units fs' →
    units fc * units fs' = units fc' * units fs → lpc fc fs n = lpc fc' fs' n

/-- R168: away from the centre the windowed low-pass and high-pass elements add up to a zero. -/
def Obligations.KernelsCancelOffCentre : Prop :=
  ∀ (fc fs w : F64) (n : Int), n ≠ 0 → isFinite (fmul (lpc fc fs n) w) = true →
    fadd (fmul (lpc fc fs n) w) (fmul (hpc fc fs n) w) = posZero ∨
    fadd (fmul (lpc fc fs n) w) (fmul (hpc fc fs n) w) = negZero

/-! ## Convolution -/

/-- R185, R181: CONV completes in the real domain, with or without OUT_RE. -/
def Obligations.ConvRealCompletes : Prop :=
  ∀ (s : State) (re : Bool) (dst x n f m : Word) (xs fs : Nat → F64),
    let L := n.toNat + m.toNat - 1
    1 ≤ n.toNat → 1 ≤ m.toNat → Fits s dst.toNat (8 * L) → Fits s x.toNat (8 * n.toNat) →
    Fits s f.toNat (8 * m.toNat) → Apart dst.toNat (8 * L) x.toNat (8 * n.toNat) →
    Apart dst.toNat (8 * L) f.toNat (8 * m.toNat) →
    (∀ i, i < n.toNat → rdF s.mem (x.toNat + 8 * i) = some (xs i)) →
    (∀ j, j < m.toNat → rdF s.mem (f.toNat + 8 * j) = some (fs j)) →
    ∃ mem', exec (.conv false false re dst x n f m) s = .next (completed s mem' (BitVec.ofNat 32 L)) ∧
      (∀ k, k < L → rdF mem' (dst.toNat + 8 * k) =
        (convReal ((List.range n.toNat).map xs) ((List.range m.toNat).map fs))[k]?) ∧
      SameOutside s.mem mem' dst.toNat (8 * L)

/-- R185, R181, R182: CONV completes in the complex domain, a real operand promoted, OUT_RE writing real parts. -/
def Obligations.ConvComplexCompletes : Prop :=
  ∀ (s : State) (xc fc re : Bool) (dst x n f m : Word) (xs fs : Nat → C64),
    let L := n.toNat + m.toNat - 1
    (xc || fc) = true → 1 ≤ n.toNat → 1 ≤ m.toNat → Fits s dst.toNat (esize (!re) * L) →
    Fits s x.toNat (esize xc * n.toNat) → Fits s f.toNat (esize fc * m.toNat) →
    Apart dst.toNat (esize (!re) * L) x.toNat (esize xc * n.toNat) →
    Apart dst.toNat (esize (!re) * L) f.toNat (esize fc * m.toNat) →
    (∀ i, i < n.toNat → element xc s.mem x.toNat i = some (xs i)) →
    (∀ j, j < m.toNat → element fc s.mem f.toNat j = some (fs j)) →
    ∃ mem', exec (.conv xc fc re dst x n f m) s = .next (completed s mem' (BitVec.ofNat 32 L)) ∧
      (∀ k, k < L →
        let y := (convComplex ((List.range n.toNat).map xs) ((List.range m.toNat).map fs))[k]?
        if re then rdF mem' (dst.toNat + 8 * k) = y.map C64.re else rdC mem' (dst.toNat + 16 * k) = y) ∧
      SameOutside s.mem mem' dst.toNat (esize (!re) * L)

/-- R187, R184: CONV.FAST completes where HAS_FAST_CONV = 1, writing the overlap-add of the segments; in the real
domain it writes real parts. -/
def Obligations.ConvFastCompletes : Prop :=
  ∀ (s : State) (xc fc re : Bool) (dst x n f m : Word) (p : Nat) (xs fs : Nat → C64),
    let L := n.toNat + m.toNat - 1
    let dc := (xc || fc) && !re
    s.params.hasFastConv = true → 1 ≤ n.toNat → 1 ≤ m.toNat → s.cfgConvFft.toNat = 2 ^ p → 1 ≤ p →
    2 ^ p ≤ s.params.nmax → m.toNat ≤ 2 ^ p → Fits s dst.toNat (esize dc * L) →
    Fits s x.toNat (esize xc * n.toNat) → Fits s f.toNat (esize fc * m.toNat) →
    Apart dst.toNat (esize dc * L) x.toNat (esize xc * n.toNat) →
    Apart dst.toNat (esize dc * L) f.toNat (esize fc * m.toNat) →
    (∀ i, i < n.toNat → element xc s.mem x.toNat i = some (xs i)) →
    (∀ j, j < m.toNat → element fc s.mem f.toNat j = some (fs j)) →
    ∃ mem', exec (.convFast xc fc re dst x n f m) s = .next (completed s mem' (BitVec.ofNat 32 L)) ∧
      (∀ k, k < L →
        let y := fastElement s.params.log2Nmax p xs fs n.toNat m.toNat k
        if dc then rdC mem' (dst.toNat + 16 * k) = some y else rdF mem' (dst.toNat + 8 * k) = some y.re) ∧
      SameOutside s.mem mem' dst.toNat (esize dc * L)

/-- R183, R184, R189, R202, R206: the error CONV and CONV.FAST take is the first of N, M, (P, M <= P,) DST, X, F,
overlap with X, overlap with F; CONV.FAST without HAS_FAST_CONV is illegal first of all. -/
def Obligations.ConvErrorsInOrder : Prop :=
  ∀ (s : State) (xc fc re : Bool) (dst x n f m : Word),
    let P := s.cfgConvFft.toNat
    let dbytes := esize ((xc || fc) && !re) * (n.toNat + m.toNat - 1)
    let xbytes := esize xc * n.toNat
    let fbytes := esize fc * m.toNat
    let size : List (Prop × Word × Word) := [(n.toNat = 0, 0x02, 7), (m.toNat = 0, 0x02, 8)]
    let arrays := addressRows s 1 dst.toNat dbytes ++ addressRows s 2 x.toNat xbytes ++ addressRows s 4 f.toNat fbytes ++
      [(¬Apart dst.toNat dbytes x.toNat xbytes, 0x07, 0x201), (¬Apart dst.toNat dbytes f.toNat fbytes, 0x07, 0x401)]
    TakesFirst (exec (.conv xc fc re dst x n f m) s) s (size ++ arrays) ∧
    TakesFirst (exec (.convFast xc fc re dst x n f m) s) s
      ((s.params.hasFastConv = false, 0x01, 5) :: size ++
        [(¬(PowerOfTwo P ∧ 2 ≤ P ∧ P ≤ s.params.nmax), 0x02, 9), (P < m.toNat, 0x02, 10)] ++ arrays)

/-- R185: element k of a direct convolution is the sum from zero, in ascending i, of the products
x[i] * f[k - i] with max(0, k - M + 1) <= i <= min(k, N - 1), in the real and in the complex domain. -/
def Obligations.ConvElementIsAscendingSum : Prop :=
  (∀ (xs fs : List F64) (k : Nat), k < xs.length + fs.length - 1 →
    (convReal xs fs)[k]? = some ((List.range xs.length).foldl (fun acc i =>
      if i ≤ k ∧ k < i + fs.length then fadd acc (fmul (xs.getD i posZero) (fs.getD (k - i) posZero)) else acc)
      posZero)) ∧
  (∀ (xs fs : List C64) (k : Nat), k < xs.length + fs.length - 1 →
    (convComplex xs fs)[k]? = some ((List.range xs.length).foldl (fun acc i =>
      if i ≤ k ∧ k < i + fs.length then cadd acc (cmul (xs.getD i czero) (fs.getD (k - i) czero)) else acc)
      czero))

/-! ## Arithmetic -/

/-- R15: add, sub, mul and div of finite operands are RN of the exact sum, difference, product and quotient, and
the sign of an exact zero result is the one of IEEE 754 (log 17). RN itself, for a ratio of naturals: no finite
binary64 magnitude is nearer than the rounded one, where another is equally near the rounded one is even, and it is
infinity from half a unit in the last place above the largest finite value on. -/
def Obligations.RoundingIsNearestEven : Prop :=
  (∀ a b : F64, isFinite a = true → isFinite b = true →
    IsRN (fadd a b) (units a + units b) ∧
    IsRN (fsub a b) (units a - units b) ∧
    IsRN (fmul a b) (units a * units b / 2 ^ 1074) ∧
    (units b ≠ 0 → IsRN (fdiv a b) (units a * 2 ^ 1074 / units b)) ∧
    (units a + units b = 0 → fadd a b = zero (signBit a && signBit b)) ∧
    (units a = units b → fsub a b = zero (signBit a && !signBit b)) ∧
    (units a = 0 ∨ units b = 0 → fmul a b = zero (signBit a != signBit b)) ∧
    (units a = 0 → units b ≠ 0 → fdiv a b = zero (signBit a != signBit b))) ∧
  ∀ n d y : Nat, 0 < d → y < infMag →
    let value := fun m : Nat => units (ofSignMag false m)
    let err := fun m : Nat => (value m * d - n).natAbs
    (roundMag n d = infMag ↔ (2 ^ 54 - 1) * 2 ^ 2044 * d ≤ n) ∧ roundMag n d ≤ infMag ∧
    (roundMag n d < infMag →
      err (roundMag n d) ≤ err y ∧ (err y = err (roundMag n d) → y ≠ roundMag n d → roundMag n d % 2 = 0))

/-- R15 (b), (c): a NaN result of add, sub, mul or div is CNAN; when it is one; the results with an infinite operand
and of a division by zero; and neg. The IEEE 754 results that R15 does not repeat are PRESUMED (log 17). -/
def Obligations.NanResultsAreCanonical : Prop :=
  ∀ a b : F64,
    let sign := signBit a != signBit b
    let anyNaN := isNaN a = true ∨ isNaN b = true
    (∀ r ∈ [fadd a b, fsub a b, fmul a b, fdiv a b], isNaN r = true → r = 0x7FF8000000000000) ∧
    (isNaN (fadd a b) = true ↔ anyNaN ∨ (isInf a = true ∧ isInf b = true ∧ signBit a ≠ signBit b)) ∧
    (isNaN (fsub a b) = true ↔ anyNaN ∨ (isInf a = true ∧ isInf b = true ∧ signBit a = signBit b)) ∧
    (isNaN (fmul a b) = true ↔ anyNaN ∨ (isInf a = true ∧ IsZero b) ∨ (IsZero a ∧ isInf b = true)) ∧
    (isNaN (fdiv a b) = true ↔ anyNaN ∨ (isInf a = true ∧ isInf b = true) ∨ (IsZero a ∧ IsZero b)) ∧
    (isInf a = true → isFinite b = true → fadd a b = a ∧ fadd b a = a ∧ fsub a b = a ∧ fsub b a = fneg a) ∧
    (isInf a = true → isInf b = true → (fadd a b = if signBit a = signBit b then a else 0x7FF8000000000000) ∧
      (fsub a b = if signBit a = signBit b then 0x7FF8000000000000 else a) ∧ fmul a b = infinity sign) ∧
    (isInf a = true → isFinite b = true → ¬IsZero b → fmul a b = infinity sign ∧ fmul b a = infinity sign) ∧
    (isInf a = true → isFinite b = true → fdiv a b = infinity sign ∧ fdiv b a = zero sign) ∧
    (isFinite a = true → ¬IsZero a → IsZero b → fdiv a b = infinity sign) ∧
    (isNaN a = true → fneg a = 0x7FF8000000000000) ∧
    (isNaN a = false → signBit (fneg a) = !signBit a ∧ ∀ k, k < 63 → (fneg a).getLsbD k = a.getLsbD k)

/-- R16: the complex operations, part by part and each product rounded; add and mul are commutative bit for bit,
and so complex multiplication is. -/
def Obligations.ComplexMultiplicationCommutes : Prop :=
  (∀ a b c d s : F64,
    cadd ⟨a, b⟩ ⟨c, d⟩ = ⟨fadd a c, fadd b d⟩ ∧ csub ⟨a, b⟩ ⟨c, d⟩ = ⟨fsub a c, fsub b d⟩ ∧
    cmul ⟨a, b⟩ ⟨c, d⟩ = ⟨fsub (fmul a c) (fmul b d), fadd (fmul a d) (fmul b c)⟩ ∧
    cscale ⟨a, b⟩ s = ⟨fmul a s, fmul b s⟩ ∧ fadd a b = fadd b a ∧ fmul a b = fmul b a) ∧
  ∀ z w : C64, cmul z w = cmul w z

/-- R15: f64(n) is exact for |n| <= 2^53; f64(0) is +0.0 (log 17). -/
def Obligations.SmallIntegersConvertExactly : Prop :=
  ∀ n : Int, n.natAbs ≤ 2 ^ 53 → isFinite (f64OfInt n) = true ∧ units (f64OfInt n) = n * 2 ^ 1074 ∧
    (n = 0 → f64OfInt n = 0)

/-! ## Memory -/

/-- R61: MemRead is the little-endian sum of the bytes, MemWrite stores the byte v[8k+7:8k] at offset a + k, and
leaves every other byte alone. -/
def Obligations.MemoryIsLittleEndian : Prop :=
  ∀ (mem : List Host.Cell) (a n : Nat),
    (∀ b : Nat → Byte, (∀ k, k < n → readByte mem (a + k) = some (b k)) →
      memRead mem a n = some (((List.range n).map fun k => (b k).toNat * 2 ^ (8 * k)).sum)) ∧
    (∀ v k, k < n → readByte (memWrite mem a n v) (a + k) = some (BitVec.ofNat 8 (v / 2 ^ (8 * k)))) ∧
    (∀ v, SameOutside mem (memWrite mem a n v) a n)

/-! ## The host's side -/

/-- R240, R32: every register of the block right after reset, at its offset; no byte of DMEM has a value, the
sequencer is IDLE, no request is pending, IRQ is low, and nothing executes. PARAM follows from the parameters. -/
def Obligations.ResetStateIsAsSpecified : Prop :=
  let s := State.reset
  let p := s.params
  [0x000, 0x004, 0x010, 0x014, 0x018, 0x01C, 0x020, 0x024, 0x028, 0x02C].map (readRegister · s) =
    [0x42344C44, 0x00000007, 0, 0, 0, 0, 0, 0, 0, 0] ∧
  [0x040, 0x044, 0x048, 0x04C, 0x050, 0x054, 0x058, 0x05C, 0x060].map (readRegister · s) =
    [1024, 512, 512, 1024, 0x00000000, 0x408F4000, 0x00000000, 0x00000000, 0] ∧
  readRegister 0x008 s = BitVec.ofNat 32 (p.log2Nmax + 2 ^ 8 * p.log2Dmem + 2 ^ 16 * p.hasFastConv.toNat) ∧
  readRegister 0x06C s ++ readRegister 0x068 s = romCos p.log2Nmax 0 ∧
  readRegister 0x074 s ++ readRegister 0x070 s = romSin p.log2Nmax 0 ∧
  (∀ a, readByte s.mem a = none) ∧ s.busy = false ∧ s.abortPending = false ∧ s.irq = false ∧ step s = .next s

/-- R34: the fields of PARAM, for every legal implementation; NMAX and DMEM_SIZE follow from it; a write to it,
and every step, leaves it as it is. -/
def Obligations.ParamFieldsAreTheParameters : Prop :=
  ∀ s : State,
    let param := readRegister 0x008 s
    (param.extractLsb' 0 5).toNat = s.params.log2Nmax ∧
    (param.extractLsb' 8 5).toNat = s.params.log2Dmem ∧
    param.getLsbD 16 = s.params.hasFastConv ∧ param &&& 0xFFFEE0E0 = 0 ∧
    s.params.nmax = 2 ^ (param.extractLsb' 0 5).toNat ∧ s.params.dmemSize = 2 ^ (param.extractLsb' 8 5).toNat ∧
    (∀ v, writeRegister 0x008 v s = .next s) ∧ (∀ t, step s = .next t → readRegister 0x008 t = param)

/-- R32: a reserved offset of the register block reads 0 and ignores writes. -/
def Obligations.ReservedOffsetsReadZero : Prop :=
  ∀ (s : State) (off : Nat) (v : Word),
    off = 0x00C ∨ (0x030 ≤ off ∧ off ≤ 0x03C) ∨ off = 0x064 ∨ 0x078 ≤ off →
    readRegister off s = 0 ∧ writeRegister off v s = .next s

/-- R35, R101: CTRL reads 0, and a write to it does the first of soft reset, abort request, start request, nothing;
a start from IDLE clears DONE, ERR, ABORTED, ERR_CODE, ERR_INFO, CMD_COUNT, sets BUSY and keeps everything else,
HOST_VIOL, RESULT, CPC and the configuration included; while BUSY it has no effect. -/
def Obligations.CtrlWritesInPriorityOrder : Prop :=
  ∀ (s : State) (v : Word), readRegister 0x010 s = 0 ∧
    (v.getLsbD 2 = true → writeRegister 0x010 v s = .next (softReset s)) ∧
    (v.getLsbD 2 = false → v.getLsbD 1 = true →
      writeRegister 0x010 v s = .next (if s.busy then { s with abortPending := true } else s)) ∧
    (v.getLsbD 2 = false → v.getLsbD 1 = false → v.getLsbD 0 = true →
      (s.busy = true → writeRegister 0x010 v s = .next s) ∧
      (s.busy = false → writeRegister 0x010 v s = .next { s with
        status := (s.status &&& 0xFFFFFFF1) ||| 0x1, errCode := 0, errInfo := 0, cmdCount := 0 })) ∧
    (v.getLsbD 2 = false → v.getLsbD 1 = false → v.getLsbD 0 = false → writeRegister 0x010 v s = .next s)

/-- R36: writing STATUS clears exactly the bits 4:1 written as 1; BUSY and everything else is kept. -/
def Obligations.StatusIsWriteOneToClear : Prop :=
  ∀ (s : State) (v : Word), ∃ t, writeRegister 0x014 v s = .next t ∧ t = { s with status := t.status } ∧
    ∀ k, t.status.getLsbD k = (s.status.getLsbD k && !(decide (1 ≤ k ∧ k ≤ 4) && v.getLsbD k))

/-- R32 to R50, the register map: each offset reads its own register, in every state; while IDLE a write to a CFG_
register stores v in that register alone; a write to a register marked RO has no effect; the hardwired bits of
IRQ_EN, CPC and TW_INDEX on a write; and the ROM read port. -/
def Obligations.HardwiredBitsAndRomPort : Prop :=
  ∀ (s : State) (v : Word),
    [0x000, 0x004, 0x008, 0x010, 0x014, 0x018, 0x01C, 0x020, 0x024, 0x028, 0x02C].map (readRegister · s) =
      [0x42344C44, 0x00000007,
        BitVec.ofNat 32 (s.params.log2Nmax + 2 ^ 8 * s.params.log2Dmem + 2 ^ 16 * s.params.hasFastConv.toNat),
        0, s.status, s.irqEn, s.errCode, s.errInfo, s.cpc, s.cmdCount, s.result] ∧
    [0x040, 0x044, 0x048, 0x04C, 0x050, 0x054, 0x058, 0x05C, 0x060].map (readRegister · s) =
      [s.cfgWindow, s.cfgStep, s.cfgFirSize, s.cfgConvFft, s.cfgCutoffLo, s.cfgCutoffHi, s.cfgFsLo, s.cfgFsHi,
        s.twIndex] ∧
    (s.busy = false →
      writeRegister 0x040 v s = .next { s with cfgWindow := v } ∧
      writeRegister 0x044 v s = .next { s with cfgStep := v } ∧
      writeRegister 0x048 v s = .next { s with cfgFirSize := v } ∧
      writeRegister 0x04C v s = .next { s with cfgConvFft := v } ∧
      writeRegister 0x050 v s = .next { s with cfgCutoffLo := v } ∧
      writeRegister 0x054 v s = .next { s with cfgCutoffHi := v } ∧
      writeRegister 0x058 v s = .next { s with cfgFsLo := v } ∧
      writeRegister 0x05C v s = .next { s with cfgFsHi := v }) ∧
    (∀ off ∈ [0x000, 0x004, 0x008, 0x01C, 0x020, 0x028, 0x02C, 0x068, 0x06C, 0x070, 0x074],
      writeRegister off v s = .next s) ∧
    writeRegister 0x018 v s = .next { s with irqEn := v &&& 0x1E } ∧
    (s.busy = false → writeRegister 0x024 v s = .next { s with cpc := v &&& 0xFFFFFFE0 }) ∧
    (∃ t, writeRegister 0x060 v s = .next t ∧ t = { s with twIndex := t.twIndex } ∧
      t.twIndex.toNat = v.toNat % (s.params.nmax / 2)) ∧
    readRegister 0x06C s ++ readRegister 0x068 s = romCos s.params.log2Nmax s.twIndex.toNat ∧
    readRegister 0x074 s ++ readRegister 0x070 s = romSin s.params.log2Nmax s.twIndex.toNat

/-- R65: while BUSY a read of the DMEM aperture returns 0, writes to it and to CPC and the CFG_ registers are
dropped, each setting HOST_VIOL (bit 4) and nothing else. Reads of any register, and writes to CTRL, STATUS,
IRQ_EN and TW_INDEX, are performed normally and do not set HOST_VIOL. -/
def Obligations.BusyDropsHostAccesses : Prop :=
  ∀ (s : State) (w off : Nat) (v : Word), s.busy = true →
    let dropped := { s with status := s.status ||| 0x10 }
    (busTarget s.params w = .dmem off →
      hostAccess (.read w) s = .next { dropped with hostData := 0 } ∧ hostAccess (.write w v) s = .next dropped) ∧
    (busTarget s.params w = .register off →
      hostAccess (.read w) s = .next { s with hostData := readRegister off s } ∧
      ((off = 0x024 ∨ off = 0x040 ∨ off = 0x044 ∨ off = 0x048 ∨ off = 0x04C ∨ off = 0x050 ∨ off = 0x054 ∨
        off = 0x058 ∨ off = 0x05C) → hostAccess (.write w v) s = .next dropped) ∧
      (off = 0x010 → hostAccess (.write w v) s =
        .next (if v.getLsbD 2 then softReset s else if v.getLsbD 1 then { s with abortPending := true } else s)) ∧
      (off = 0x014 → hostAccess (.write w v) s = .next { s with status := s.status &&& ~~~(v &&& 0x1E) }) ∧
      (off = 0x018 → hostAccess (.write w v) s = .next { s with irqEn := v &&& 0x1E }) ∧
      (off = 0x060 → hostAccess (.write w v) s =
        .next { s with twIndex := BitVec.ofNat 32 (v.toNat % (s.params.nmax / 2)) }) ∧
      (softReset s).flag .hostViol = false)

/-- R62: host address REG_BASE + a, for a up to 0xFFF, is offset a of the register block, DMEM_BASE + a, for a below
DMEM_SIZE, is DMEM offset a (where no register is: log 2), and no other address reaches the engine (log 14). R63, R64:
while IDLE a host write of v at DMEM offset a stores v[8k+7:8k] at a + k and changes nothing else, a host read returns
the four bytes least significant first and changes nothing else, and a word written reads back. -/
def Obligations.IdleHostWordsReadBack : Prop :=
  (∀ (p : Params) (a w : Nat), a % 4 = 0 →
    let inBlock := fun w : Nat => p.regBaseWord ≤ w ∧ 4 * w ≤ 4 * p.regBaseWord + 0xFFF
    let inAperture := fun w : Nat => p.dmemBaseWord ≤ w ∧ 4 * w ≤ 4 * p.dmemBaseWord + p.dmemSize - 1
    (a ≤ 0xFFF → busTarget p (p.regBaseWord + a / 4) = .register a) ∧
    (a < p.dmemSize → ¬inBlock (p.dmemBaseWord + a / 4) → busTarget p (p.dmemBaseWord + a / 4) = .dmem a) ∧
    (¬inBlock w → ¬inAperture w → busTarget p w = .elsewhere)) ∧
  ∀ (s : State) (w off : Nat) (v : Word),
    (busTarget s.params w = .elsewhere → hostAccess (.read w) s = .next s ∧ hostAccess (.write w v) s = .next s) ∧
    (busTarget s.params w = .register off →
      hostAccess (.read w) s = .next { s with hostData := readRegister off s } ∧
      hostAccess (.write w v) s = writeRegister off v s) ∧
    (busTarget s.params w = .dmem off → s.busy = false →
      (∀ b0 b1 b2 b3 : Byte, readByte s.mem off = some b0 → readByte s.mem (off + 1) = some b1 →
        readByte s.mem (off + 2) = some b2 → readByte s.mem (off + 3) = some b3 →
        hostAccess (.read w) s = .next { s with hostData := b3 ++ b2 ++ b1 ++ b0 }) ∧
      ∃ mem', hostAccess (.write w v) s = .next { s with mem := mem' } ∧
        (∀ k, k < 4 → readByte mem' (off + k) = some (v.extractLsb' (8 * k) 8)) ∧ SameOutside s.mem mem' off 4 ∧
        hostAccess (.read w) { s with mem := mem' } = .next { s with mem := mem', hostData := v })

/-- R54: IRQ is high exactly when some source DONE, ERR, ABORTED, HOST_VIOL (bits 1 to 4) is pending and enabled. -/
def Obligations.IrqIsLevelOfEnabledSources : Prop :=
  ∀ s : State, s.irq = true ↔ ∃ k, 1 ≤ k ∧ k ≤ 4 ∧ s.status.getLsbD k = true ∧ s.irqEn.getLsbD k = true

/-! ## Abort, soft reset, power-on reset -/

/-- R214: where a pending abort can leave the engine: between two commands before the next fetch; after the command
at CPC completed whole, unless that command ended the run; in the middle of the command at CPC, with CPC, CMD_COUNT and
RESULT kept and DMEM unchanged outside that command's destination; or with the error of that command. The first
outcome, an abort before a fetch, is possible at every command (the model's reading: log 9). -/
def Obligations.AbortOutcomes : Prop :=
  ∀ s t : State, s.busy = true → s.abortPending = true → s.turns = [] → step s = .next t →
    let u := { s with draws := s.draws + 1 }
    t = abortedFrom u ∨
    (∃ v, runCommand u = .next v ∧ (v.busy = true → t = abortedFrom v) ∧ (v.busy = false → t = v)) ∨
    (∃ code info, runCommand u = .next t ∧ t = errorEntered u code info) ∨
    ∃ i w, commandAt s = some i ∧ t = abortedFrom w ∧ w.cpc = s.cpc ∧ w.cmdCount = s.cmdCount ∧
      w.result = s.result ∧ w.errCode = s.errCode ∧ w.errInfo = s.errInfo ∧ w.status = s.status ∧
      match jobOf i s with
      | some j => SameConfig s w ∧ SameOutside s.mem w.mem j.dst.base j.dst.bytes
      | none => w = u ∨ ∃ r lo hi, i = .setcfg r lo hi ∧ w = writeCfg r lo hi u

/-- R215: after an abort in the middle of a data command, a new start and exec of the same command run it from its
beginning and leave DMEM, RESULT and CPC exactly as the uninterrupted command does. It is exec, not a new fetch: a
destination may cover its own descriptor (R67), and a fetch would then see the unspecified bytes. -/
def Obligations.AbortedCommandReruns : Prop :=
  ∀ (i : Instr) (s t : State) (j : Job) (done : Bool), jobOf i s = some j → Available s.params.hasFastConv i →
    j.error s.params.dmemSize = none → exec i s = .next t →
    ∃ t', exec i (startRequest (cutCommand i done s)) = .next t' ∧
      (∀ a, readByte t'.mem a = readByte t.mem a) ∧ t'.result = t.result ∧ t'.cpc = t.cpc

/-- R241: a write to CTRL with bit 2 set is performed in every state, whatever the bytes at CPC and in the sources
are: every register takes its value after reset and the sequencer is IDLE; from IDLE DMEM is kept whole; from BUSY it
is kept outside the destination of the command in progress, and whole when that has none or one of its checks fails
(log 10). The command in progress is the one whose descriptor has the bytes written at CPC, an unwritten byte having
any value (log 12). While BUSY the soft reset counts as an interruption of its own in the model's `draws` (log 9). -/
def Obligations.SoftResetResetsRegisters : Prop :=
  ∀ s : State,
    let t := softReset s
    (∀ v : Word, v.getLsbD 2 = true → writeRegister 0x010 v s = .next t) ∧
    t = { State.reset with params := s.params, mem := t.mem, turns := s.turns, hostData := s.hostData, draws := t.draws } ∧
    (s.busy = false → t.mem = s.mem ∧ t.draws = s.draws) ∧ (s.busy = true → t.draws = s.draws + 1) ∧
    (s.params.dmemSize < s.cpc.toNat + 32 → t.mem = s.mem) ∧
    ∃ bs : List Byte, bs.length = 32 ∧
      (∀ k b, k < 32 → readByte s.mem (s.cpc.toNat + k) = some b → bs[k]? = some b) ∧
      match (decodeBytes s.params.hasFastConv bs).toOption.bind (jobOf · s) with
      | some j => SameOutside s.mem t.mem j.dst.base j.dst.bytes ∧ (j.error s.params.dmemSize ≠ none → t.mem = s.mem)
      | none => t.mem = s.mem

/-- R240: power-on reset leaves no byte of DMEM with a value and every register at its value after reset. -/
def Obligations.PowerOnResetForgetsEverything : Prop :=
  ∀ (s : State) (rest : List Turn), s.turns = .powerOn :: rest →
    step s = .next { State.reset with params := s.params, turns := rest, hostData := s.hostData, draws := s.draws }

/-! ## Invariants -/

/-- The invariant holds right after reset (R240). -/
def Obligations.ResetMeetsInvariant : Prop := State.reset.Inv

/-- Every step keeps the invariant: hardwired bits read 0, at most one end-of-run flag is set and none while BUSY,
DMEM stays canonical and within DMEM_SIZE, and CMD_COUNT stays below CPC (R36 to R41, R60, R66, R101, R105, R203). -/
def Obligations.StepKeepsInvariant : Prop :=
  ∀ s t : State, s.Inv → step s = .next t → t.Inv

/-- R109: every run ends: with no host access, after DMEM_SIZE/32 + 1 steps the sequencer is IDLE. -/
def Obligations.EveryRunEnds : Prop :=
  ∀ s t : State, s.turns = [] → Host.Core.run core (s.params.dmemSize / 32 + 1) s = .next t →
    State.busy t = false

/-- R105: a turn of the engine that ends a run leaves exactly one of DONE, ERR, ABORTED set: DONE when an END
completed, ERR when an error was recorded, ABORTED when an abort was pending; a soft reset ends a run and clears all three. -/
def Obligations.RunEndsInExactlyOneWay : Prop :=
  ∀ s : State, s.Inv → s.busy = true →
    (∀ t, s.turns = [] → step s = .next t → t.busy = false →
      (t.flag .done = true ∧ t.flag .err = false ∧ t.flag .aborted = false ∧ commandAt s = some .endList) ∨
      (t.flag .done = false ∧ t.flag .err = true ∧ t.flag .aborted = false ∧ t.errCode ≠ 0) ∨
      (t.flag .done = false ∧ t.flag .err = false ∧ t.flag .aborted = true ∧ s.abortPending = true)) ∧
    (softReset s).busy = false ∧ (softReset s).flag .done = false ∧ (softReset s).flag .err = false ∧
      (softReset s).flag .aborted = false

/-- R65, R75 (c): while BUSY no host access but a soft reset changes DMEM, CPC, the configuration, the counters or
the error registers. -/
def Obligations.BusyRunIsIsolatedFromHost : Prop :=
  ∀ (s t : State) (a : HostAccess), s.busy = true → hostAccess a s = .next t →
    (∀ w v, a = .write w v → busTarget s.params w = .register 0x010 → v.getLsbD 2 = false) →
    t.mem = s.mem ∧ t.cpc = s.cpc ∧ SameConfig s t ∧ t.cmdCount = s.cmdCount ∧ t.result = s.result ∧
      t.errCode = s.errCode ∧ t.errInfo = s.errInfo ∧ t.busy = true
end

