-- ==== Sys2Proof/Laws/Memory.lean ====
section
/-! SUPPORT. What the memory operations do: reads after writes, what a write leaves alone, and the
canonical form of DMEM. -/

namespace Sys2Proof.Machine

variable (mem : List Host.Cell)

/-- A byte reads as what was last written to it. -/
@[simp] theorem readByte_writeByte_same (a : Nat) (b : Byte) : readByte (writeByte mem a b) a = some b := by
  induction mem with
  | nil => simp [writeByte, readByte]
  | cons c rest ih =>
    simp only [writeByte]
    split
    · simp [readByte, ih, Nat.ne_of_lt ‹_›]
    · split <;> simp [readByte]

/-- A write leaves every other byte alone. -/
theorem readByte_writeByte_ne {a x : Nat} (b : Byte) (h : x ≠ a) :
    readByte (writeByte mem a b) x = readByte mem x := by
  induction mem with
  | nil => simp [writeByte, readByte, h.symm]
  | cons c rest ih =>
    simp only [writeByte]
    split
    · simp [readByte, ih]
    · split
      · next hc => simp [readByte, h.symm, hc]
      · simp [readByte, h.symm]

/-- A write lists its own offset and nothing else new. -/
theorem mem_writeByte {a : Nat} {b : Byte} {c : Host.Cell} (h : c ∈ writeByte mem a b) :
    c.1 = a ∨ c ∈ mem := by
  induction mem with
  | nil => simp [writeByte] at h; simp [h]
  | cons d rest ih =>
    simp only [writeByte] at h
    split at h
    · rcases List.mem_cons.1 h with h | h
      · simp [h]
      · rcases ih h with h | h <;> simp [h]
    · split at h <;> rcases List.mem_cons.1 h with h | h <;> simp [h]

/-- A write keeps the canonical form. -/
theorem memWf_writeByte {mem : List Host.Cell} (a : Nat) (b : Byte) (h : memWf mem) :
    memWf (writeByte mem a b) := by
  induction mem with
  | nil => simp [writeByte]
  | cons c rest ih =>
    rcases List.pairwise_cons.1 h with ⟨hc, hrest⟩
    simp only [writeByte]
    split
    · next hlt =>
      refine List.pairwise_cons.2 ⟨fun d hd => ?_, ih hrest⟩
      rcases mem_writeByte _ hd with hd | hd
      · simpa [hd] using hlt
      · exact hc d hd
    · next hge =>
      split
      · next heq => exact List.pairwise_cons.2 ⟨fun d hd => by simpa [heq] using hc d hd, hrest⟩
      · next hne =>
        have hac : a < c.1 := by omega
        refine List.pairwise_cons.2 ⟨fun d hd => ?_, h⟩
        rcases List.mem_cons.1 hd with rfl | hd
        · exact hac
        · exact Nat.lt_trans hac (hc d hd)

/-- What a read gives after a run of bytes was written: those bytes, and elsewhere what was there. -/
theorem readByte_writeBytes (a : Nat) (bs : List Byte) (x : Nat) :
    readByte (writeBytes mem a bs) x =
      if a ≤ x ∧ x < a + bs.length then bs[x - a]? else readByte mem x := by
  induction bs generalizing mem a with
  | nil => simp [writeBytes]
  | cons b bs ih =>
    rw [writeBytes, ih]
    by_cases hx : x = a
    · subst hx; simp
    · rw [readByte_writeByte_ne _ _ hx]
      by_cases h : a + 1 ≤ x ∧ x < a + 1 + bs.length
      · have : a ≤ x ∧ x < a + (b :: bs).length := by simp; omega
        obtain ⟨k, rfl⟩ : ∃ k, x = a + 1 + k := ⟨x - (a + 1), by omega⟩
        have h1 : a + 1 + k - a = k + 1 := by omega
        rw [if_pos h, if_pos this, h1]
        simp
      · have : ¬(a ≤ x ∧ x < a + (b :: bs).length) := by simp; omega
        rw [if_neg h, if_neg this]

/-- A run of bytes leaves every byte outside it alone. -/
theorem readByte_writeBytes_outside {a x : Nat} {bs : List Byte} (h : x < a ∨ a + bs.length ≤ x) :
    readByte (writeBytes mem a bs) x = readByte mem x := by
  rw [readByte_writeBytes, if_neg (by omega)]

theorem mem_writeBytes {a : Nat} {bs : List Byte} {c : Host.Cell} (h : c ∈ writeBytes mem a bs) :
    (a ≤ c.1 ∧ c.1 < a + bs.length) ∨ c ∈ mem := by
  induction bs generalizing mem a with
  | nil => exact .inr h
  | cons b bs ih =>
    rcases ih _ h with h | h
    · left; simp; omega
    · rcases mem_writeByte _ h with h | h
      · left; simp; omega
      · exact .inr h

theorem memWf_writeBytes {mem : List Host.Cell} (a : Nat) (bs : List Byte) (h : memWf mem) :
    memWf (writeBytes mem a bs) := by
  induction bs generalizing mem a with
  | nil => exact h
  | cons b bs ih => exact ih _ (memWf_writeByte a b h)

/-- Reading depends on the bytes of the range alone. -/
theorem readBytes_congr {mem mem' : List Host.Cell} {a n : Nat}
    (h : ∀ x, a ≤ x → x < a + n → readByte mem' x = readByte mem x) :
    readBytes mem' a n = readBytes mem a n := by
  induction n generalizing a with
  | zero => rfl
  | succ n ih =>
    simp only [readBytes]
    rw [h a (Nat.le_refl a) (by omega), ih fun x h1 h2 => h x (by omega) (by omega)]

/-- A run of bytes that was written reads back. -/
theorem readBytes_writeBytes (a : Nat) (bs : List Byte) :
    readBytes (writeBytes mem a bs) a bs.length = some bs := by
  induction bs generalizing mem a with
  | nil => rfl
  | cons b bs ih =>
    have h1 : readByte (writeBytes mem a (b :: bs)) a = some b := by
      rw [readByte_writeBytes]; simp
    simp only [List.length_cons, readBytes, h1]
    rw [show writeBytes mem a (b :: bs) = writeBytes (writeByte mem a b) (a + 1) bs from rfl, ih]

@[simp] theorem bytesOfNat_length (v n : Nat) : (bytesOfNat v n).length = n := by
  induction n generalizing v with
  | zero => rfl
  | succ n ih => simp [bytesOfNat, ih]

/-- Little-endian bytes give back the number they were made from (R61). -/
theorem natOfBytes_bytesOfNat (v n : Nat) : natOfBytes (bytesOfNat v n) = v % 256 ^ n := by
  induction n generalizing v with
  | zero => simp [bytesOfNat, natOfBytes, Nat.mod_one]
  | succ n ih =>
    rw [bytesOfNat, natOfBytes, ih, BitVec.toNat_ofNat,
      show 256 ^ (n + 1) = 256 * 256 ^ n from Nat.pow_succ']
    exact Nat.mod_mul.symm

/-- MemRead gives back what MemWrite stored (R9, R61). -/
theorem memRead_memWrite (a n v : Nat) : memRead (memWrite mem a n v) a n = some (v % 256 ^ n) := by
  have h := readBytes_writeBytes mem a (bytesOfNat v n)
  rw [bytesOfNat_length] at h
  rw [memRead, memWrite, h, Option.map_some, natOfBytes_bytesOfNat]

theorem memWf_memWrite {mem : List Host.Cell} (a n v : Nat) (h : memWf mem) : memWf (memWrite mem a n v) :=
  memWf_writeBytes _ _ h

/-- A binary64 that was written reads back. -/
@[simp] theorem rdF_wrF_same (a : Nat) (x : F64) : rdF (wrF mem a x) a = some x := by
  rw [rdF, wrF, memRead_memWrite]
  rw [Nat.mod_eq_of_lt (Nat.lt_of_lt_of_eq x.isLt (by decide)), Option.map_some, BitVec.ofNat_toNat,
    BitVec.setWidth_eq]

/-- WrF changes its eight bytes and no other. -/
theorem readByte_wrF_outside {a y : Nat} {x : F64} (h : y < a ∨ a + 8 ≤ y) :
    readByte (wrF mem a x) y = readByte mem y :=
  readByte_writeBytes_outside mem (by simpa using h)

theorem rdF_congr {mem mem' : List Host.Cell} {a : Nat}
    (h : ∀ x, a ≤ x → x < a + 8 → readByte mem' x = readByte mem x) : rdF mem' a = rdF mem a := by
  rw [rdF, rdF, memRead, memRead, readBytes_congr h]

/-- wrFs changes the bytes of its array and no other. -/
theorem readByte_wrFs_outside {a y : Nat} {xs : List F64} (h : y < a ∨ a + 8 * xs.length ≤ y) :
    readByte (wrFs mem a xs) y = readByte mem y := by
  induction xs generalizing mem a with
  | nil => rfl
  | cons x xs ih =>
    have h' : y < a ∨ a + 8 * xs.length + 8 ≤ y := by simpa [Nat.mul_add, ← Nat.add_assoc] using h
    rw [wrFs, ih _ (by omega), readByte_wrF_outside _ (by omega)]

/-- Element k of an array that was written reads back (R68). -/
theorem rdF_wrFs {a : Nat} {xs : List F64} {k : Nat} (hk : k < xs.length) :
    rdF (wrFs mem a xs) (a + 8 * k) = some xs[k] := by
  induction xs generalizing mem a k with
  | nil => simp at hk
  | cons x xs ih =>
    rw [wrFs]
    cases k with
    | zero =>
      rw [rdF_congr (mem := wrF mem a x) fun y h1 h2 => readByte_wrFs_outside _ (by omega)]
      simp
    | succ k =>
      have hk' : k < xs.length := by simpa using hk
      rw [show a + 8 * (k + 1) = a + 8 + 8 * k by omega, ih _ hk']
      rfl

theorem mem_wrFs {a : Nat} {xs : List F64} {c : Host.Cell} (h : c ∈ wrFs mem a xs) :
    (a ≤ c.1 ∧ c.1 < a + 8 * xs.length) ∨ c ∈ mem := by
  induction xs generalizing mem a with
  | nil => exact .inr h
  | cons x xs ih =>
    rcases ih _ h with h | h
    · left; simp; omega
    · rcases mem_writeBytes _ h with h | h
      · left; simp at h ⊢; omega
      · exact .inr h

theorem memWf_wrFs {mem : List Host.Cell} (a : Nat) (xs : List F64) (h : memWf mem) : memWf (wrFs mem a xs) := by
  induction xs generalizing mem a with
  | nil => exact h
  | cons x xs ih => exact ih _ (memWf_memWrite _ _ _ h)

/-- What `collect` answers: one item for each index, in order. -/
theorem collect_eq_some {α : Type} {read : Nat → Option α} {is : List Nat} {xs : List α} :
    collect read is = some xs ↔ is.map read = xs.map some := by
  induction is generalizing xs with
  | nil => cases xs <;> simp [collect]
  | cons i is ih =>
    cases xs with
    | nil =>
      simp only [collect]
      split <;> simp
    | cons x xs =>
      simp only [collect, List.map_cons, List.cons.injEq]
      rw [← ih]
      split
      · next y ys h1 h2 => simp [h1, h2]
      · next h => cases h1 : read i <;> cases h2 : collect read is <;> simp_all

/-- `collect` answers when every index has an item. -/
theorem collect_of_forall {α : Type} {read : Nat → Option α} {item : Nat → α} {is : List Nat}
    (h : ∀ i ∈ is, read i = some (item i)) : collect read is = some (is.map item) := by
  rw [collect_eq_some]
  simpa using h

theorem collect_length {α : Type} {read : Nat → Option α} {is : List Nat} {xs : List α}
    (h : collect read is = some xs) : xs.length = is.length := by
  have := congrArg List.length (collect_eq_some.1 h)
  simpa using this.symm

@[simp] theorem parts_length (xs : List C64) : (parts xs).length = 2 * xs.length := by
  induction xs with
  | nil => rfl
  | cons x xs ih => simp [parts] at ih ⊢; omega

/-- Complex element k occupies places 2k and 2k+1 of the parts (R14). -/
theorem parts_getElem (xs : List C64) {k : Nat} (hk : k < xs.length) :
    (parts xs)[2 * k]? = some xs[k].re ∧ (parts xs)[2 * k + 1]? = some xs[k].im := by
  induction xs generalizing k with
  | nil => simp at hk
  | cons x xs ih =>
    cases k with
    | zero => simp [parts]
    | succ k =>
      have := ih (k := k) (by simpa using hk)
      rw [show 2 * (k + 1) = 2 * k + 1 + 1 by omega]
      simpa [parts] using this

/-- Complex element k of an array that was written reads back (R68). -/
theorem rdC_wrFs_parts {a : Nat} {xs : List C64} {k : Nat} (hk : k < xs.length) :
    rdC (wrFs mem a (parts xs)) (a + 16 * k) = some xs[k] := by
  obtain ⟨h1, h2⟩ := parts_getElem xs hk
  obtain ⟨l1, e1⟩ := List.getElem?_eq_some_iff.1 h1
  obtain ⟨l2, e2⟩ := List.getElem?_eq_some_iff.1 h2
  have r1 := rdF_wrFs mem (a := a) l1
  have r2 := rdF_wrFs mem (a := a) l2
  rw [show a + 8 * (2 * k) = a + 16 * k by omega] at r1
  rw [show a + 8 * (2 * k + 1) = a + 16 * k + 8 by omega] at r2
  rw [rdC, r1, r2, e1, e2]

end Sys2Proof.Machine
end

