-- ==== Sys2Proof/Laws/State.lean ====
section
/-! SUPPORT. One lemma per field per update of State, and what each update does to the flags. -/

namespace Sys2Proof.Machine

variable (s : State)

section Fields

@[simp] theorem setFlag_params (f : Flag) : (s.setFlag f).params = s.params := rfl
@[simp] theorem setFlag_mem (f : Flag) : (s.setFlag f).mem = s.mem := rfl
@[simp] theorem setFlag_status (f : Flag) : (s.setFlag f).status = s.status ||| flagMask f := rfl
@[simp] theorem setFlag_abortPending (f : Flag) : (s.setFlag f).abortPending = s.abortPending := rfl
@[simp] theorem setFlag_irqEn (f : Flag) : (s.setFlag f).irqEn = s.irqEn := rfl
@[simp] theorem setFlag_errCode (f : Flag) : (s.setFlag f).errCode = s.errCode := rfl
@[simp] theorem setFlag_errInfo (f : Flag) : (s.setFlag f).errInfo = s.errInfo := rfl
@[simp] theorem setFlag_cpc (f : Flag) : (s.setFlag f).cpc = s.cpc := rfl
@[simp] theorem setFlag_cmdCount (f : Flag) : (s.setFlag f).cmdCount = s.cmdCount := rfl
@[simp] theorem setFlag_result (f : Flag) : (s.setFlag f).result = s.result := rfl
@[simp] theorem setFlag_cfgWindow (f : Flag) : (s.setFlag f).cfgWindow = s.cfgWindow := rfl
@[simp] theorem setFlag_cfgStep (f : Flag) : (s.setFlag f).cfgStep = s.cfgStep := rfl
@[simp] theorem setFlag_cfgFirSize (f : Flag) : (s.setFlag f).cfgFirSize = s.cfgFirSize := rfl
@[simp] theorem setFlag_cfgConvFft (f : Flag) : (s.setFlag f).cfgConvFft = s.cfgConvFft := rfl
@[simp] theorem setFlag_cfgCutoffLo (f : Flag) : (s.setFlag f).cfgCutoffLo = s.cfgCutoffLo := rfl
@[simp] theorem setFlag_cfgCutoffHi (f : Flag) : (s.setFlag f).cfgCutoffHi = s.cfgCutoffHi := rfl
@[simp] theorem setFlag_cfgFsLo (f : Flag) : (s.setFlag f).cfgFsLo = s.cfgFsLo := rfl
@[simp] theorem setFlag_cfgFsHi (f : Flag) : (s.setFlag f).cfgFsHi = s.cfgFsHi := rfl
@[simp] theorem setFlag_twIndex (f : Flag) : (s.setFlag f).twIndex = s.twIndex := rfl
@[simp] theorem setFlag_turns (f : Flag) : (s.setFlag f).turns = s.turns := rfl
@[simp] theorem setFlag_hostData (f : Flag) : (s.setFlag f).hostData = s.hostData := rfl
@[simp] theorem setFlag_draws (f : Flag) : (s.setFlag f).draws = s.draws := rfl

@[simp] theorem clearFlag_params (f : Flag) : (s.clearFlag f).params = s.params := rfl
@[simp] theorem clearFlag_mem (f : Flag) : (s.clearFlag f).mem = s.mem := rfl
@[simp] theorem clearFlag_status (f : Flag) : (s.clearFlag f).status = s.status &&& ~~~flagMask f := rfl
@[simp] theorem clearFlag_abortPending (f : Flag) : (s.clearFlag f).abortPending = s.abortPending := rfl
@[simp] theorem clearFlag_irqEn (f : Flag) : (s.clearFlag f).irqEn = s.irqEn := rfl
@[simp] theorem clearFlag_errCode (f : Flag) : (s.clearFlag f).errCode = s.errCode := rfl
@[simp] theorem clearFlag_errInfo (f : Flag) : (s.clearFlag f).errInfo = s.errInfo := rfl
@[simp] theorem clearFlag_cpc (f : Flag) : (s.clearFlag f).cpc = s.cpc := rfl
@[simp] theorem clearFlag_cmdCount (f : Flag) : (s.clearFlag f).cmdCount = s.cmdCount := rfl
@[simp] theorem clearFlag_result (f : Flag) : (s.clearFlag f).result = s.result := rfl
@[simp] theorem clearFlag_cfgWindow (f : Flag) : (s.clearFlag f).cfgWindow = s.cfgWindow := rfl
@[simp] theorem clearFlag_cfgStep (f : Flag) : (s.clearFlag f).cfgStep = s.cfgStep := rfl
@[simp] theorem clearFlag_cfgFirSize (f : Flag) : (s.clearFlag f).cfgFirSize = s.cfgFirSize := rfl
@[simp] theorem clearFlag_cfgConvFft (f : Flag) : (s.clearFlag f).cfgConvFft = s.cfgConvFft := rfl
@[simp] theorem clearFlag_cfgCutoffLo (f : Flag) : (s.clearFlag f).cfgCutoffLo = s.cfgCutoffLo := rfl
@[simp] theorem clearFlag_cfgCutoffHi (f : Flag) : (s.clearFlag f).cfgCutoffHi = s.cfgCutoffHi := rfl
@[simp] theorem clearFlag_cfgFsLo (f : Flag) : (s.clearFlag f).cfgFsLo = s.cfgFsLo := rfl
@[simp] theorem clearFlag_cfgFsHi (f : Flag) : (s.clearFlag f).cfgFsHi = s.cfgFsHi := rfl
@[simp] theorem clearFlag_twIndex (f : Flag) : (s.clearFlag f).twIndex = s.twIndex := rfl
@[simp] theorem clearFlag_turns (f : Flag) : (s.clearFlag f).turns = s.turns := rfl
@[simp] theorem clearFlag_hostData (f : Flag) : (s.clearFlag f).hostData = s.hostData := rfl
@[simp] theorem clearFlag_draws (f : Flag) : (s.clearFlag f).draws = s.draws := rfl

@[simp] theorem endRun_params (f : Flag) : (s.endRun f).params = s.params := rfl
@[simp] theorem endRun_mem (f : Flag) : (s.endRun f).mem = s.mem := rfl
@[simp] theorem endRun_status (f : Flag) : (s.endRun f).status = (s.status ||| flagMask f) &&& ~~~flagMask .busy := rfl
@[simp] theorem endRun_abortPending (f : Flag) : (s.endRun f).abortPending = false := rfl
@[simp] theorem endRun_irqEn (f : Flag) : (s.endRun f).irqEn = s.irqEn := rfl
@[simp] theorem endRun_errCode (f : Flag) : (s.endRun f).errCode = s.errCode := rfl
@[simp] theorem endRun_errInfo (f : Flag) : (s.endRun f).errInfo = s.errInfo := rfl
@[simp] theorem endRun_cpc (f : Flag) : (s.endRun f).cpc = s.cpc := rfl
@[simp] theorem endRun_cmdCount (f : Flag) : (s.endRun f).cmdCount = s.cmdCount := rfl
@[simp] theorem endRun_result (f : Flag) : (s.endRun f).result = s.result := rfl
@[simp] theorem endRun_cfgWindow (f : Flag) : (s.endRun f).cfgWindow = s.cfgWindow := rfl
@[simp] theorem endRun_cfgStep (f : Flag) : (s.endRun f).cfgStep = s.cfgStep := rfl
@[simp] theorem endRun_cfgFirSize (f : Flag) : (s.endRun f).cfgFirSize = s.cfgFirSize := rfl
@[simp] theorem endRun_cfgConvFft (f : Flag) : (s.endRun f).cfgConvFft = s.cfgConvFft := rfl
@[simp] theorem endRun_cfgCutoffLo (f : Flag) : (s.endRun f).cfgCutoffLo = s.cfgCutoffLo := rfl
@[simp] theorem endRun_cfgCutoffHi (f : Flag) : (s.endRun f).cfgCutoffHi = s.cfgCutoffHi := rfl
@[simp] theorem endRun_cfgFsLo (f : Flag) : (s.endRun f).cfgFsLo = s.cfgFsLo := rfl
@[simp] theorem endRun_cfgFsHi (f : Flag) : (s.endRun f).cfgFsHi = s.cfgFsHi := rfl
@[simp] theorem endRun_twIndex (f : Flag) : (s.endRun f).twIndex = s.twIndex := rfl
@[simp] theorem endRun_turns (f : Flag) : (s.endRun f).turns = s.turns := rfl
@[simp] theorem endRun_hostData (f : Flag) : (s.endRun f).hostData = s.hostData := rfl
@[simp] theorem endRun_draws (f : Flag) : (s.endRun f).draws = s.draws := rfl

@[simp] theorem complete_params  : (complete s).params = s.params := rfl
@[simp] theorem complete_mem  : (complete s).mem = s.mem := rfl
@[simp] theorem complete_status  : (complete s).status = s.status := rfl
@[simp] theorem complete_abortPending  : (complete s).abortPending = s.abortPending := rfl
@[simp] theorem complete_irqEn  : (complete s).irqEn = s.irqEn := rfl
@[simp] theorem complete_errCode  : (complete s).errCode = s.errCode := rfl
@[simp] theorem complete_errInfo  : (complete s).errInfo = s.errInfo := rfl
@[simp] theorem complete_cpc  : (complete s).cpc = s.cpc + 32 := rfl
@[simp] theorem complete_cmdCount  : (complete s).cmdCount = s.cmdCount + 1 := rfl
@[simp] theorem complete_result  : (complete s).result = s.result := rfl
@[simp] theorem complete_cfgWindow  : (complete s).cfgWindow = s.cfgWindow := rfl
@[simp] theorem complete_cfgStep  : (complete s).cfgStep = s.cfgStep := rfl
@[simp] theorem complete_cfgFirSize  : (complete s).cfgFirSize = s.cfgFirSize := rfl
@[simp] theorem complete_cfgConvFft  : (complete s).cfgConvFft = s.cfgConvFft := rfl
@[simp] theorem complete_cfgCutoffLo  : (complete s).cfgCutoffLo = s.cfgCutoffLo := rfl
@[simp] theorem complete_cfgCutoffHi  : (complete s).cfgCutoffHi = s.cfgCutoffHi := rfl
@[simp] theorem complete_cfgFsLo  : (complete s).cfgFsLo = s.cfgFsLo := rfl
@[simp] theorem complete_cfgFsHi  : (complete s).cfgFsHi = s.cfgFsHi := rfl
@[simp] theorem complete_twIndex  : (complete s).twIndex = s.twIndex := rfl
@[simp] theorem complete_turns  : (complete s).turns = s.turns := rfl
@[simp] theorem complete_hostData  : (complete s).hostData = s.hostData := rfl
@[simp] theorem complete_draws  : (complete s).draws = s.draws := rfl

@[simp] theorem raise_params (e : ErrorReport) : (raise e s).params = s.params := rfl
@[simp] theorem raise_mem (e : ErrorReport) : (raise e s).mem = s.mem := rfl
@[simp] theorem raise_status (e : ErrorReport) : (raise e s).status = (s.status ||| flagMask .err) &&& ~~~flagMask .busy := rfl
@[simp] theorem raise_abortPending (e : ErrorReport) : (raise e s).abortPending = false := rfl
@[simp] theorem raise_irqEn (e : ErrorReport) : (raise e s).irqEn = s.irqEn := rfl
@[simp] theorem raise_errCode (e : ErrorReport) : (raise e s).errCode = e.code.number := rfl
@[simp] theorem raise_errInfo (e : ErrorReport) : (raise e s).errInfo = e.info := rfl
@[simp] theorem raise_cpc (e : ErrorReport) : (raise e s).cpc = s.cpc := rfl
@[simp] theorem raise_cmdCount (e : ErrorReport) : (raise e s).cmdCount = s.cmdCount := rfl
@[simp] theorem raise_result (e : ErrorReport) : (raise e s).result = s.result := rfl
@[simp] theorem raise_cfgWindow (e : ErrorReport) : (raise e s).cfgWindow = s.cfgWindow := rfl
@[simp] theorem raise_cfgStep (e : ErrorReport) : (raise e s).cfgStep = s.cfgStep := rfl
@[simp] theorem raise_cfgFirSize (e : ErrorReport) : (raise e s).cfgFirSize = s.cfgFirSize := rfl
@[simp] theorem raise_cfgConvFft (e : ErrorReport) : (raise e s).cfgConvFft = s.cfgConvFft := rfl
@[simp] theorem raise_cfgCutoffLo (e : ErrorReport) : (raise e s).cfgCutoffLo = s.cfgCutoffLo := rfl
@[simp] theorem raise_cfgCutoffHi (e : ErrorReport) : (raise e s).cfgCutoffHi = s.cfgCutoffHi := rfl
@[simp] theorem raise_cfgFsLo (e : ErrorReport) : (raise e s).cfgFsLo = s.cfgFsLo := rfl
@[simp] theorem raise_cfgFsHi (e : ErrorReport) : (raise e s).cfgFsHi = s.cfgFsHi := rfl
@[simp] theorem raise_twIndex (e : ErrorReport) : (raise e s).twIndex = s.twIndex := rfl
@[simp] theorem raise_turns (e : ErrorReport) : (raise e s).turns = s.turns := rfl
@[simp] theorem raise_hostData (e : ErrorReport) : (raise e s).hostData = s.hostData := rfl
@[simp] theorem raise_draws (e : ErrorReport) : (raise e s).draws = s.draws := rfl

@[simp] theorem endAborted_params  : (endAborted s).params = s.params := rfl
@[simp] theorem endAborted_mem  : (endAborted s).mem = s.mem := rfl
@[simp] theorem endAborted_status  : (endAborted s).status = (s.status ||| flagMask .aborted) &&& ~~~flagMask .busy := rfl
@[simp] theorem endAborted_abortPending  : (endAborted s).abortPending = false := rfl
@[simp] theorem endAborted_irqEn  : (endAborted s).irqEn = s.irqEn := rfl
@[simp] theorem endAborted_errCode  : (endAborted s).errCode = s.errCode := rfl
@[simp] theorem endAborted_errInfo  : (endAborted s).errInfo = s.errInfo := rfl
@[simp] theorem endAborted_cpc  : (endAborted s).cpc = s.cpc := rfl
@[simp] theorem endAborted_cmdCount  : (endAborted s).cmdCount = s.cmdCount := rfl
@[simp] theorem endAborted_result  : (endAborted s).result = s.result := rfl
@[simp] theorem endAborted_cfgWindow  : (endAborted s).cfgWindow = s.cfgWindow := rfl
@[simp] theorem endAborted_cfgStep  : (endAborted s).cfgStep = s.cfgStep := rfl
@[simp] theorem endAborted_cfgFirSize  : (endAborted s).cfgFirSize = s.cfgFirSize := rfl
@[simp] theorem endAborted_cfgConvFft  : (endAborted s).cfgConvFft = s.cfgConvFft := rfl
@[simp] theorem endAborted_cfgCutoffLo  : (endAborted s).cfgCutoffLo = s.cfgCutoffLo := rfl
@[simp] theorem endAborted_cfgCutoffHi  : (endAborted s).cfgCutoffHi = s.cfgCutoffHi := rfl
@[simp] theorem endAborted_cfgFsLo  : (endAborted s).cfgFsLo = s.cfgFsLo := rfl
@[simp] theorem endAborted_cfgFsHi  : (endAborted s).cfgFsHi = s.cfgFsHi := rfl
@[simp] theorem endAborted_twIndex  : (endAborted s).twIndex = s.twIndex := rfl
@[simp] theorem endAborted_turns  : (endAborted s).turns = s.turns := rfl
@[simp] theorem endAborted_hostData  : (endAborted s).hostData = s.hostData := rfl
@[simp] theorem endAborted_draws  : (endAborted s).draws = s.draws := rfl

@[simp] theorem violation_params  : (violation s).params = s.params := rfl
@[simp] theorem violation_mem  : (violation s).mem = s.mem := rfl
@[simp] theorem violation_status  : (violation s).status = s.status ||| flagMask .hostViol := rfl
@[simp] theorem violation_abortPending  : (violation s).abortPending = s.abortPending := rfl
@[simp] theorem violation_irqEn  : (violation s).irqEn = s.irqEn := rfl
@[simp] theorem violation_errCode  : (violation s).errCode = s.errCode := rfl
@[simp] theorem violation_errInfo  : (violation s).errInfo = s.errInfo := rfl
@[simp] theorem violation_cpc  : (violation s).cpc = s.cpc := rfl
@[simp] theorem violation_cmdCount  : (violation s).cmdCount = s.cmdCount := rfl
@[simp] theorem violation_result  : (violation s).result = s.result := rfl
@[simp] theorem violation_cfgWindow  : (violation s).cfgWindow = s.cfgWindow := rfl
@[simp] theorem violation_cfgStep  : (violation s).cfgStep = s.cfgStep := rfl
@[simp] theorem violation_cfgFirSize  : (violation s).cfgFirSize = s.cfgFirSize := rfl
@[simp] theorem violation_cfgConvFft  : (violation s).cfgConvFft = s.cfgConvFft := rfl
@[simp] theorem violation_cfgCutoffLo  : (violation s).cfgCutoffLo = s.cfgCutoffLo := rfl
@[simp] theorem violation_cfgCutoffHi  : (violation s).cfgCutoffHi = s.cfgCutoffHi := rfl
@[simp] theorem violation_cfgFsLo  : (violation s).cfgFsLo = s.cfgFsLo := rfl
@[simp] theorem violation_cfgFsHi  : (violation s).cfgFsHi = s.cfgFsHi := rfl
@[simp] theorem violation_twIndex  : (violation s).twIndex = s.twIndex := rfl
@[simp] theorem violation_turns  : (violation s).turns = s.turns := rfl
@[simp] theorem violation_hostData  : (violation s).hostData = s.hostData := rfl
@[simp] theorem violation_draws  : (violation s).draws = s.draws := rfl

@[simp] theorem finish_params (j : Job) (xs : List F64) : (j.finish xs s).params = s.params := rfl
@[simp] theorem finish_mem (j : Job) (xs : List F64) : (j.finish xs s).mem = wrFs s.mem j.dst.base xs := rfl
@[simp] theorem finish_status (j : Job) (xs : List F64) : (j.finish xs s).status = s.status := rfl
@[simp] theorem finish_abortPending (j : Job) (xs : List F64) : (j.finish xs s).abortPending = s.abortPending := rfl
@[simp] theorem finish_irqEn (j : Job) (xs : List F64) : (j.finish xs s).irqEn = s.irqEn := rfl
@[simp] theorem finish_errCode (j : Job) (xs : List F64) : (j.finish xs s).errCode = s.errCode := rfl
@[simp] theorem finish_errInfo (j : Job) (xs : List F64) : (j.finish xs s).errInfo = s.errInfo := rfl
@[simp] theorem finish_cpc (j : Job) (xs : List F64) : (j.finish xs s).cpc = s.cpc + 32 := rfl
@[simp] theorem finish_cmdCount (j : Job) (xs : List F64) : (j.finish xs s).cmdCount = s.cmdCount + 1 := rfl
@[simp] theorem finish_result (j : Job) (xs : List F64) : (j.finish xs s).result = BitVec.ofNat 32 j.result := rfl
@[simp] theorem finish_cfgWindow (j : Job) (xs : List F64) : (j.finish xs s).cfgWindow = s.cfgWindow := rfl
@[simp] theorem finish_cfgStep (j : Job) (xs : List F64) : (j.finish xs s).cfgStep = s.cfgStep := rfl
@[simp] theorem finish_cfgFirSize (j : Job) (xs : List F64) : (j.finish xs s).cfgFirSize = s.cfgFirSize := rfl
@[simp] theorem finish_cfgConvFft (j : Job) (xs : List F64) : (j.finish xs s).cfgConvFft = s.cfgConvFft := rfl
@[simp] theorem finish_cfgCutoffLo (j : Job) (xs : List F64) : (j.finish xs s).cfgCutoffLo = s.cfgCutoffLo := rfl
@[simp] theorem finish_cfgCutoffHi (j : Job) (xs : List F64) : (j.finish xs s).cfgCutoffHi = s.cfgCutoffHi := rfl
@[simp] theorem finish_cfgFsLo (j : Job) (xs : List F64) : (j.finish xs s).cfgFsLo = s.cfgFsLo := rfl
@[simp] theorem finish_cfgFsHi (j : Job) (xs : List F64) : (j.finish xs s).cfgFsHi = s.cfgFsHi := rfl
@[simp] theorem finish_twIndex (j : Job) (xs : List F64) : (j.finish xs s).twIndex = s.twIndex := rfl
@[simp] theorem finish_turns (j : Job) (xs : List F64) : (j.finish xs s).turns = s.turns := rfl
@[simp] theorem finish_hostData (j : Job) (xs : List F64) : (j.finish xs s).hostData = s.hostData := rfl
@[simp] theorem finish_draws (j : Job) (xs : List F64) : (j.finish xs s).draws = s.draws := rfl

@[simp] theorem resetRegisters_params  : (resetRegisters s).params = s.params := rfl
@[simp] theorem resetRegisters_mem  : (resetRegisters s).mem = s.mem := rfl
@[simp] theorem resetRegisters_status  : (resetRegisters s).status = State.reset.status := rfl
@[simp] theorem resetRegisters_abortPending  : (resetRegisters s).abortPending = State.reset.abortPending := rfl
@[simp] theorem resetRegisters_irqEn  : (resetRegisters s).irqEn = State.reset.irqEn := rfl
@[simp] theorem resetRegisters_errCode  : (resetRegisters s).errCode = State.reset.errCode := rfl
@[simp] theorem resetRegisters_errInfo  : (resetRegisters s).errInfo = State.reset.errInfo := rfl
@[simp] theorem resetRegisters_cpc  : (resetRegisters s).cpc = State.reset.cpc := rfl
@[simp] theorem resetRegisters_cmdCount  : (resetRegisters s).cmdCount = State.reset.cmdCount := rfl
@[simp] theorem resetRegisters_result  : (resetRegisters s).result = State.reset.result := rfl
@[simp] theorem resetRegisters_cfgWindow  : (resetRegisters s).cfgWindow = State.reset.cfgWindow := rfl
@[simp] theorem resetRegisters_cfgStep  : (resetRegisters s).cfgStep = State.reset.cfgStep := rfl
@[simp] theorem resetRegisters_cfgFirSize  : (resetRegisters s).cfgFirSize = State.reset.cfgFirSize := rfl
@[simp] theorem resetRegisters_cfgConvFft  : (resetRegisters s).cfgConvFft = State.reset.cfgConvFft := rfl
@[simp] theorem resetRegisters_cfgCutoffLo  : (resetRegisters s).cfgCutoffLo = State.reset.cfgCutoffLo := rfl
@[simp] theorem resetRegisters_cfgCutoffHi  : (resetRegisters s).cfgCutoffHi = State.reset.cfgCutoffHi := rfl
@[simp] theorem resetRegisters_cfgFsLo  : (resetRegisters s).cfgFsLo = State.reset.cfgFsLo := rfl
@[simp] theorem resetRegisters_cfgFsHi  : (resetRegisters s).cfgFsHi = State.reset.cfgFsHi := rfl
@[simp] theorem resetRegisters_twIndex  : (resetRegisters s).twIndex = State.reset.twIndex := rfl
@[simp] theorem resetRegisters_turns  : (resetRegisters s).turns = s.turns := rfl
@[simp] theorem resetRegisters_hostData  : (resetRegisters s).hostData = s.hostData := rfl
@[simp] theorem resetRegisters_draws  : (resetRegisters s).draws = s.draws := rfl

@[simp] theorem powerOnReset_params  : (powerOnReset s).params = s.params := rfl
@[simp] theorem powerOnReset_mem  : (powerOnReset s).mem = [] := rfl
@[simp] theorem powerOnReset_status  : (powerOnReset s).status = State.reset.status := rfl
@[simp] theorem powerOnReset_abortPending  : (powerOnReset s).abortPending = State.reset.abortPending := rfl
@[simp] theorem powerOnReset_irqEn  : (powerOnReset s).irqEn = State.reset.irqEn := rfl
@[simp] theorem powerOnReset_errCode  : (powerOnReset s).errCode = State.reset.errCode := rfl
@[simp] theorem powerOnReset_errInfo  : (powerOnReset s).errInfo = State.reset.errInfo := rfl
@[simp] theorem powerOnReset_cpc  : (powerOnReset s).cpc = State.reset.cpc := rfl
@[simp] theorem powerOnReset_cmdCount  : (powerOnReset s).cmdCount = State.reset.cmdCount := rfl
@[simp] theorem powerOnReset_result  : (powerOnReset s).result = State.reset.result := rfl
@[simp] theorem powerOnReset_cfgWindow  : (powerOnReset s).cfgWindow = State.reset.cfgWindow := rfl
@[simp] theorem powerOnReset_cfgStep  : (powerOnReset s).cfgStep = State.reset.cfgStep := rfl
@[simp] theorem powerOnReset_cfgFirSize  : (powerOnReset s).cfgFirSize = State.reset.cfgFirSize := rfl
@[simp] theorem powerOnReset_cfgConvFft  : (powerOnReset s).cfgConvFft = State.reset.cfgConvFft := rfl
@[simp] theorem powerOnReset_cfgCutoffLo  : (powerOnReset s).cfgCutoffLo = State.reset.cfgCutoffLo := rfl
@[simp] theorem powerOnReset_cfgCutoffHi  : (powerOnReset s).cfgCutoffHi = State.reset.cfgCutoffHi := rfl
@[simp] theorem powerOnReset_cfgFsLo  : (powerOnReset s).cfgFsLo = State.reset.cfgFsLo := rfl
@[simp] theorem powerOnReset_cfgFsHi  : (powerOnReset s).cfgFsHi = State.reset.cfgFsHi := rfl
@[simp] theorem powerOnReset_twIndex  : (powerOnReset s).twIndex = State.reset.twIndex := rfl
@[simp] theorem powerOnReset_turns  : (powerOnReset s).turns = s.turns := rfl
@[simp] theorem powerOnReset_hostData  : (powerOnReset s).hostData = s.hostData := rfl
@[simp] theorem powerOnReset_draws  : (powerOnReset s).draws = s.draws := rfl

@[simp] theorem writeCfg_params (r : CfgReg) (lo hi : Word) : (writeCfg r lo hi s).params = s.params := by cases r <;> rfl
@[simp] theorem writeCfg_mem (r : CfgReg) (lo hi : Word) : (writeCfg r lo hi s).mem = s.mem := by cases r <;> rfl
@[simp] theorem writeCfg_status (r : CfgReg) (lo hi : Word) : (writeCfg r lo hi s).status = s.status := by cases r <;> rfl
@[simp] theorem writeCfg_abortPending (r : CfgReg) (lo hi : Word) : (writeCfg r lo hi s).abortPending = s.abortPending := by cases r <;> rfl
@[simp] theorem writeCfg_irqEn (r : CfgReg) (lo hi : Word) : (writeCfg r lo hi s).irqEn = s.irqEn := by cases r <;> rfl
@[simp] theorem writeCfg_errCode (r : CfgReg) (lo hi : Word) : (writeCfg r lo hi s).errCode = s.errCode := by cases r <;> rfl
@[simp] theorem writeCfg_errInfo (r : CfgReg) (lo hi : Word) : (writeCfg r lo hi s).errInfo = s.errInfo := by cases r <;> rfl
@[simp] theorem writeCfg_cpc (r : CfgReg) (lo hi : Word) : (writeCfg r lo hi s).cpc = s.cpc := by cases r <;> rfl
@[simp] theorem writeCfg_cmdCount (r : CfgReg) (lo hi : Word) : (writeCfg r lo hi s).cmdCount = s.cmdCount := by cases r <;> rfl
@[simp] theorem writeCfg_result (r : CfgReg) (lo hi : Word) : (writeCfg r lo hi s).result = s.result := by cases r <;> rfl
@[simp] theorem writeCfg_twIndex (r : CfgReg) (lo hi : Word) : (writeCfg r lo hi s).twIndex = s.twIndex := by cases r <;> rfl
@[simp] theorem writeCfg_turns (r : CfgReg) (lo hi : Word) : (writeCfg r lo hi s).turns = s.turns := by cases r <;> rfl
@[simp] theorem writeCfg_hostData (r : CfgReg) (lo hi : Word) : (writeCfg r lo hi s).hostData = s.hostData := by cases r <;> rfl
@[simp] theorem writeCfg_draws (r : CfgReg) (lo hi : Word) : (writeCfg r lo hi s).draws = s.draws := by cases r <;> rfl

@[simp] theorem nextDraw_params : (nextDraw s).params = s.params := rfl
@[simp] theorem nextDraw_mem : (nextDraw s).mem = s.mem := rfl
@[simp] theorem nextDraw_status : (nextDraw s).status = s.status := rfl
@[simp] theorem nextDraw_abortPending : (nextDraw s).abortPending = s.abortPending := rfl
@[simp] theorem nextDraw_irqEn : (nextDraw s).irqEn = s.irqEn := rfl
@[simp] theorem nextDraw_errCode : (nextDraw s).errCode = s.errCode := rfl
@[simp] theorem nextDraw_errInfo : (nextDraw s).errInfo = s.errInfo := rfl
@[simp] theorem nextDraw_cpc : (nextDraw s).cpc = s.cpc := rfl
@[simp] theorem nextDraw_cmdCount : (nextDraw s).cmdCount = s.cmdCount := rfl
@[simp] theorem nextDraw_result : (nextDraw s).result = s.result := rfl
@[simp] theorem nextDraw_cfgWindow : (nextDraw s).cfgWindow = s.cfgWindow := rfl
@[simp] theorem nextDraw_cfgStep : (nextDraw s).cfgStep = s.cfgStep := rfl
@[simp] theorem nextDraw_cfgFirSize : (nextDraw s).cfgFirSize = s.cfgFirSize := rfl
@[simp] theorem nextDraw_cfgConvFft : (nextDraw s).cfgConvFft = s.cfgConvFft := rfl
@[simp] theorem nextDraw_cfgCutoffLo : (nextDraw s).cfgCutoffLo = s.cfgCutoffLo := rfl
@[simp] theorem nextDraw_cfgCutoffHi : (nextDraw s).cfgCutoffHi = s.cfgCutoffHi := rfl
@[simp] theorem nextDraw_cfgFsLo : (nextDraw s).cfgFsLo = s.cfgFsLo := rfl
@[simp] theorem nextDraw_cfgFsHi : (nextDraw s).cfgFsHi = s.cfgFsHi := rfl
@[simp] theorem nextDraw_twIndex : (nextDraw s).twIndex = s.twIndex := rfl
@[simp] theorem nextDraw_turns : (nextDraw s).turns = s.turns := rfl
@[simp] theorem nextDraw_hostData : (nextDraw s).hostData = s.hostData := rfl
@[simp] theorem nextDraw_draws : (nextDraw s).draws = s.draws + 1 := rfl

end Fields

section Flags

/-- A flag is set by setting it and kept by setting another. -/
@[simp] theorem flag_setFlag (f g : Flag) : (s.setFlag f).flag g = (s.flag g || decide (f = g)) := by
  cases f <;> cases g <;> simp [State.flag, State.setFlag, flagOf, flagMask, flagBit]

/-- A flag is cleared by clearing it and kept by clearing another. -/
@[simp] theorem flag_clearFlag (f g : Flag) : (s.clearFlag f).flag g = (s.flag g && !decide (f = g)) := by
  cases f <;> cases g <;> simp [State.flag, State.clearFlag, flagOf, flagMask, flagBit]

/-- Flags depend on STATUS alone. -/
theorem flag_congr {s t : State} (h : t.status = s.status) (g : Flag) : t.flag g = s.flag g := by
  simp [State.flag, h]

@[simp] theorem flag_endRun (f g : Flag) :
    (s.endRun f).flag g = ((s.flag g || decide (f = g)) && !decide (Flag.busy = g)) := by
  rw [← flag_setFlag, ← flag_clearFlag]; exact flag_congr rfl g

@[simp] theorem flag_complete (g : Flag) : (complete s).flag g = s.flag g := rfl

@[simp] theorem flag_finish (j : Job) (xs : List F64) (g : Flag) : (j.finish xs s).flag g = s.flag g := rfl

@[simp] theorem flag_raise (e : ErrorReport) (g : Flag) :
    (raise e s).flag g = ((s.flag g || decide (Flag.err = g)) && !decide (Flag.busy = g)) := by
  rw [← flag_endRun]; exact flag_congr rfl g

@[simp] theorem flag_endAborted (g : Flag) :
    (endAborted s).flag g = ((s.flag g || decide (Flag.aborted = g)) && !decide (Flag.busy = g)) :=
  flag_endRun s .aborted g

@[simp] theorem flag_violation (g : Flag) :
    (violation s).flag g = (s.flag g || decide (Flag.hostViol = g)) := flag_setFlag s .hostViol g

@[simp] theorem flag_writeCfg (r : CfgReg) (lo hi : Word) (g : Flag) :
    (writeCfg r lo hi s).flag g = s.flag g := flag_congr (by simp) g

@[simp] theorem flag_resetRegisters (g : Flag) : (resetRegisters s).flag g = false := by
  simp [State.flag, flagOf, State.reset]

/-- STATUS.BUSY is the flag BUSY. -/
theorem busy_eq : s.busy = s.flag .busy := rfl

@[simp] theorem busy_raise (e : ErrorReport) : (raise e s).busy = false := by simp [busy_eq]

@[simp] theorem busy_endAborted : (endAborted s).busy = false := by simp [busy_eq]

@[simp] theorem busy_endRun (f : Flag) : (s.endRun f).busy = false := by simp [busy_eq]

@[simp] theorem busy_complete : (complete s).busy = s.busy := rfl

@[simp] theorem busy_finish (j : Job) (xs : List F64) : (j.finish xs s).busy = s.busy := rfl

@[simp] theorem busy_nextDraw : (nextDraw s).busy = s.busy := rfl

end Flags

/-- What a start request does while IDLE (R101). -/
theorem startRequest_of_idle {s : State} (h : s.busy = false) :
    startRequest s = { (((s.clearFlag .done).clearFlag .err).clearFlag .aborted).setFlag .busy with
      errCode := 0, errInfo := 0, cmdCount := 0 } := by
  simp [startRequest, h]

/-- A start request while BUSY has no effect (R101). -/
theorem startRequest_of_busy {s : State} (h : s.busy = true) : startRequest s = s := by
  simp [startRequest, h]

end Sys2Proof.Machine
end

