-- ==== Sys2Proof/Laws/Operands.lean ====
section
/-! SUPPORT. What a data command can do, said once: its checks, its inversion, the lengths it reads. -/

namespace Sys2Proof.Machine

@[simp] theorem require_eq_none {ok : Bool} {e : ErrorReport} : require ok e = none ↔ ok = true := by
  cases ok <;> simp [require]

/-- An array passes R66 when its base is aligned and its whole range is inside DMEM. -/
theorem arrayError_eq_none {n : Nat} {a : ArrayRef} :
    arrayError n a = none ↔ a.base % 8 = 0 ∧ a.base + a.bytes ≤ n := by
  unfold arrayError
  split
  · simp_all
  · split <;> simp_all

/-- A pair passes R67 when the ranges do not intersect. -/
theorem overlapError_eq_none {d a : ArrayRef} : overlapError d a = none ↔ overlaps d a = false := by
  unfold overlapError
  split <;> simp_all

theorem firstError_eq_none {cs : List (Option ErrorReport)} : firstError cs = none ↔ ∀ c ∈ cs, c = none := by
  simp [firstError]

/-- The first failing check of a list whose head is known. -/
theorem firstError_cons (c : Option ErrorReport) (cs : List (Option ErrorReport)) :
    firstError (c :: cs) = match c with
      | some e => some e
      | none => firstError cs := by
  cases c <;> rfl

/-- A data command is accepted when every check of R206 passes. -/
theorem job_error_eq_none {j : Job} {n : Nat} :
    j.error n = none ↔ (∀ c ∈ j.dims, c = none) ∧ arrayError n j.dst = none ∧
      (∀ a ∈ j.srcs, arrayError n a = none) ∧ ∀ a ∈ j.srcs, overlapError j.dst a = none := by
  simp only [Job.error, Job.checks, firstError_eq_none, List.mem_append, List.map_cons, List.mem_cons,
    List.mem_map]
  constructor
  · intro h
    refine ⟨fun c hc => h c (.inl (.inl hc)), h _ (.inl (.inr (.inl rfl))), fun a ha => ?_, fun a ha => ?_⟩
    · exact h _ (.inl (.inr (.inr ⟨a, ha, rfl⟩)))
    · exact h _ (.inr ⟨a, ha, rfl⟩)
  · rintro ⟨h1, h2, h3, h4⟩ c ((hc | rfl | ⟨a, ha, rfl⟩) | ⟨a, ha, rfl⟩)
    · exact h1 c hc
    · exact h2
    · exact h3 a ha
    · exact h4 a ha

/-- A data command that fails a check takes its error, before any write (R203, R204). -/
theorem runJob_of_error {j : Job} {s : State} {e : ErrorReport} (h : j.error s.params.dmemSize = some e) :
    runJob j s = .next (raise e s) := by
  simp [runJob, h]

/-- A data command that passes its checks and reads what it needs completes whole. -/
theorem runJob_of_pass {j : Job} {s : State} {xs : List F64} (h : j.error s.params.dmemSize = none)
    (hx : j.output s.mem = some xs) : runJob j s = .next (j.finish xs s) := by
  simp [runJob, h, hx]

/-- Everything a data command can do when it answers a next state. -/
theorem runJob_cases {j : Job} {s t : State} (h : runJob j s = .next t) :
    (∃ e, j.error s.params.dmemSize = some e ∧ t = raise e s) ∨
    (j.error s.params.dmemSize = none ∧ ∃ xs, j.output s.mem = some xs ∧ t = j.finish xs s) := by
  unfold runJob at h
  split at h
  · next e he => exact .inl ⟨e, he, by cases h; rfl⟩
  · next he =>
    split at h
    · cases h
    · next xs hx => exact .inr ⟨he, xs, hx, by cases h; rfl⟩

/-- A power of two is one (R11). -/
theorem isPow2_iff {n : Nat} : isPow2 n = true ↔ ∃ k, n = 2 ^ k := by
  constructor
  · intro h
    exact ⟨Nat.log2 n, by simp [isPow2] at h; exact h.2.symm⟩
  · rintro ⟨k, rfl⟩
    simp [isPow2, Nat.log2_two_pow]

theorem pow_log2_of_isPow2 {n : Nat} (h : isPow2 n = true) : 2 ^ Nat.log2 n = n := by
  simp [isPow2] at h; exact h.2

theorem readReals_length {mem : List Host.Cell} {a n : Nat} {xs : List F64} (h : readReals mem a n = some xs) :
    xs.length = n := by
  simpa using collect_length h

theorem readComplexes_length {mem : List Host.Cell} {a n : Nat} {xs : List C64}
    (h : readComplexes mem a n = some xs) : xs.length = n := by
  simpa using collect_length h

theorem readPromoted_length {mem : List Host.Cell} {a n : Nat} {c : Bool} {xs : List C64}
    (h : readPromoted mem a n c = some xs) : xs.length = n := by
  cases c
  · obtain ⟨ys, hy, rfl⟩ := Option.map_eq_some_iff.1 h
    simpa using readReals_length hy
  · exact readComplexes_length h

/-- Reading an array gives its elements in order, when each has a value. -/
theorem readReals_of_forall {mem : List Host.Cell} {a n : Nat} {x : Nat → F64}
    (h : ∀ k < n, rdF mem (a + 8 * k) = some (x k)) : readReals mem a n = some ((List.range n).map x) :=
  collect_of_forall fun k hk => h k (List.mem_range.1 hk)

theorem readComplexes_of_forall {mem : List Host.Cell} {a n : Nat} {x : Nat → C64}
    (h : ∀ k < n, rdC mem (a + 16 * k) = some (x k)) : readComplexes mem a n = some ((List.range n).map x) :=
  collect_of_forall fun k hk => h k (List.mem_range.1 hk)

theorem outputParts_length (r : Bool) (xs : List C64) :
    8 * (outputParts r xs).length = xs.length * (if r then 8 else 16) := by
  cases r <;> simp [outputParts] <;> omega

/-- The destination of a data command is the only part of DMEM it changes. -/
theorem finish_readByte_outside (j : Job) (xs : List F64) (s : State) {a : Nat}
    (h : a < j.dst.base ∨ j.dst.base + 8 * xs.length ≤ a) :
    readByte (j.finish xs s).mem a = readByte s.mem a := by
  simpa using readByte_wrFs_outside s.mem h

end Sys2Proof.Machine
end

