-- ==== Sys2Proof/Laws/Datapath.lean ====
section
/-! SUPPORT. How many values each datapath writes. -/

namespace Sys2Proof.Machine

/-- A loop whose body keeps the length of its accumulator keeps it. -/
theorem foldl_length {α β : Type} {f : List α → β → List α} (h : ∀ A b, (f A b).length = A.length)
    (bs : List β) (A : List α) : (bs.foldl f A).length = A.length := by
  induction bs generalizing A with
  | nil => rfl
  | cons b bs ih => rw [List.foldl_cons, ih, h]

@[simp] theorem butterfly_length (w : C64) (p q : Nat) (A : List C64) : (butterfly w p q A).length = A.length := by
  simp [butterfly]

@[simp] theorem fftStage_length (g : Nat) (d : Dir) (L s : Nat) (A : List C64) :
    (fftStage g d L s A).length = A.length :=
  foldl_length (fun _ _ => butterfly_length _ _ _ _) _ _

@[simp] theorem bitReversed_length (a : List C64) (m : Nat) : (bitReversed a m).length = 2 ^ m := by
  simp [bitReversed]

/-- The FFT core returns as many values as its length says (R126). -/
@[simp] theorem fftCore_length (g m : Nat) (d : Dir) (a : List C64) : (fftCore g m d a).length = 2 ^ m := by
  have h := foldl_length (f := fun A i => fftStage g d (2 ^ m) (i + 1) A)
    (fun A i => fftStage_length g d (2 ^ m) (i + 1) A) (List.range m) (bitReversed a m)
  cases d <;> simpa [fftCore] using h

@[simp] theorem overlapAdd_length (acc : List F64) (p : Nat) (y : List C64) :
    (overlapAdd acc p y).length = acc.length :=
  foldl_length (fun _ _ => List.length_set) _ _

@[simp] theorem istftSum_length (g n step outlen : Nat) (sp : List (List C64)) :
    (istftSum g n step outlen sp).length = outlen := by
  rw [istftSum, foldl_length fun A i => overlapAdd_length A (i * step) _, List.length_replicate]

/-- The length law of the direct convolution (R186). -/
@[simp] theorem convAcc_length {α : Type} (add mul : α → α → α) (zero : α) (xs fs : List α) :
    (convAcc add mul zero xs fs).length = xs.length + fs.length - 1 := by
  rw [convAcc, foldl_length fun A i => foldl_length (fun _ _ => List.length_set) _ _, List.length_replicate]

@[simp] theorem segmentAdd_length (acc : List C64) (p : Nat) (y : List C64) :
    (segmentAdd acc p y).length = acc.length := by
  refine foldl_length (fun A n => ?_) _ _
  split <;> simp

/-- The length law of the fast convolution (R186). -/
@[simp] theorem convOverlapAdd_length (g m : Nat) (xs fs : List C64) :
    (convOverlapAdd g m xs fs).length = xs.length + fs.length - 1 := by
  simp only [convOverlapAdd]
  rw [foldl_length fun A b => segmentAdd_length A _ _, List.length_replicate]

/-- The values a data command writes fill its destination exactly. -/
def FillsDestination (j : Job) : Prop :=
  ∀ n mem xs, j.error n = none → j.output mem = some xs → 8 * xs.length = j.dst.bytes

theorem fftJob_fills (c : Bool) (dst src len : Word) (s : State) : FillsDestination (fftJob c dst src len s) := by
  intro n mem xs he hx
  obtain ⟨a, -, rfl⟩ := Option.map_eq_some_iff.1 hx
  have hp : isPow2 len.toNat = true := by
    have := (job_error_eq_none.1 he).1 _ (List.mem_singleton.2 rfl)
    simp [lenCheck] at this; exact this.1
  simp [fftJob, arrayRef, ArrayRef.bytes, pow_log2_of_isPow2 hp]; omega

theorem ifftJob_fills (r : Bool) (dst src len : Word) (s : State) : FillsDestination (ifftJob r dst src len s) := by
  intro n mem xs he hx
  obtain ⟨a, -, rfl⟩ := Option.map_eq_some_iff.1 hx
  have hp : isPow2 len.toNat = true := by
    have := (job_error_eq_none.1 he).1 _ (List.mem_singleton.2 rfl)
    simp [lenCheck] at this; exact this.1
  rw [outputParts_length, fftCore_length, pow_log2_of_isPow2 hp]
  cases r <;> rfl

theorem frameChecks_pow2 {s : State} (h : ∀ c ∈ frameChecks s, c = none) :
    2 ^ Nat.log2 s.cfgWindow.toNat = s.cfgWindow.toNat := by
  have := h _ (List.mem_cons_self ..)
  simp at this
  exact pow_log2_of_isPow2 this.1

theorem stftJob_fills (dst src len : Word) (s : State) : FillsDestination (stftJob dst src len s) := by
  intro n mem xs he hx
  have hp := frameChecks_pow2 (s := s) fun c hc => (job_error_eq_none.1 he).1 c (by simp [stftJob, hc])
  obtain ⟨fs, hfs, rfl⟩ := Option.map_eq_some_iff.1 hx
  have hlen : fs.length = stftFrames len.toNat s.cfgWindow.toNat s.cfgStep.toNat := by
    simpa using collect_length hfs
  have hsum : ∀ l : List (List C64),
      (l.flatMap fun a => parts (fftCore s.params.log2Nmax (Nat.log2 s.cfgWindow.toNat) .fwd a)).length =
        l.length * (2 * s.cfgWindow.toNat) := by
    intro l
    induction l with
    | nil => simp
    | cons a l ih => simp [ih, hp, Nat.add_mul]; omega
  rw [hsum, hlen]
  simp [stftJob, arrayRef, ArrayRef.bytes]; ring

theorem istftJob_fills (dst src frames bins outlen : Word) (s : State) :
    FillsDestination (istftJob dst src frames bins outlen s) := by
  intro n mem xs he hx
  obtain ⟨a, -, rfl⟩ := Option.map_eq_some_iff.1 hx
  simp [istftJob, arrayRef, ArrayRef.bytes]; omega

theorem firgenJob_fills (k : F64 → F64 → Int → F64) (dst : Word) (s : State) :
    FillsDestination (firgenJob k dst s) := by
  intro n mem xs he hx
  cases hx
  simp [firgenJob, arrayRef, ArrayRef.bytes]; omega

theorem convJob_fills (xc fc re : Bool) (dst x n f m : Word) : FillsDestination (convJob xc fc re dst x n f m) := by
  intro k mem xs he hx
  simp only [convJob, convOutput] at hx
  split at hx
  · next hc =>
    split at hx
    · next ys zs h1 h2 =>
      cases hx
      rw [outputParts_length, convComplex, convAcc_length, readPromoted_length h1, readPromoted_length h2]
      cases re <;> simp [convJob, arrayRef, ArrayRef.bytes, convDstCplx, hc]
    · cases hx
  · next hc =>
    split at hx
    · next ys zs h1 h2 =>
      cases hx
      rw [convReal, convAcc_length, readReals_length h1, readReals_length h2]
      simp [convJob, arrayRef, ArrayRef.bytes, convDstCplx, hc]; omega
    · cases hx

theorem convFastJob_fills (xc fc re : Bool) (dst x n f m : Word) (s : State) :
    FillsDestination (convFastJob xc fc re dst x n f m s) := by
  intro k mem xs he hx
  simp only [convFastJob, convFastOutput] at hx
  split at hx
  · next ys zs h1 h2 =>
    cases hx
    rw [outputParts_length, convOverlapAdd_length, readPromoted_length h1, readPromoted_length h2]
    cases hd : convDstCplx xc fc re <;> simp [convFastJob, arrayRef, ArrayRef.bytes, hd]
  · cases hx

end Sys2Proof.Machine
end

