-- ==== Sys2Proof/Laws/Exec.lean ====
section
/-! SUPPORT. What a command, the sequencer and an interruption can do, each said once. -/

namespace Sys2Proof.Machine

/-- The data command of a term fills its destination. -/
theorem jobOf_fills {i : Instr} {s : State} {j : Job} (h : jobOf i s = some j) : FillsDestination j := by
  cases i <;> cases h
  · exact stftJob_fills _ _ _ _
  · exact istftJob_fills _ _ _ _ _ _
  · exact fftJob_fills _ _ _ _ _
  · exact ifftJob_fills _ _ _ _ _
  · exact firgenJob_fills _ _ _
  · exact firgenJob_fills _ _ _
  · exact convJob_fills _ _ _ _ _ _ _ _
  · exact convFastJob_fills _ _ _ _ _ _ _ _ _

/-- Everything a command can do when it answers a next state: end the list, do nothing, write a
configuration register, take an error before any write, or complete whole as a data command. -/
theorem exec_cases {i : Instr} {s t : State} (h : exec i s = .next t) :
    (i = .endList ∧ t = (complete s).endRun .done) ∨
    (i = .nop ∧ t = complete s) ∨
    (∃ r lo hi, i = .setcfg r lo hi ∧ t = complete (writeCfg r lo hi s)) ∨
    (∃ e, t = raise e s) ∨
    (∃ j xs, jobOf i s = some j ∧ j.error s.params.dmemSize = none ∧ j.output s.mem = some xs ∧
      8 * xs.length = j.dst.bytes ∧ t = j.finish xs s) := by
  have job : ∀ j, jobOf i s = some j → runJob j s = .next t →
      (∃ e, t = raise e s) ∨ ∃ j xs, jobOf i s = some j ∧ j.error s.params.dmemSize = none ∧
        j.output s.mem = some xs ∧ 8 * xs.length = j.dst.bytes ∧ t = j.finish xs s := by
    intro j hj hr
    rcases runJob_cases hr with ⟨e, -, rfl⟩ | ⟨he, xs, hx, rfl⟩
    · exact .inl ⟨e, rfl⟩
    · exact .inr ⟨j, xs, hj, he, hx, jobOf_fills hj _ _ _ he hx, rfl⟩
  cases i with
  | endList => cases h; exact .inl ⟨rfl, rfl⟩
  | nop => cases h; exact .inr (.inl ⟨rfl, rfl⟩)
  | setcfg r lo hi => cases h; exact .inr (.inr (.inl ⟨r, lo, hi, rfl, rfl⟩))
  | stft dst src len => exact .inr (.inr (.inr (job _ rfl h)))
  | istft dst src frames bins outlen => exact .inr (.inr (.inr (job _ rfl h)))
  | fft c dst src len => exact .inr (.inr (.inr (job _ rfl h)))
  | ifft r dst src len => exact .inr (.inr (.inr (job _ rfl h)))
  | firgenLp dst => exact .inr (.inr (.inr (job _ rfl h)))
  | firgenHp dst => exact .inr (.inr (.inr (job _ rfl h)))
  | conv xc fc re dst x n f m => exact .inr (.inr (.inr (job _ rfl h)))
  | convFast xc fc re dst x n f m =>
    simp only [exec, execConvFast] at h
    split at h
    · exact .inr (.inr (.inr (job _ rfl h)))
    · cases h; exact .inr (.inr (.inr (.inl ⟨_, rfl⟩)))

/-- Everything one round of the run loop can do when it answers a next state. -/
theorem runCommand_cases {s t : State} (h : runCommand s = .next t) :
    (∃ e, t = raise e s) ∨
    (s.cpc.toNat + 32 ≤ s.params.dmemSize ∧ ∃ bs i, readBytes s.mem s.cpc.toNat 32 = some bs ∧
      decodeBytes s.params.hasFastConv bs = .ok i ∧ exec i s = .next t) := by
  unfold runCommand at h
  split at h
  · cases h; exact .inl ⟨_, rfl⟩
  · cases h
  · next bs hf =>
    have hb : s.cpc.toNat + 32 ≤ s.params.dmemSize ∧ readBytes s.mem s.cpc.toNat 32 = some bs := by
      unfold fetch at hf
      split at hf
      · cases hf
      · split at hf
        · next h1 => cases hf; exact ⟨by omega, h1⟩
        · cases hf
    split at h
    · cases h; exact .inl ⟨_, rfl⟩
    · next i hi => exact .inr ⟨hb.1, bs, i, hb.2, hi, h⟩

/-- A descriptor inside DMEM whose bytes all have a value is fetched whole (R102). -/
theorem fetch_of_readable {s : State} {bs : List Byte} (h : s.cpc.toNat + 32 ≤ s.params.dmemSize)
    (hb : readBytes s.mem s.cpc.toNat 32 = some bs) : fetch s = .words bs := by
  simp [fetch, hb]; omega

/-- A round of the run loop on a decodable descriptor is its command (R100). -/
theorem runCommand_of_decodes {s : State} {bs : List Byte} {i : Instr}
    (h : s.cpc.toNat + 32 ≤ s.params.dmemSize) (hb : readBytes s.mem s.cpc.toNat 32 = some bs)
    (hi : decodeBytes s.params.hasFastConv bs = .ok i) : runCommand s = exec i s := by
  simp [runCommand, fetch_of_readable h hb, hi]

/-- Everything a cut command can leave: an error taken, or the run aborted with the configuration
write of a SETCFG done or not, or with a destination that passed its checks unspecified (R214). -/
theorem cutCommand_cases (i : Instr) (done : Bool) (s : State) :
    (∃ e, cutCommand i done s = raise e s) ∨
    cutCommand i done s = endAborted s ∨
    (∃ r lo hi, i = .setcfg r lo hi ∧ cutCommand i done s = endAborted (writeCfg r lo hi s)) ∨
    (∃ j, jobOf i s = some j ∧ j.error s.params.dmemSize = none ∧
      cutCommand i done s = endAborted { s with mem := scramble s.draws s.mem j.dst.base j.dst.bytes }) := by
  unfold cutCommand
  split
  · next j hj =>
    split
    · next e he => exact .inl ⟨e, rfl⟩
    · next he => exact .inr (.inr (.inr ⟨j, hj, he, rfl⟩))
  · split
    · next r lo hi _ =>
      cases done
      · exact .inr (.inl rfl)
      · exact .inr (.inr (.inl ⟨r, lo, hi, rfl, rfl⟩))
    · exact .inr (.inl rfl)

/-- Everything an interruption at a point can do when it answers a next state (R214). -/
theorem interruptAt_cases {p : AbortPoint} {s t : State} (h : interruptAt p s = .next t) :
    (∃ e, t = raise e s) ∨ t = endAborted s ∨
    (∃ u, runCommand s = .next u ∧ t = if u.busy then endAborted u else u) ∨
    (s.cpc.toNat + 32 ≤ s.params.dmemSize ∧ ∃ i done, t = cutCommand i done s) := by
  cases p with
  | before => cases h; exact .inr (.inl rfl)
  | after =>
    simp only [interruptAt] at h
    split at h
    · next u hu => cases h; exact .inr (.inr (.inl ⟨u, hu, rfl⟩))
    · cases h
    · cases h
  | cut done =>
    simp only [interruptAt] at h
    split at h
    · cases h; exact .inl ⟨_, rfl⟩
    · cases h
    · next bs hf =>
      have hb : s.cpc.toNat + 32 ≤ s.params.dmemSize := by
        unfold fetch at hf
        split at hf
        · cases hf
        · omega
      split at h
      · cases h; exact .inl ⟨_, rfl⟩
      · next i _ => cases h; exact .inr (.inr (.inr ⟨hb, i, done, rfl⟩))

/-- The unspecified bytes of an interruption stay inside the destination (R214). -/
theorem readByte_scramble_outside (d : Nat) (mem : List Host.Cell) {a n x : Nat} (h : x < a ∨ a + n ≤ x) :
    readByte (scramble d mem a n) x = readByte mem x :=
  readByte_writeBytes_outside mem (by simpa using h)

@[simp] theorem heldDescriptor_length (s : State) : (heldDescriptor s).length = 32 := by simp [heldDescriptor]

/-- Where DMEM has a value, it is the one the engine holds (R102). -/
theorem heldDescriptor_of_written {s : State} {k : Nat} {b : Byte} (hk : k < 32)
    (hb : readByte s.mem (s.cpc.toNat + k) = some b) : (heldDescriptor s)[k]? = some b := by
  simp [heldDescriptor, hk, hb]

/-- The data command in progress is the one that the descriptor the engine holds decodes to. -/
theorem jobInProgress_eq_some {s : State} {j : Job} (h : jobInProgress s = some j) :
    s.cpc.toNat + 32 ≤ s.params.dmemSize ∧
      (decodeBytes s.params.hasFastConv (heldDescriptor s)).toOption.bind (jobOf · s) = some j := by
  unfold jobInProgress at h
  split at h
  · cases h
  · exact ⟨by omega, h⟩

/-- Everything a soft reset can leave in DMEM: what was there; or, for a data command in progress whose
checks pass, its results, or unspecified bytes, in its destination (R241). -/
theorem stoppedMem_cases (p : AbortPoint) (s : State) :
    stoppedMem p s = s.mem ∨
    ∃ j, jobInProgress s = some j ∧ j.error s.params.dmemSize = none ∧
      ((∃ xs, j.output s.mem = some xs ∧ 8 * xs.length = j.dst.bytes ∧
          stoppedMem p s = wrFs s.mem j.dst.base xs) ∨
        stoppedMem p s = scramble s.draws s.mem j.dst.base j.dst.bytes) := by
  unfold stoppedMem
  split
  · exact .inl rfl
  · next j hj =>
    split
    · exact .inl rfl
    · next hp =>
      have he : j.error s.params.dmemSize = none := by
        simpa using (not_or.mp hp).2
      have hfill : FillsDestination j := by
        obtain ⟨i, -, hi⟩ := Option.bind_eq_some_iff.mp (jobInProgress_eq_some hj).2
        exact jobOf_fills hi
      refine .inr ⟨j, hj, he, ?_⟩
      split
      · next xs hx => exact .inl ⟨xs, hx, hfill _ _ _ he hx, rfl⟩
      · exact .inr rfl

/-- A soft reset leaves every register at its value after reset, and the sequencer IDLE (R241). -/
theorem softReset_eq (s : State) :
    softReset s = { State.reset with
      params := s.params, mem := (softReset s).mem, turns := s.turns, hostData := s.hostData,
      draws := (softReset s).draws } := by
  unfold softReset
  split <;> rfl

/-- A new interruption changes no operand and no configuration of a command. -/
@[simp] theorem jobOf_nextDraw (i : Instr) (s : State) : jobOf i (nextDraw s) = jobOf i s := by cases i <;> rfl

/-- A soft reset changes no byte of DMEM outside the destination of the command in progress (R241). -/
theorem softReset_readByte_outside (s : State) {a : Nat}
    (h : ∀ j, jobInProgress (nextDraw s) = some j → a < j.dst.base ∨ j.dst.base + j.dst.bytes ≤ a) :
    readByte (softReset s).mem a = readByte s.mem a := by
  unfold softReset
  split
  · show readByte (stoppedMem _ (nextDraw s)) a = readByte (nextDraw s).mem a
    rcases stoppedMem_cases (Config.abortPoint s.draws) (nextDraw s) with hm | ⟨j, hj, -, ⟨xs, -, hl, hm⟩ | hm⟩ <;>
      rw [hm]
    · exact readByte_wrFs_outside _ (by rw [hl]; exact h j hj)
    · exact readByte_scramble_outside _ _ (h j hj)
  · rfl

end Sys2Proof.Machine
end

