-- ==== Sys2Proof/Laws/Float.lean ====
section
/-! SUPPORT. The value of a magnitude encoding, and that `floorMag` finds the encodings on either side of a ratio. -/

namespace Sys2Proof.Machine

/-- The value, in units of 2^-1074, of a finite encoding without its sign bit. -/
def magValue (m : Nat) : Nat :=
  if m / 2 ^ 52 = 0 then m % 2 ^ 52 else (2 ^ 52 + m % 2 ^ 52) * 2 ^ (m / 2 ^ 52 - 1)

theorem ofSignMag_toNat {neg : Bool} {m : Nat} (h : m < 2 ^ 63) :
    (ofSignMag neg m).toNat = (if neg then 2 ^ 63 else 0) + m := by
  unfold ofSignMag
  rw [BitVec.toNat_ofNat]
  split <;> exact Nat.mod_eq_of_lt (by omega)

theorem expField_ofSignMag {neg : Bool} {m : Nat} (h : m < 2 ^ 63) : expField (ofSignMag neg m) = m / 2 ^ 52 := by
  unfold expField
  rw [BitVec.extractLsb'_toNat, ofSignMag_toNat h, Nat.shiftRight_eq_div_pow]
  split <;> omega

theorem fracField_ofSignMag {neg : Bool} {m : Nat} (h : m < 2 ^ 63) : fracField (ofSignMag neg m) = m % 2 ^ 52 := by
  unfold fracField
  rw [BitVec.extractLsb'_toNat, ofSignMag_toNat h, Nat.shiftRight_eq_div_pow]
  split <;> omega

theorem signBit_ofSignMag {neg : Bool} {m : Nat} (h : m < 2 ^ 63) : signBit (ofSignMag neg m) = neg := by
  unfold signBit
  rw [← BitVec.testBit_toNat, ofSignMag_toNat h, Nat.testBit_eq_decide_div_mod_eq]
  cases neg
  · rw [if_neg (by decide), decide_eq_false]
    omega
  · rw [if_pos rfl, decide_eq_true]
    omega

theorem magUnits_ofSignMag {neg : Bool} {m : Nat} (h : m < 2 ^ 63) : magUnits (ofSignMag neg m) = magValue m := by
  unfold magUnits magValue
  rw [expField_ofSignMag h, fracField_ofSignMag h]

theorem isFinite_ofSignMag {neg : Bool} {m : Nat} (h : m < infMag) : isFinite (ofSignMag neg m) = true := by
  have h63 : m < 2 ^ 63 := lt_trans h (by decide)
  unfold isFinite
  rw [expField_ofSignMag h63]
  unfold infMag at h
  simp only [bne_iff_ne]
  omega

theorem units_ofSignMag {neg : Bool} {m : Nat} (h : m < 2 ^ 63) :
    units (ofSignMag neg m) = if neg then -(magValue m : Int) else magValue m := by
  unfold units
  rw [signBit_ofSignMag h, magUnits_ofSignMag h]

/-- Every finite encoding is its sign and a magnitude below infinity's. -/
theorem exists_ofSignMag {a : F64} (h : isFinite a = true) :
    ∃ m, m < infMag ∧ a = ofSignMag (signBit a) m := by
  refine ⟨a.toNat % 2 ^ 63, ?_, ?_⟩
  · unfold isFinite expField at h
    rw [BitVec.extractLsb'_toNat, Nat.shiftRight_eq_div_pow, bne_iff_ne] at h
    have := a.isLt
    unfold infMag
    omega
  · apply BitVec.eq_of_toNat_eq
    rw [ofSignMag_toNat (Nat.mod_lt _ (by decide))]
    unfold signBit
    rw [← BitVec.testBit_toNat, Nat.testBit_eq_decide_div_mod_eq]
    have := a.isLt
    by_cases hs : a.toNat / 2 ^ 63 % 2 = 1
    · rw [if_pos (by simpa using hs)]
      omega
    · rw [if_neg (by simpa using hs)]
      omega

/-- A significand of 53 bits (or fewer, with the smallest quantum) at quantum 2^k; 2^53 is the next one's 2^52. -/
theorem magValue_quantum {k q : Nat} (hq : q ≤ 2 ^ 53) (hk : k = 0 ∨ 2 ^ 52 ≤ q) :
    magValue (k * 2 ^ 52 + q) = q * 2 ^ k := by
  unfold magValue
  by_cases h53 : q = 2 ^ 53
  · subst h53
    rw [show k * 2 ^ 52 + 2 ^ 53 = (k + 2) * 2 ^ 52 by ring, Nat.mul_div_cancel _ (by positivity), Nat.mul_mod_left,
      if_neg (by omega), show k + 2 - 1 = k + 1 by omega]
    ring
  · by_cases h52 : q < 2 ^ 52
    · obtain rfl : k = 0 := by omega
      rw [if_pos (by omega), Nat.mod_eq_of_lt (by omega)]
      ring
    · have hdiv : (k * 2 ^ 52 + q) / 2 ^ 52 = k + 1 := by omega
      have hmod : (k * 2 ^ 52 + q) % 2 ^ 52 = q - 2 ^ 52 := by omega
      rw [hdiv, hmod, if_neg (by omega), show 2 ^ 52 + (q - 2 ^ 52) = q by omega, Nat.add_sub_cancel]

/-- A larger encoding has a larger value. -/
theorem magValue_strictMono : StrictMono magValue := by
  refine strictMono_nat_of_lt_succ fun m => ?_
  by_cases h : m < 2 ^ 52
  · have h0 := magValue_quantum (k := 0) (q := m) (by omega) (Or.inl rfl)
    have h1 := magValue_quantum (k := 0) (q := m + 1) (by omega) (Or.inl rfl)
    simp only [Nat.zero_mul, Nat.zero_add, pow_zero, Nat.mul_one] at h0 h1
    omega
  · obtain ⟨k, q, hm, hq, hq'⟩ : ∃ k q, m = k * 2 ^ 52 + q ∧ 2 ^ 52 ≤ q ∧ q < 2 ^ 53 :=
      ⟨m / 2 ^ 52 - 1, 2 ^ 52 + m % 2 ^ 52, by omega, by omega, by omega⟩
    subst hm
    rw [Nat.add_assoc, magValue_quantum hq'.le (Or.inr hq), magValue_quantum (by omega) (Or.inr (by omega))]
    exact Nat.mul_lt_mul_of_pos_right (Nat.lt_succ_self q) (by positivity)

/-- The significand that the quantum of a ratio leaves has at most 53 bits, and exactly 53 unless the quantum is the unit. -/
theorem quantum_significand (t : Nat) :
    t / 2 ^ quantumShift t < 2 ^ 53 ∧ (quantumShift t = 0 ∨ 2 ^ 52 ≤ t / 2 ^ quantumShift t) := by
  unfold quantumShift
  by_cases h : Nat.log2 t ≤ 52
  · rw [Nat.sub_eq_zero_of_le h, pow_zero, Nat.div_one]
    refine ⟨?_, Or.inl rfl⟩
    calc t < 2 ^ (Nat.log2 t + 1) := Nat.lt_log2_self
      _ ≤ 2 ^ 53 := Nat.pow_le_pow_right (by norm_num) (by omega)
  · have ht : t ≠ 0 := by
      rintro rfl
      simp at h
    refine ⟨?_, Or.inr ?_⟩
    · rw [Nat.div_lt_iff_lt_mul (by positivity), ← pow_add]
      calc t < 2 ^ (Nat.log2 t + 1) := Nat.lt_log2_self
        _ = 2 ^ (53 + (Nat.log2 t - 52)) := by congr 1; omega
    · rw [Nat.le_div_iff_mul_le (by positivity), ← pow_add]
      calc 2 ^ (52 + (Nat.log2 t - 52)) = 2 ^ Nat.log2 t := by congr 1; omega
        _ ≤ t := Nat.log2_self_le ht

/-- `floorMag` and the encoding after it are on either side of the ratio. -/
theorem floorMag_bounds (n : Nat) {d : Nat} (hd : 0 < d) :
    magValue (floorMag n d) * d ≤ n ∧ n < magValue (floorMag n d + 1) * d := by
  have hq := quantum_significand (n / d)
  unfold floorMag
  simp only
  generalize quantumShift (n / d) = k at *
  rw [Nat.div_div_eq_div_mul] at hq
  have hpos : 0 < d * 2 ^ k := by positivity
  have lo := Nat.div_mul_le_self n (d * 2 ^ k)
  have hi := Nat.lt_div_mul_add hpos (a := n)
  rw [Nat.add_assoc, magValue_quantum hq.1.le hq.2, magValue_quantum (by omega) (by omega)]
  constructor
  · calc _ = n / (d * 2 ^ k) * (d * 2 ^ k) := by ring
      _ ≤ n := lo
  · calc n < n / (d * 2 ^ k) * (d * 2 ^ k) + d * 2 ^ k := hi
      _ = _ := by ring

end Sys2Proof.Machine
end

