-- ==== Sys2Proof/Laws/PerInstr.lean ====
section
/-! SUPPORT. Facts about each command as syntax, one lemma per constructor. -/

namespace Sys2Proof.Laws

/-- The encoding of a well-formed command passes the checks of spec/30_encoding.md R88 (1) to (3): a
defined opcode, only its own FLAGS bits, every reserved word 0. -/
def EncodingPassesChecks.Statement (i : Instr) : Prop :=
  i.wellFormed = true →
    (encode i).high = 0 ∧ firstNonzero (encode i).reserved = none ∧
      (freeFlags (encode i).opc).map (fun free => (encode i).flags &&& ~~~free) = some 0

namespace EncodingPassesChecks

theorem endList : Statement (.endList) := by
  intro _
  simp [encode, Descriptor.high, Descriptor.flags, Descriptor.opc, freeFlags, Descriptor.reserved,
    Descriptor.wordsFrom, firstNonzero]

theorem nop : Statement (.nop) := by
  intro _
  simp [encode, Descriptor.high, Descriptor.flags, Descriptor.opc, freeFlags, Descriptor.reserved,
    Descriptor.wordsFrom, firstNonzero]

theorem setcfg (reg : CfgReg) (vlo vhi : Word) : Statement (.setcfg reg vlo vhi) := by
  intro h
  cases reg <;>
    simp_all [Instr.wellFormed, vhiAllowed, CfgReg.wide, encode, Descriptor.high, Descriptor.flags, Descriptor.opc,
      freeFlags, indexOfCfgReg, Descriptor.reserved, Descriptor.wordsFrom, firstNonzero]

theorem stft (dst src len : Word) : Statement (.stft dst src len) := by
  intro _
  simp [encode, Descriptor.high, Descriptor.flags, Descriptor.opc, freeFlags, Descriptor.reserved,
    Descriptor.wordsFrom, firstNonzero]

theorem istft (dst src frames bins outlen : Word) : Statement (.istft dst src frames bins outlen) := by
  intro _
  simp [encode, Descriptor.high, Descriptor.flags, Descriptor.opc, freeFlags, Descriptor.reserved,
    Descriptor.wordsFrom, firstNonzero]

theorem fft (inCplx : Bool) (dst src len : Word) : Statement (.fft inCplx dst src len) := by
  intro _
  cases inCplx <;> simp [encode, Descriptor.high, Descriptor.flags, Descriptor.opc, freeFlags, headerWord, Descriptor.reserved,
    Descriptor.wordsFrom, firstNonzero]

theorem ifft (outRe : Bool) (dst src len : Word) : Statement (.ifft outRe dst src len) := by
  intro _
  cases outRe <;> simp [encode, Descriptor.high, Descriptor.flags, Descriptor.opc, freeFlags, headerWord, Descriptor.reserved,
    Descriptor.wordsFrom, firstNonzero]

theorem firgenLp (dst : Word) : Statement (.firgenLp dst) := by
  intro _
  simp [encode, Descriptor.high, Descriptor.flags, Descriptor.opc, freeFlags, Descriptor.reserved,
    Descriptor.wordsFrom, firstNonzero]

theorem firgenHp (dst : Word) : Statement (.firgenHp dst) := by
  intro _
  simp [encode, Descriptor.high, Descriptor.flags, Descriptor.opc, freeFlags, headerWord, Descriptor.reserved,
    Descriptor.wordsFrom, firstNonzero]

theorem conv (xc fc outRe : Bool) (dst x n f m : Word) : Statement (.conv xc fc outRe dst x n f m) := by
  intro _
  cases xc <;> cases fc <;> cases outRe <;> simp [encode, Descriptor.high, Descriptor.flags, Descriptor.opc, freeFlags, headerWord, Descriptor.reserved,
    Descriptor.wordsFrom, firstNonzero]

theorem convFast (xc fc outRe : Bool) (dst x n f m : Word) : Statement (.convFast xc fc outRe dst x n f m) := by
  intro _
  cases xc <;> cases fc <;> cases outRe <;> simp [encode, Descriptor.high, Descriptor.flags, Descriptor.opc, freeFlags, headerWord, Descriptor.reserved,
    Descriptor.wordsFrom, firstNonzero]

end EncodingPassesChecks

end Sys2Proof.Laws
end

