-- ==== Sys2Proof/Laws/TrigSound.lean ====
section
/-! SUPPORT. The fixed-point enclosures of Machine/Trig.lean hold the real values they enclose: pi by
Machin's formula, sine and cosine by their Taylor series, and the sine of (pi/2)(a/b) of `quadrantSin`. -/

namespace Sys2Proof.Machine

open Finset

/-! ## Pi -/

theorem natDiv_le_real (n d : Nat) : ((n / d : Nat) : ℝ) ≤ (n : ℝ) / d := Nat.cast_div_le

theorem real_lt_natDiv_add_one (n : Nat) {d : Nat} (hd : 0 < d) : (n : ℝ) / d < ((n / d : Nat) : ℝ) + 1 := by
  rw [div_lt_iff₀ (by exact_mod_cast hd)]
  exact_mod_cast Nat.lt_mul_of_div_lt (Nat.lt_succ_self _) hd

theorem alternating_sum_succ (f : Nat → ℝ) (K : Nat) :
    ∑ i ∈ range (K + 1), (-1) ^ i * f i = f 0 - ∑ i ∈ range K, (-1) ^ i * f (i + 1) := by
  rw [sum_range_succ', ← neg_add_eq_sub, ← sum_neg_distrib]
  simp [pow_succ]

/-- The terms of the arctangent series of 1/m. -/
noncomputable def arctanTerm (m k : Nat) : ℝ := ((m : ℝ)⁻¹) ^ (2 * k + 1) / (2 * k + 1 : ℕ)

/-- The fixed-point sum is within one unit a term of the sum of the series. -/
theorem arctanInvSum_error (p : Nat) {m : Nat} (hm : 0 < m) : ∀ K k,
    |(arctanInvSum p m K k (m ^ (2 * k + 1)) : ℝ) - 2 ^ p * ∑ i ∈ range K, (-1) ^ i * arctanTerm m (k + i)| ≤ K
  | 0, k => by simp [arctanInvSum]
  | K + 1, k => by
    have hpw : m ^ (2 * k + 1) * m ^ 2 = m ^ (2 * (k + 1) + 1) := by ring
    have hd : 0 < (2 * k + 1) * m ^ (2 * k + 1) := by positivity
    have lo := natDiv_le_real (2 ^ p) ((2 * k + 1) * m ^ (2 * k + 1))
    have hi := real_lt_natDiv_add_one (2 ^ p) hd
    have term : ((2 ^ p : ℕ) : ℝ) / (((2 * k + 1) * m ^ (2 * k + 1) : ℕ) : ℝ) = 2 ^ p * arctanTerm m k := by
      have : (m : ℝ) ≠ 0 := by exact_mod_cast hm.ne'
      unfold arctanTerm
      push_cast
      rw [inv_pow]
      field_simp
    have rest := abs_le.mp (arctanInvSum_error p hm K (k + 1))
    have unfolded : (arctanInvSum p m (K + 1) k (m ^ (2 * k + 1)) : ℝ) =
        ((2 ^ p / ((2 * k + 1) * m ^ (2 * k + 1)) : ℕ) : ℝ) - arctanInvSum p m K (k + 1) (m ^ (2 * (k + 1) + 1)) := by
      rw [arctanInvSum, hpw, Int.cast_sub, Int.cast_natCast]
    have shift : ∀ i, k + 1 + i = k + (i + 1) := fun i => by omega
    simp only [shift] at rest
    rw [term] at lo hi
    rw [alternating_sum_succ, unfolded, mul_sub, Nat.add_zero k, Nat.cast_succ, abs_le]
    constructor <;> linarith [rest.1, rest.2]

/-- The error of the arctangent series of 1/m cut after K terms. -/
theorem arctan_series_error {m : Nat} (hm : 2 ≤ m) (K : Nat) :
    |Real.arctan (m : ℝ)⁻¹ - ∑ i ∈ range K, (-1) ^ i * arctanTerm m i| ≤ arctanTerm m K := by
  have hm' : (2 : ℝ) ≤ m := by exact_mod_cast hm
  have h0 : (0 : ℝ) ≤ (m : ℝ)⁻¹ := by positivity
  have h1 : (m : ℝ)⁻¹ < 1 := inv_lt_one_of_one_lt₀ (by linarith)
  have hs := Real.hasSum_arctan (x := (m : ℝ)⁻¹) (by rw [Real.norm_eq_abs, abs_of_nonneg h0]; exact h1)
  have hs' : HasSum (fun n => (-1 : ℝ) ^ n * arctanTerm m n) (Real.arctan (m : ℝ)⁻¹) := by
    simpa only [arctanTerm, mul_div_assoc] using hs
  have anti : Antitone (arctanTerm m) := by
    refine antitone_nat_of_succ_le fun n => ?_
    unfold arctanTerm
    apply div_le_div₀ (by positivity) _ (by positivity) _
    · exact pow_le_pow_of_le_one h0 h1.le (by omega)
    · exact_mod_cast (by omega : 2 * n + 1 ≤ 2 * (n + 1) + 1)
  have nonneg : ∀ n, 0 ≤ arctanTerm m n := fun n => by unfold arctanTerm; positivity
  have summ : Summable (arctanTerm m) := by
    have := hs'.summable.abs
    simpa [abs_mul, abs_of_nonneg (nonneg _)] using this
  simpa only [hs'.tsum_eq] using alternating_series_error_bound (arctanTerm m) anti summ K

/-- The first term left out is below one unit. -/
theorem arctanTerm_small {m : Nat} (hm : 4 ≤ m) (p : Nat) : 2 ^ p * arctanTerm m (piTerms p) ≤ 1 := by
  have hm' : (4 : ℝ) ≤ m := by exact_mod_cast hm
  have h0 : (0 : ℝ) ≤ (m : ℝ)⁻¹ := by positivity
  have h4 : (m : ℝ)⁻¹ ≤ 2⁻¹ ^ 2 := by
    rw [show ((2 : ℝ)⁻¹) ^ 2 = 4⁻¹ by norm_num]
    exact inv_anti₀ (by norm_num) hm'
  have hpow : (m : ℝ)⁻¹ ^ (2 * piTerms p + 1) ≤ 2⁻¹ ^ p := by
    calc (m : ℝ)⁻¹ ^ (2 * piTerms p + 1) ≤ (2⁻¹ ^ 2) ^ (2 * piTerms p + 1) := pow_le_pow_left₀ h0 h4 _
      _ = 2⁻¹ ^ (2 * (2 * piTerms p + 1)) := (pow_mul _ _ _).symm
      _ ≤ 2⁻¹ ^ p := pow_le_pow_of_le_one (by norm_num) (by norm_num) (by unfold piTerms; omega)
  have hden : (1 : ℝ) ≤ (2 * piTerms p + 1 : ℕ) := by exact_mod_cast Nat.le_add_left 1 _
  calc 2 ^ p * arctanTerm m (piTerms p) ≤ 2 ^ p * (m : ℝ)⁻¹ ^ (2 * piTerms p + 1) := by
        unfold arctanTerm
        gcongr
        exact div_le_self (by positivity) hden
    _ ≤ 2 ^ p * 2⁻¹ ^ p := by gcongr
    _ = 1 := by rw [← mul_pow]; norm_num

/-- A fixed-point arctangent of 1/m is within one unit a term and one more. -/
theorem arctanFixed_error {m : Nat} (hm : 4 ≤ m) (p : Nat) :
    |(arctanInvSum p m (piTerms p) 0 m : ℝ) - 2 ^ p * Real.arctan (m : ℝ)⁻¹| ≤ piTerms p + 1 := by
  have h1 := abs_le.mp (arctanInvSum_error p (by omega : 0 < m) (piTerms p) 0)
  have h2 := abs_le.mp (arctan_series_error (by omega : 2 ≤ m) (piTerms p))
  have h3 := arctanTerm_small hm p
  have hp : (0 : ℝ) < 2 ^ p := by positivity
  simp only [Nat.mul_zero, Nat.zero_add, pow_one] at h1
  rw [abs_le]
  constructor <;> nlinarith [mul_le_mul_of_nonneg_left h2.1 hp.le, mul_le_mul_of_nonneg_left h2.2 hp.le]

/-- Machin's formula in fixed point. -/
theorem piFixed_error (p : Nat) : |(piFixed p : ℝ) - 2 ^ p * Real.pi| ≤ piError p := by
  have h5 := abs_le.mp (arctanFixed_error (by norm_num : 4 ≤ 5) p)
  have h239 := abs_le.mp (arctanFixed_error (by norm_num : 4 ≤ 239) p)
  have machin := Real.four_mul_arctan_inv_5_sub_arctan_inv_239
  have hpi : Real.pi = 16 * Real.arctan ((5 : ℕ) : ℝ)⁻¹ - 4 * Real.arctan ((239 : ℕ) : ℝ)⁻¹ := by
    push_cast
    linarith
  rw [hpi]
  unfold piFixed piError
  push_cast at *
  rw [abs_le]
  constructor <;> linarith [h5.1, h5.2, h239.1, h239.2]

/-! ## Sine and cosine -/

/-- The fixed-point Taylor sum is within two units a term of the sum of the exact terms `U`. -/
theorem taylorSum_error (p : Nat) {th : Nat} (hth : th ≤ 2 ^ p) : ∀ (K j t : Nat) (U : Nat → ℝ),
    (∀ i, U (i + 1) = U i * (((th : ℝ) / 2 ^ p) ^ 2 / ((j + 2 * i + 1) * (j + 2 * i + 2)))) →
    (t : ℝ) ≤ U 0 → U 0 ≤ t + 2 →
    |(taylorSum p th K j t : ℝ) - ∑ i ∈ range K, (-1) ^ i * U i| ≤ 2 * K
  | 0, _, _, _, _, _, _ => by simp [taylorSum]
  | K + 1, j, t, U, hU, hlo, hhi => by
    have hx0 : (0 : ℝ) ≤ (th : ℝ) / 2 ^ p := by positivity
    have hx1 : (th : ℝ) / 2 ^ p ≤ 1 := by
      rw [div_le_one (by positivity)]
      exact_mod_cast hth
    have hd : 0 < 2 ^ (2 * p) * ((j + 1) * (j + 2)) := by positivity
    have lo := natDiv_le_real (t * th ^ 2) (2 ^ (2 * p) * ((j + 1) * (j + 2)))
    have hi := real_lt_natDiv_add_one (t * th ^ 2) hd
    have ratio : ((t * th ^ 2 : ℕ) : ℝ) / ((2 ^ (2 * p) * ((j + 1) * (j + 2)) : ℕ) : ℝ) =
        t * (((th : ℝ) / 2 ^ p) ^ 2 / ((j + 1) * (j + 2))) := by
      push_cast
      rw [pow_mul', div_pow]
      field_simp
    rw [ratio] at lo hi
    have c0 : (0 : ℝ) ≤ ((th : ℝ) / 2 ^ p) ^ 2 / ((j + 1) * (j + 2)) := by positivity
    have c1 : ((th : ℝ) / 2 ^ p) ^ 2 / ((j + 1) * (j + 2)) ≤ 1 / 2 := by
      have : ((th : ℝ) / 2 ^ p) ^ 2 ≤ 1 := pow_le_one₀ hx0 hx1
      have hj : (0 : ℝ) ≤ j := Nat.cast_nonneg j
      rw [div_le_div_iff₀ (by positivity) (by norm_num)]
      nlinarith
    have hU0 : U 1 = U 0 * (((th : ℝ) / 2 ^ p) ^ 2 / ((j + 1) * (j + 2))) := by simpa using hU 0
    have rest := abs_le.mp (taylorSum_error p hth K (j + 2) (t * th ^ 2 / (2 ^ (2 * p) * ((j + 1) * (j + 2))))
      (fun i => U (i + 1))
      (fun i => by
        have := hU (i + 1)
        push_cast at this ⊢
        rw [this]
        ring_nf)
      (by
        simp only [Nat.zero_add]
        rw [hU0]
        nlinarith)
      (by
        simp only [Nat.zero_add]
        rw [hU0]
        nlinarith))
    have unfolded : (taylorSum p th (K + 1) j t : ℝ) =
        (t : ℝ) - taylorSum p th K (j + 2) (t * th ^ 2 / (2 ^ (2 * p) * ((j + 1) * (j + 2)))) := by
      rw [taylorSum, Int.cast_sub, Int.cast_natCast]
    rw [alternating_sum_succ, unfolded, Nat.cast_succ, abs_le]
    constructor <;> linarith [rest.1, rest.2]

/-- The error of an alternating series of decreasing terms cut after n of them. -/
theorem alternating_hasSum_error {f : Nat → ℝ} {v : ℝ} (hf : HasSum (fun i => (-1) ^ i * f i) v) (anti : Antitone f)
    (summ : Summable f) (n : Nat) : |v - ∑ i ∈ range n, (-1) ^ i * f i| ≤ f n := by
  simpa only [hf.tsum_eq] using alternating_series_error_bound f anti summ n

theorem taylorTerm_antitone {x : ℝ} (h0 : 0 ≤ x) (h1 : x ≤ 1) (c : Nat) :
    Antitone fun i => x ^ (2 * i + c) / ((2 * i + c).factorial : ℝ) := by
  refine antitone_nat_of_succ_le fun n => ?_
  apply div_le_div₀ (by positivity) _ (by positivity) _
  · exact pow_le_pow_of_le_one h0 h1 (by omega)
  · exact_mod_cast Nat.factorial_le (by omega)

theorem sin_series_error {x : ℝ} (h0 : 0 ≤ x) (h1 : x ≤ 1) (n : Nat) :
    |Real.sin x - ∑ i ∈ range n, (-1) ^ i * (x ^ (2 * i + 1) / ((2 * i + 1).factorial : ℝ))| ≤
      x ^ (2 * n + 1) / ((2 * n + 1).factorial : ℝ) :=
  alternating_hasSum_error (by simpa only [mul_div_assoc] using Real.hasSum_sin x) (taylorTerm_antitone h0 h1 1)
    (Real.hasSum_sinh x).summable n

theorem cos_series_error {x : ℝ} (h0 : 0 ≤ x) (h1 : x ≤ 1) (n : Nat) :
    |Real.cos x - ∑ i ∈ range n, (-1) ^ i * (x ^ (2 * i) / ((2 * i).factorial : ℝ))| ≤
      x ^ (2 * n) / ((2 * n).factorial : ℝ) :=
  alternating_hasSum_error (f := fun i => x ^ (2 * i) / ((2 * i).factorial : ℝ))
    (by simpa only [mul_div_assoc] using Real.hasSum_cos x) (by simpa using taylorTerm_antitone h0 h1 0)
    (Real.hasSum_cosh x).summable n

theorem pow_le_factorial (q : Nat) : 128 * 16 ^ (2 * q) ≤ (2 * q + 16).factorial := by
  induction q with
  | zero => decide
  | succ q ih =>
    rw [show 2 * (q + 1) + 16 = (2 * q + 16) + 1 + 1 by ring, Nat.factorial_succ, Nat.factorial_succ]
    calc 128 * 16 ^ (2 * (q + 1)) = 16 * (16 * (128 * 16 ^ (2 * q))) := by ring
      _ ≤ _ := Nat.mul_le_mul (by omega) (Nat.mul_le_mul (by omega) ih)

/-- The first Taylor term left out is below two units. -/
theorem taylorTerm_small {x : ℝ} (h0 : 0 ≤ x) (h1 : x ≤ 1) (p c : Nat) :
    2 ^ p * (x ^ (2 * taylorTerms p + c) / ((2 * taylorTerms p + c).factorial : ℝ)) ≤ 2 := by
  have hfac : 2 ^ p ≤ (2 * taylorTerms p + c).factorial := by
    calc 2 ^ p ≤ 2 ^ (8 * (p / 8) + 7) := Nat.pow_le_pow_right (by norm_num) (by omega)
      _ = 128 * 16 ^ (2 * (p / 8)) := by rw [show (16 : Nat) = 2 ^ 4 by norm_num, ← pow_mul, pow_add]; ring
      _ ≤ (2 * (p / 8) + 16).factorial := pow_le_factorial _
      _ ≤ _ := Nat.factorial_le (by unfold taylorTerms; omega)
  have hfac' : (2 : ℝ) ^ p ≤ ((2 * taylorTerms p + c).factorial : ℝ) := by exact_mod_cast hfac
  have hpow : x ^ (2 * taylorTerms p + c) ≤ 1 := pow_le_one₀ h0 h1
  have hpos : (0 : ℝ) < ((2 * taylorTerms p + c).factorial : ℝ) := by positivity
  rw [mul_div_assoc', div_le_iff₀ hpos]
  have := pow_nonneg h0 (2 * taylorTerms p + c)
  nlinarith [pow_pos (two_pos : (0 : ℝ) < 2) p]

theorem taylorTerm_succ (y : ℝ) (c i : Nat) (P : ℝ) :
    P * (y ^ (2 * (i + 1) + c) / ((2 * (i + 1) + c).factorial : ℝ)) =
      P * (y ^ (2 * i + c) / ((2 * i + c).factorial : ℝ)) * (y ^ 2 / ((c + 2 * i + 1) * (c + 2 * i + 2))) := by
  rw [show 2 * (i + 1) + c = (2 * i + c) + 1 + 1 by ring, Nat.factorial_succ, Nat.factorial_succ, pow_succ, pow_succ]
  have : ((2 * i + c).factorial : ℝ) ≠ 0 := by positivity
  push_cast
  field_simp
  ring

/-- The fixed-point sine of an angle up to 1. -/
theorem sinFixed_error (p : Nat) {th : Nat} (hth : th ≤ 2 ^ p) :
    |(sinFixed p th : ℝ) - 2 ^ p * Real.sin ((th : ℝ) / 2 ^ p)| ≤ taylorError p := by
  have hp : (0 : ℝ) < 2 ^ p := by positivity
  have h0 : (0 : ℝ) ≤ (th : ℝ) / 2 ^ p := by positivity
  have h1 : (th : ℝ) / 2 ^ p ≤ 1 := by
    rw [div_le_one hp]
    exact_mod_cast hth
  have hsum := abs_le.mp (taylorSum_error p hth (taylorTerms p) 1 th
    (fun i => 2 ^ p * (((th : ℝ) / 2 ^ p) ^ (2 * i + 1) / ((2 * i + 1).factorial : ℝ)))
    (fun i => by simpa using taylorTerm_succ ((th : ℝ) / 2 ^ p) 1 i (2 ^ p))
    (by
      simp only [Nat.mul_zero, Nat.zero_add, pow_one, Nat.factorial_one, Nat.cast_one, div_one]
      rw [mul_div_cancel₀ _ hp.ne'])
    (by
      simp only [Nat.mul_zero, Nat.zero_add, pow_one, Nat.factorial_one, Nat.cast_one, div_one]
      rw [mul_div_cancel₀ _ hp.ne']
      linarith))
  have hser := abs_le.mp (sin_series_error h0 h1 (taylorTerms p))
  have htail := taylorTerm_small h0 h1 p 1
  have factor : ∑ i ∈ range (taylorTerms p), (-1 : ℝ) ^ i *
        (2 ^ p * (((th : ℝ) / 2 ^ p) ^ (2 * i + 1) / ((2 * i + 1).factorial : ℝ))) =
      2 ^ p * ∑ i ∈ range (taylorTerms p), (-1) ^ i *
        (((th : ℝ) / 2 ^ p) ^ (2 * i + 1) / ((2 * i + 1).factorial : ℝ)) := by
    rw [mul_sum]
    exact sum_congr rfl fun i _ => by ring
  rw [factor] at hsum
  unfold sinFixed taylorError
  push_cast
  rw [abs_le]
  constructor <;> nlinarith [mul_le_mul_of_nonneg_left hser.1 hp.le, mul_le_mul_of_nonneg_left hser.2 hp.le]

/-- The fixed-point cosine of an angle up to 1. -/
theorem cosFixed_error (p : Nat) {th : Nat} (hth : th ≤ 2 ^ p) :
    |(cosFixed p th : ℝ) - 2 ^ p * Real.cos ((th : ℝ) / 2 ^ p)| ≤ taylorError p := by
  have hp : (0 : ℝ) < 2 ^ p := by positivity
  have h0 : (0 : ℝ) ≤ (th : ℝ) / 2 ^ p := by positivity
  have h1 : (th : ℝ) / 2 ^ p ≤ 1 := by
    rw [div_le_one hp]
    exact_mod_cast hth
  have hsum := abs_le.mp (taylorSum_error p hth (taylorTerms p) 0 (2 ^ p)
    (fun i => 2 ^ p * (((th : ℝ) / 2 ^ p) ^ (2 * i) / ((2 * i).factorial : ℝ)))
    (fun i => by simpa using taylorTerm_succ ((th : ℝ) / 2 ^ p) 0 i (2 ^ p))
    (by simp) (by simp))
  have hser := abs_le.mp (cos_series_error h0 h1 (taylorTerms p))
  have htail := taylorTerm_small h0 h1 p 0
  have factor : ∑ i ∈ range (taylorTerms p), (-1 : ℝ) ^ i *
        (2 ^ p * (((th : ℝ) / 2 ^ p) ^ (2 * i) / ((2 * i).factorial : ℝ))) =
      2 ^ p * ∑ i ∈ range (taylorTerms p), (-1) ^ i * (((th : ℝ) / 2 ^ p) ^ (2 * i) / ((2 * i).factorial : ℝ)) := by
    rw [mul_sum]
    exact sum_congr rfl fun i _ => by ring
  rw [factor] at hsum
  simp only [Nat.add_zero] at htail
  unfold cosFixed taylorError
  push_cast
  rw [abs_le]
  constructor <;> nlinarith [mul_le_mul_of_nonneg_left hser.1 hp.le, mul_le_mul_of_nonneg_left hser.2 hp.le]

/-! ## The enclosure of a quadrant -/

/-- The angle (pi/2)(a/b). -/
noncomputable def quadrantAngle (a b : Nat) : ℝ := Real.pi / 2 * ((a : ℝ) / b)

theorem angleLo_le (a p : Nat) {b : Nat} (hb : 0 < b) : (angleLo a b p : ℝ) ≤ 2 ^ p * quadrantAngle a b := by
  have hpi := abs_le.mp (piFixed_error p)
  have hb' : (0 : ℝ) < b := by exact_mod_cast hb
  have hz : (((piFixed p - piError p).toNat : ℕ) : ℝ) ≤ 2 ^ p * Real.pi := by
    have : (((piFixed p - piError p).toNat : ℕ) : ℝ) = max ((piFixed p : ℝ) - piError p) 0 := by
      rw [← Int.cast_natCast, Int.toNat_eq_max]
      push_cast
      rfl
    rw [this]
    exact max_le (by linarith [hpi.2]) (by positivity)
  calc (angleLo a b p : ℝ) ≤ (((piFixed p - piError p).toNat * a : ℕ) : ℝ) / (2 * b : ℕ) := natDiv_le_real _ _
    _ ≤ 2 ^ p * Real.pi * a / (2 * b) := by
      push_cast
      gcongr
    _ = 2 ^ p * quadrantAngle a b := by
      unfold quadrantAngle
      field_simp

theorem le_angleHi (a p : Nat) {b : Nat} (hb : 0 < b) : 2 ^ p * quadrantAngle a b ≤ (angleHi a b p : ℝ) := by
  have hpi := abs_le.mp (piFixed_error p)
  have hb' : (0 : ℝ) < b := by exact_mod_cast hb
  have hz : 2 ^ p * Real.pi ≤ (((piFixed p + piError p).toNat : ℕ) : ℝ) := by
    have : ((piFixed p : ℝ) + piError p) ≤ (((piFixed p + piError p).toNat : ℕ) : ℝ) := by
      have := Int.self_le_toNat (piFixed p + piError p)
      exact_mod_cast this
    linarith [hpi.1]
  have hi := real_lt_natDiv_add_one ((piFixed p + piError p).toNat * a) (by omega : 0 < 2 * b)
  calc 2 ^ p * quadrantAngle a b = 2 ^ p * Real.pi * a / (2 * b) := by
        unfold quadrantAngle
        field_simp
    _ ≤ (((piFixed p + piError p).toNat * a : ℕ) : ℝ) / (2 * b : ℕ) := by
      push_cast
      gcongr
    _ ≤ _ := by
      unfold angleHi
      push_cast at hi ⊢
      exact hi.le

theorem pow_large {p : Nat} (hp : 128 ≤ p) : 64 * p + 1000 ≤ 2 ^ p := by
  induction p, hp using Nat.le_induction with
  | base => norm_num
  | succ p _ ih => rw [pow_succ]; omega

/-- Up to half a right angle the fixed-point angle stays below 1. -/
theorem angleHi_le_one {a b p : Nat} (hb : 0 < b) (hab : 2 * a ≤ b) (hp : 128 ≤ p) : angleHi a b p ≤ 2 ^ p := by
  have hpi := abs_le.mp (piFixed_error p)
  have hb' : (0 : ℝ) < b := by exact_mod_cast hb
  have hab' : 2 * (a : ℝ) ≤ b := by exact_mod_cast hab
  have hlarge : 64 * (p : ℝ) + 1000 ≤ 2 ^ p := by exact_mod_cast pow_large hp
  have herr : (piError p : ℝ) ≤ 5 * p + 60 := by
    have : piError p ≤ 5 * p + 60 := by unfold piError piTerms; omega
    exact_mod_cast this
  have hpos : (0 : ℝ) ≤ (piFixed p : ℝ) + piError p := by
    have := mul_pos (pow_pos (two_pos : (0 : ℝ) < 2) p) Real.pi_pos
    linarith [hpi.1]
  have hz : (((piFixed p + piError p).toNat : ℕ) : ℝ) = (piFixed p : ℝ) + piError p := by
    rw [← Int.cast_natCast, Int.toNat_of_nonneg (by exact_mod_cast hpos)]
    push_cast
    rfl
  have hupper : (piFixed p : ℝ) + piError p ≤ 4 * (2 ^ p - 1) := by
    have := Real.pi_lt_d2
    nlinarith [hpi.2]
  have key : (((piFixed p + piError p).toNat * a / (2 * b) : ℕ) : ℝ) ≤ 2 ^ p - 1 := by
    refine (natDiv_le_real _ _).trans ?_
    push_cast
    rw [hz, div_le_iff₀ (by positivity)]
    have ha : (0 : ℝ) ≤ a := Nat.cast_nonneg a
    have h1 : (1 : ℝ) ≤ 2 ^ p := one_le_pow₀ (by norm_num)
    calc ((piFixed p : ℝ) + piError p) * a ≤ 4 * (2 ^ p - 1) * a := by gcongr
      _ ≤ (2 ^ p - 1) * (2 * b) := by nlinarith
  have : ((angleHi a b p : ℕ) : ℝ) ≤ ((2 ^ p : ℕ) : ℝ) := by
    unfold angleHi
    push_cast at key ⊢
    linarith
  exact_mod_cast this

theorem angleLo_le_angleHi {a b p : Nat} (hb : 0 < b) : angleLo a b p ≤ angleHi a b p := by
  have := (angleLo_le a p hb).trans (le_angleHi a p hb)
  exact_mod_cast this

theorem toNat_sub_le {x : Int} {e : Nat} {v : ℝ} (hv : 0 ≤ v) (h : |(x : ℝ) - v| ≤ e) : (((x - e).toNat : ℕ) : ℝ) ≤ v := by
  have h' := abs_le.mp h
  have : (((x - e).toNat : ℕ) : ℝ) = max ((x : ℝ) - e) 0 := by
    rw [← Int.cast_natCast, Int.toNat_eq_max]
    push_cast
    rfl
  rw [this]
  exact max_le (by linarith [h'.2]) hv

theorem le_toNat_add {x : Int} {e : Nat} {v : ℝ} (h : |(x : ℝ) - v| ≤ e) : v ≤ (((x + e).toNat : ℕ) : ℝ) := by
  have h' := abs_le.mp h
  have : ((x : ℝ) + e) ≤ (((x + e).toNat : ℕ) : ℝ) := by
    have := Int.self_le_toNat (x + e)
    exact_mod_cast this
  linarith [h'.1]

theorem quadrantAngle_nonneg (a b : Nat) : 0 ≤ quadrantAngle a b := by
  unfold quadrantAngle
  have := Real.pi_pos
  positivity

theorem quadrantAngle_complement {a b : Nat} (hb : 0 < b) (hab : a ≤ b) :
    quadrantAngle (b - a) b = Real.pi / 2 - quadrantAngle a b := by
  have hb' : (b : ℝ) ≠ 0 := by exact_mod_cast hb.ne'
  unfold quadrantAngle
  rw [Nat.cast_sub hab]
  field_simp

/-- The two ends of `quadrantSin` hold sin((pi/2)(a/b)), scaled by 2^p. -/
theorem quadrantSin_encloses {a b p : Nat} (hb : 0 < b) (hab : a ≤ b) (hp : 128 ≤ p) :
    ((quadrantSin a b p).1 : ℝ) ≤ 2 ^ p * Real.sin (quadrantAngle a b) ∧
      2 ^ p * Real.sin (quadrantAngle a b) ≤ ((quadrantSin a b p).2 : ℝ) := by
  have hp2 : (0 : ℝ) < 2 ^ p := by positivity
  have bounds : ∀ c, 2 * c ≤ b →
      0 ≤ (angleLo c b p : ℝ) / 2 ^ p ∧ (angleLo c b p : ℝ) / 2 ^ p ≤ quadrantAngle c b ∧
      quadrantAngle c b ≤ (angleHi c b p : ℝ) / 2 ^ p ∧ (angleHi c b p : ℝ) / 2 ^ p ≤ 1 := by
    intro c hc
    refine ⟨by positivity, ?_, ?_, ?_⟩
    · rw [div_le_iff₀ hp2, mul_comm]
      exact angleLo_le c p hb
    · rw [le_div_iff₀ hp2, mul_comm]
      exact le_angleHi c p hb
    · rw [div_le_one hp2]
      exact_mod_cast angleHi_le_one hb hc hp
  have hpi := Real.pi_gt_three
  unfold quadrantSin
  by_cases half : 2 * a ≤ b
  · rw [if_pos half]
    obtain ⟨l0, l1, h0, h1⟩ := bounds a half
    have hlo := sinFixed_error p ((angleLo_le_angleHi hb).trans (angleHi_le_one hb half hp))
    have hhi := sinFixed_error p (angleHi_le_one hb half hp)
    constructor
    · refine (toNat_sub_le ?_ hlo).trans ?_
      · exact mul_nonneg hp2.le (Real.sin_nonneg_of_nonneg_of_le_pi l0 (by linarith))
      · exact mul_le_mul_of_nonneg_left (Real.sin_le_sin_of_le_of_le_pi_div_two (by linarith) (by linarith) l1) hp2.le
    · refine le_trans ?_ (le_toNat_add hhi)
      have := quadrantAngle_nonneg a b
      exact mul_le_mul_of_nonneg_left (Real.sin_le_sin_of_le_of_le_pi_div_two (by linarith) (by linarith) h0) hp2.le
  · rw [if_neg half]
    have hc : 2 * (b - a) ≤ b := by omega
    obtain ⟨l0, l1, h0, h1⟩ := bounds (b - a) hc
    have hlo := cosFixed_error p ((angleLo_le_angleHi hb).trans (angleHi_le_one hb hc hp))
    have hhi := cosFixed_error p (angleHi_le_one hb hc hp)
    have hsin : Real.sin (quadrantAngle a b) = Real.cos (quadrantAngle (b - a) b) := by
      rw [quadrantAngle_complement hb hab, Real.cos_pi_div_two_sub]
    have hq := quadrantAngle_nonneg (b - a) b
    rw [hsin]
    constructor
    · refine (toNat_sub_le ?_ hhi).trans ?_
      · exact mul_nonneg hp2.le (Real.cos_nonneg_of_neg_pi_div_two_le_of_le (by linarith) (by linarith))
      · exact mul_le_mul_of_nonneg_left (Real.cos_le_cos_of_nonneg_of_le_pi hq (by linarith) h0) hp2.le
    · refine le_trans ?_ (le_toNat_add hlo)
      exact mul_le_mul_of_nonneg_left (Real.cos_le_cos_of_nonneg_of_le_pi l0 (by linarith) l1) hp2.le

/-- Floors, at any scale W, of the ends of an enclosure of v that agree hold v between them and the next encoding. -/
theorem floors_enclose {lo hi d W : Nat} {v : ℝ} (hd : 0 < d) (hW : 0 < W) (hlo : (lo : ℝ) ≤ d * v) (hhi : d * v ≤ (hi : ℝ))
    (same : floorMag (lo * W) d = floorMag (hi * W) d) :
    (magValue (floorMag (lo * W) d) : ℝ) ≤ v * W ∧ v * W < (magValue (floorMag (lo * W) d + 1) : ℝ) := by
  have hd' : (0 : ℝ) < d := by exact_mod_cast hd
  have hW' : (0 : ℝ) < W := by exact_mod_cast hW
  have below : (magValue (floorMag (lo * W) d) : ℝ) * d ≤ lo * W := by exact_mod_cast (floorMag_bounds (lo * W) hd).1
  have above : (hi : ℝ) * W < magValue (floorMag (hi * W) d + 1) * d := by exact_mod_cast (floorMag_bounds (hi * W) hd).2
  rw [← same] at above
  have l := mul_le_mul_of_nonneg_right hlo hW'.le
  have h := mul_le_mul_of_nonneg_right hhi hW'.le
  constructor
  · refine le_of_mul_le_mul_right ?_ hd'
    linarith
  · refine lt_of_mul_lt_mul_right ?_ hd'.le
    linarith

end Sys2Proof.Machine
end

