-- ==== Sys2Proof/Laws/TrigSeparation.lean ====
section
/-! SUPPORT. The search of Machine/Trig.lean always ends with the two neighbours of its value: at a precision
above 2^14 * b no binary64 but the value itself lies within the enclosure of sin((pi/2)(a/b)). For an angle phi
whose cosine is M / 2^1074, 2 cos(4b phi) is an integer over 2^(1074 * 4b); so it is 2, or far from 2, which it
is at the angle that is sought. -/

namespace Sys2Proof.Machine

/-! ## Rational cosines are far from the cosine of a rational angle -/

/-- If 2 cos x is an integer over D, then 2 cos(n x) is one over D^n. -/
theorem two_cos_mul_pow_int {x : ℝ} {D M : ℤ} (h : 2 * Real.cos x * D = M) (n : Nat) :
    ∃ A : ℤ, 2 * Real.cos (n * x) * D ^ n = A := by
  have step : ∀ n : Nat, (∃ A : ℤ, 2 * Real.cos (n * x) * D ^ n = A) ∧
      ∃ B : ℤ, 2 * Real.cos ((n + 1 : ℕ) * x) * D ^ (n + 1) = B := by
    intro n
    induction n with
    | zero => exact ⟨⟨2, by simp⟩, M, by simpa using h⟩
    | succ n ih =>
      obtain ⟨⟨A, hA⟩, B, hB⟩ := ih
      refine ⟨⟨B, hB⟩, M * B - D ^ 2 * A, ?_⟩
      have recur : Real.cos ((n + 1 + 1 : ℕ) * x) = 2 * Real.cos x * Real.cos ((n + 1 : ℕ) * x) - Real.cos (n * x) := by
        have := Real.cos_add_cos ((n + 1 + 1 : ℕ) * x) (n * x)
        have e1 : (((n + 1 + 1 : ℕ) : ℝ) * x + n * x) / 2 = (n + 1 : ℕ) * x := by push_cast; ring
        have e2 : (((n + 1 + 1 : ℕ) : ℝ) * x - n * x) / 2 = x := by push_cast; ring
        rw [e1, e2] at this
        linarith
      rw [recur]
      push_cast at *
      rw [← hA, ← hB, ← h]
      ring
  exact (step n).1

/-- An angle whose cosine is an integer over 2D is far from every other angle that n makes whole turns of. -/
theorem angle_gap {x y : ℝ} {D M j : ℤ} {n : Nat} (hn : 0 < n) (hD : 1 ≤ D) (h : 2 * Real.cos x * D = M)
    (hy : n * y = j * (2 * Real.pi)) (hne : x ≠ y) : 1 / (2 * n * (D : ℝ) ^ n) ≤ |x - y| := by
  have hn' : (1 : ℝ) ≤ n := by exact_mod_cast hn
  have hD' : (1 : ℝ) ≤ D := by exact_mod_cast hD
  have hDn : (1 : ℝ) ≤ (D : ℝ) ^ n := one_le_pow₀ hD'
  have hscale : |(n : ℝ) * x - n * y| = n * |x - y| := by
    rw [← mul_sub, abs_mul, abs_of_nonneg (by linarith)]
  have hcosy : Real.cos (n * y) = 1 := (Real.cos_eq_one_iff _).mpr ⟨j, hy.symm⟩
  rw [div_le_iff₀ (by positivity)]
  by_cases turns : Real.cos (n * x) = 1
  · obtain ⟨i, hi⟩ := (Real.cos_eq_one_iff _).mp turns
    have hij : i ≠ j := by
      rintro rfl
      rw [hi] at hy
      exact hne (mul_left_cancel₀ (by linarith : (n : ℝ) ≠ 0) hy.symm)
    have h1 : (1 : ℝ) ≤ |(i : ℝ) - j| := by
      exact_mod_cast Int.one_le_abs (sub_ne_zero.mpr hij)
    have h2 : n * |x - y| = |(i : ℝ) - j| * (2 * Real.pi) := by
      rw [← hscale, ← hi, hy, ← sub_mul, abs_mul, abs_of_pos Real.two_pi_pos]
    have hpi := Real.pi_gt_three
    have h3 : 1 ≤ n * |x - y| := by nlinarith
    calc (1 : ℝ) ≤ 2 * (D : ℝ) ^ n * (n * |x - y|) := by nlinarith
      _ = _ := by ring
  · obtain ⟨A, hA⟩ := two_cos_mul_pow_int h n
    have hA2 : A - 2 * D ^ n ≠ 0 := by
      intro h0
      have : (A : ℝ) = 2 * (D : ℝ) ^ n := by exact_mod_cast sub_eq_zero.mp h0
      rw [← hA] at this
      exact turns (by nlinarith)
    have h1 : (1 : ℝ) ≤ |(A : ℝ) - 2 * (D : ℝ) ^ n| := by exact_mod_cast Int.one_le_abs hA2
    have h2 : |(A : ℝ) - 2 * (D : ℝ) ^ n| = 2 * (D : ℝ) ^ n * |Real.cos (n * x) - Real.cos (n * y)| := by
      rw [← hA, hcosy, ← abs_of_pos (by positivity : (0 : ℝ) < 2 * (D : ℝ) ^ n), ← abs_mul,
        abs_of_pos (by positivity : (0 : ℝ) < 2 * (D : ℝ) ^ n)]
      congr 1
      ring
    have h3 := Real.abs_cos_sub_cos_le (n * x) (n * y)
    rw [hscale] at h3
    have h4 := mul_le_mul_of_nonneg_left h3 (by positivity : (0 : ℝ) ≤ 2 * (D : ℝ) ^ n)
    calc 1 ≤ 2 * (D : ℝ) ^ n * (n * |x - y|) := by linarith
      _ = _ := by ring

/-- Between 0 and pi the cosines of distinct angles differ by a quadratic of their distance. -/
theorem cos_gap {x y : ℝ} (hx0 : 0 ≤ x) (hx : x ≤ Real.pi) (hy0 : 0 ≤ y) (hy : y ≤ Real.pi) :
    |x - y| ^ 2 / 8 ≤ |Real.cos x - Real.cos y| := by
  wlog hxy : y ≤ x generalizing x y
  · rw [abs_sub_comm x, abs_sub_comm (Real.cos x)]
    exact this hy0 hy hx0 hx (le_of_not_ge hxy)
  have hpi := Real.pi_pos
  have hpi4 := Real.pi_le_four
  have hd : 2 / Real.pi * ((x - y) / 2) ≤ Real.sin ((x - y) / 2) := Real.mul_le_sin (by linarith) (by linarith)
  have hm : Real.sin ((x - y) / 2) ≤ Real.sin ((x + y) / 2) := by
    by_cases h : x + y ≤ Real.pi
    · exact Real.sin_le_sin_of_le_of_le_pi_div_two (by linarith) (by linarith) (by linarith)
    · rw [← Real.sin_pi_sub ((x + y) / 2)]
      exact Real.sin_le_sin_of_le_of_le_pi_div_two (by linarith) (by linarith) (by linarith)
  have hq : (x - y) / 4 ≤ Real.sin ((x - y) / 2) := by
    refine le_trans ?_ hd
    rw [div_mul_div_comm, div_le_div_iff₀ (by norm_num) (by positivity)]
    nlinarith
  have h0 : 0 ≤ (x - y) / 4 := by linarith
  rw [Real.cos_sub_cos, abs_of_nonneg (by linarith : 0 ≤ x - y)]
  rw [show -2 * Real.sin ((x + y) / 2) * Real.sin ((x - y) / 2) =
    -(2 * (Real.sin ((x + y) / 2) * Real.sin ((x - y) / 2))) by ring, abs_neg, abs_of_nonneg (by nlinarith)]
  nlinarith

/-- A multiple of 1/W that is not the sine of (pi/2)(a/b) is far from it. -/
theorem sin_gap {a b m W : Nat} (hb : 0 < b) (hab : a ≤ b) (hW : 0 < W) (hm : m ≤ W)
    (hne : (m : ℝ) / W ≠ Real.sin (quadrantAngle a b)) :
    1 / (512 * b ^ 2 * (W : ℝ) ^ (8 * b)) ≤ |(m : ℝ) / W - Real.sin (quadrantAngle a b)| := by
  have hb' : (0 : ℝ) < b := by exact_mod_cast hb
  have hW' : (0 : ℝ) < W := by exact_mod_cast hW
  have hpi := Real.pi_pos
  have hc0 : (0 : ℝ) ≤ (m : ℝ) / W := by positivity
  have hc1 : (m : ℝ) / W ≤ 1 := by rw [div_le_one hW']; exact_mod_cast hm
  have hsin : Real.sin (quadrantAngle a b) = Real.cos (quadrantAngle (b - a) b) := by
    rw [quadrantAngle_complement hb hab, Real.cos_pi_div_two_sub]
  have hcos := Real.cos_arccos (by linarith) hc1
  have hy0 := quadrantAngle_nonneg (b - a) b
  have hy1 : quadrantAngle (b - a) b ≤ Real.pi := by
    rw [quadrantAngle_complement hb hab]
    linarith [quadrantAngle_nonneg a b]
  rw [hsin] at hne ⊢
  have gap := angle_gap (x := Real.arccos ((m : ℝ) / W)) (y := quadrantAngle (b - a) b) (D := W) (M := 2 * m)
    (j := (b - a : ℕ)) (n := 4 * b) (by omega) (by exact_mod_cast hW)
    (by
      rw [hcos]
      push_cast
      field_simp)
    (by
      unfold quadrantAngle
      push_cast
      field_simp
      ring)
    (fun h => hne (by rw [← h, hcos]))
  have quad := cos_gap (Real.arccos_nonneg ((m : ℝ) / W)) (Real.arccos_le_pi _) hy0 hy1
  rw [hcos] at quad
  refine le_trans ?_ quad
  have hsq := pow_le_pow_left₀ (by positivity) gap 2
  calc 1 / (512 * (b : ℝ) ^ 2 * (W : ℝ) ^ (8 * b)) = (1 / (2 * (4 * b : ℕ) * ((W : ℤ) : ℝ) ^ (4 * b))) ^ 2 / 8 := by
        push_cast
        rw [show 8 * b = 4 * b * 2 by ring, pow_mul, div_pow, mul_pow]
        field_simp
        ring
    _ ≤ _ := by gcongr

/-! ## The enclosure is narrow -/

theorem le_toNat_sub (x : Int) (e : Nat) : (x : ℝ) - e ≤ (((x - e).toNat : ℕ) : ℝ) := by
  exact_mod_cast Int.self_le_toNat (x - e)

theorem toNat_add_le {x : Int} {e : Nat} {v : ℝ} (hv : 0 ≤ v) (h : (x : ℝ) + e ≤ v) : (((x + e).toNat : ℕ) : ℝ) ≤ v := by
  have : (((x + e).toNat : ℕ) : ℝ) = max ((x : ℝ) + e) 0 := by
    rw [← Int.cast_natCast, Int.toNat_eq_max]
    push_cast
    rfl
  rw [this]
  exact max_le h hv

/-- The two bounds of an angle up to half a right angle are close. -/
theorem angleHi_sub_angleLo {a b p : Nat} (hb : 0 < b) (hab : 2 * a ≤ b) :
    (angleHi a b p : ℝ) ≤ angleLo a b p + (piError p + 2) := by
  have hb' : (0 : ℝ) < b := by exact_mod_cast hb
  have hab' : 2 * (a : ℝ) ≤ b := by exact_mod_cast hab
  have ha : (0 : ℝ) ≤ a := Nat.cast_nonneg a
  have herr : (0 : ℝ) ≤ piError p := Nat.cast_nonneg _
  have hz : (((piFixed p + piError p).toNat : ℕ) : ℝ) ≤ ((piFixed p - piError p).toNat : ℕ) + 2 * piError p := by
    have h := le_toNat_sub (piFixed p) (piError p)
    exact toNat_add_le (by positivity) (by linarith)
  have hlo := (real_lt_natDiv_add_one ((piFixed p - piError p).toNat * a) (by omega : 0 < 2 * b)).le
  have hhi := natDiv_le_real ((piFixed p + piError p).toNat * a) (2 * b)
  have key : (((piFixed p + piError p).toNat * a : ℕ) : ℝ) / (2 * b : ℕ) ≤
      (((piFixed p - piError p).toNat * a : ℕ) : ℝ) / (2 * b : ℕ) + piError p := by
    push_cast
    rw [← sub_le_iff_le_add', ← sub_div, div_le_iff₀ (by positivity)]
    nlinarith [mul_le_mul_of_nonneg_right hz ha]
  unfold angleHi angleLo
  push_cast at *
  linarith

/-- The enclosure at precision p is at most 8p units wide. -/
theorem quadrantSin_width {a b p : Nat} (hb : 0 < b) (hab : a ≤ b) (hp : 128 ≤ p) :
    ((quadrantSin a b p).2 : ℝ) ≤ (quadrantSin a b p).1 + 8 * p := by
  have hp2 : (0 : ℝ) < 2 ^ p := by positivity
  have herr : (piError p : ℝ) + 2 + 4 * taylorError p ≤ 8 * p := by
    have : piError p + 2 + 4 * taylorError p ≤ 8 * p := by
      unfold piError piTerms taylorError taylorTerms
      omega
    exact_mod_cast this
  have near : ∀ c, 2 * c ≤ b →
      |(angleHi c b p : ℝ) / 2 ^ p - (angleLo c b p : ℝ) / 2 ^ p| * 2 ^ p ≤ piError p + 2 := by
    intro c hc
    have hle : (angleLo c b p : ℝ) ≤ angleHi c b p := by exact_mod_cast angleLo_le_angleHi hb
    rw [← sub_div, abs_of_nonneg (div_nonneg (by linarith) hp2.le), div_mul_cancel₀ _ hp2.ne']
    linarith [angleHi_sub_angleLo (p := p) hb hc]
  have scaled : ∀ u v d : ℝ, |u - v| ≤ d → 2 ^ p * u - 2 ^ p * v ≤ d * 2 ^ p := by
    intro u v d h
    nlinarith [(abs_le.mp h).2]
  have nonneg : ∀ n : Nat, (0 : ℝ) ≤ (n : ℝ) + 8 * p := fun n => by positivity
  unfold quadrantSin
  by_cases half : 2 * a ≤ b
  · rw [if_pos half]
    have hlo := abs_le.mp (sinFixed_error p ((angleLo_le_angleHi hb).trans (angleHi_le_one hb half hp)))
    have hhi := abs_le.mp (sinFixed_error p (angleHi_le_one hb half hp))
    have lip := scaled _ _ _ (Real.abs_sin_sub_sin_le ((angleHi a b p : ℝ) / 2 ^ p) ((angleLo a b p : ℝ) / 2 ^ p))
    have h := le_toNat_sub (sinFixed p (angleLo a b p)) (taylorError p)
    exact toNat_add_le (nonneg _) (by linarith [near a half, hlo.1, hhi.2])
  · rw [if_neg half]
    have hc : 2 * (b - a) ≤ b := by omega
    have hlo := abs_le.mp (cosFixed_error p ((angleLo_le_angleHi hb).trans (angleHi_le_one hb hc hp)))
    have hhi := abs_le.mp (cosFixed_error p (angleHi_le_one hb hc hp))
    have lip := scaled _ _ _ (Real.abs_cos_sub_cos_le ((angleLo (b - a) b p : ℝ) / 2 ^ p) ((angleHi (b - a) b p : ℝ) / 2 ^ p))
    rw [abs_sub_comm] at lip
    have h := le_toNat_sub (cosFixed p (angleHi (b - a) b p)) (taylorError p)
    exact toNat_add_le (nonneg _) (by linarith [near (b - a) hc, hlo.2, hhi.1])

/-! ## The search ends -/

/-- At a precision of 2^14 * b or more the width of the enclosure is below the gap of `sin_gap`. -/
theorem width_below_gap {b p : Nat} (hb : 0 < b) (hp : 16384 * b ≤ p) : 8 * p * (512 * b ^ 2 * 2 ^ (8592 * b)) < 2 ^ p := by
  obtain ⟨q, r, hpq, hr⟩ : ∃ q r, p = 16 * q + r ∧ r < 16 := ⟨p / 16, p % 16, by omega, by omega⟩
  have hq : 1024 * b ≤ q := by omega
  have hpow : p < 2 ^ (q + 5) := by
    have := Nat.lt_two_pow_self (n := q)
    rw [pow_add]
    omega
  have hbp : b < 2 ^ (q + 5) := by omega
  calc 8 * p * (512 * b ^ 2 * 2 ^ (8592 * b)) = 2 ^ 12 * (p * b ^ 2) * 2 ^ (8592 * b) := by ring
    _ < 2 ^ 12 * (2 ^ (q + 5) * (2 ^ (q + 5)) ^ 2) * 2 ^ (8592 * b) := by
      gcongr
    _ = 2 ^ (3 * q + 27 + 8592 * b) := by rw [← pow_mul, ← pow_add, ← pow_add, ← pow_add]; congr 1; ring
    _ ≤ 2 ^ p := Nat.pow_le_pow_right (by norm_num) (by omega)

theorem floorMag_le_floorMag {n n' d : Nat} (hd : 0 < d) (h : n ≤ n') : floorMag n d ≤ floorMag n' d := by
  have lo := (floorMag_bounds n hd).1
  have hi := (floorMag_bounds n' hd).2
  have : magValue (floorMag n d) < magValue (floorMag n' d + 1) := lt_of_mul_lt_mul_right (lo.trans_lt (h.trans_lt hi)) (Nat.zero_le d)
  exact Nat.lt_succ_iff.mp (magValue_strictMono.lt_iff_lt.mp this)

/-- If every encoding but the value's own lies further from a value than its enclosure is wide, the floors of
both ends of the enclosure agree. -/
theorem floors_agree_of_gap {lo hi d W w one : Nat} {v : ℝ} (hd : 0 < d) (hW : 0 < W) (hlo : (lo : ℝ) ≤ d * v)
    (hhi : d * v ≤ (hi : ℝ)) (width : (hi : ℝ) ≤ lo + w) (hv : v ≤ 1) (hone : magValue one = W)
    (gap : ∀ i, magValue i ≤ W → (w : ℝ) < |(magValue i : ℝ) / W - v| * d) :
    floorMag (lo * W) d = floorMag (hi * W) d := by
  have hd' : (0 : ℝ) < d := by exact_mod_cast hd
  have hW' : (0 : ℝ) < W := by exact_mod_cast hW
  have hle : lo ≤ hi := by exact_mod_cast hlo.trans hhi
  have hlod : (lo : ℝ) ≤ d := hlo.trans (mul_le_of_le_one_right hd'.le hv)
  refine (floorMag_le_floorMag hd (Nat.mul_le_mul_right W hle)).antisymm (Nat.le_of_not_lt fun hlt => ?_)
  have above : (lo : ℝ) * W < magValue (floorMag (hi * W) d) * d := by
    have h1 := (floorMag_bounds (lo * W) hd).2
    have h2 := magValue_strictMono.monotone (Nat.succ_le_of_lt hlt)
    exact_mod_cast h1.trans_le (Nat.mul_le_mul_right d h2)
  have below : (magValue (floorMag (hi * W) d) : ℝ) * d ≤ hi * W := by exact_mod_cast (floorMag_bounds (hi * W) hd).1
  obtain ⟨i, hiW, h1, h2⟩ : ∃ i, magValue i ≤ W ∧ (lo : ℝ) * W ≤ magValue i * d ∧ (magValue i : ℝ) * d ≤ hi * W := by
    by_cases small : magValue (floorMag (hi * W) d) ≤ W
    · exact ⟨_, small, above.le, below⟩
    · have : (W : ℝ) ≤ magValue (floorMag (hi * W) d) := by exact_mod_cast (Nat.le_of_not_le small)
      refine ⟨one, hone.le, ?_, ?_⟩ <;> rw [hone] <;> nlinarith
  have far := gap i hiW
  have scaled : |(magValue i : ℝ) / W - v| * d = |(magValue i : ℝ) * d / W - d * v| := by
    rw [← abs_of_pos hd', ← abs_mul, abs_of_pos hd']
    congr 1
    ring
  have near : |(magValue i : ℝ) * d / W - d * v| ≤ w := by
    rw [abs_le]
    constructor
    · have := (le_div_iff₀ hW').mpr h1
      linarith
    · have := (div_le_iff₀ hW').mpr h2
      linarith
  linarith

/-- No binary64 is the sine of (pi/2)(a/b). -/
def NotBinary64 (a b : Nat) : Prop := ∀ m, (magValue m : ℝ) ≠ Real.sin (quadrantAngle a b) * (2 ^ 1074 : ℕ)

/-- A power of two from 2^52 units on is an encoding. -/
theorem magValue_pow (k : Nat) : magValue (k * 2 ^ 52 + 2 ^ 52) = 2 ^ (k + 52) := by
  rw [magValue_quantum (by norm_num) (Or.inr le_rfl), pow_add, mul_comm]

/-- At a precision of 2^14 * b or more both ends of the enclosure have the same floor. -/
theorem enclosureFloors_agree {a b p : Nat} (hb : 0 < b) (hab : a ≤ b) (hp : 16384 * b ≤ p) (hne : NotBinary64 a b) :
    (enclosureFloors a b p).1 = (enclosureFloors a b p).2 := by
  have enc := quadrantSin_encloses hb hab (by omega : 128 ≤ p)
  have width := quadrantSin_width hb hab (by omega : 128 ≤ p)
  have small := width_below_gap hb hp
  obtain ⟨one, hone⟩ : ∃ one, magValue one = 2 ^ 1074 := by
    obtain ⟨k, hk⟩ : ∃ k, k + 52 = 1074 := ⟨1022, rfl⟩
    exact ⟨_, hk ▸ magValue_pow k⟩
  have hWpow : (2 ^ 1074) ^ (8 * b) = 2 ^ (8592 * b) := by
    rw [← pow_mul]
    congr 1
    ring
  have hW := Nat.two_pow_pos 1074
  unfold enclosureFloors NotBinary64 at *
  generalize 2 ^ 1074 = W at *
  rw [show ((2 : ℝ) ^ p) = ((2 ^ p : ℕ) : ℝ) by push_cast; rfl] at enc
  have hW' : (0 : ℝ) < W := by exact_mod_cast hW
  refine floors_agree_of_gap (w := 8 * p) (Nat.two_pow_pos p) hW enc.1 enc.2 (by exact_mod_cast width)
    (Real.sin_le_one _) hone fun i hi => ?_
  have gap := sin_gap hb hab hW hi fun h => hne i (by rw [← h, div_mul_cancel₀ _ hW'.ne'])
  have hcast : (512 * (b : ℝ) ^ 2 * (W : ℝ) ^ (8 * b)) = ((512 * b ^ 2 * 2 ^ (8592 * b) : ℕ) : ℝ) := by
    rw [← hWpow]
    push_cast
    ring
  have hpos : 0 < 512 * b ^ 2 * 2 ^ (8592 * b) := by positivity
  rw [hcast] at gap
  generalize 512 * b ^ 2 * 2 ^ (8592 * b) = g at *
  have hg : (0 : ℝ) < g := by exact_mod_cast hpos
  have hsmall : ((8 * p : ℕ) : ℝ) * g < ((2 ^ p : ℕ) : ℝ) := by exact_mod_cast small
  have h2p : (0 : ℝ) < ((2 ^ p : ℕ) : ℝ) := by exact_mod_cast Nat.two_pow_pos p
  calc ((8 * p : ℕ) : ℝ) < ((2 ^ p : ℕ) : ℝ) / g := (lt_div_iff₀ hg).mpr hsmall
    _ = 1 / g * ((2 ^ p : ℕ) : ℝ) := by ring
    _ ≤ _ := by gcongr

/-- Where both ends have the same floor, the sine lies between it and the next encoding. -/
theorem enclosureFloors_encloses {a b p : Nat} (hb : 0 < b) (hab : a ≤ b) (hp : 128 ≤ p)
    (same : (enclosureFloors a b p).1 = (enclosureFloors a b p).2) :
    (magValue (enclosureFloors a b p).1 : ℝ) ≤ Real.sin (quadrantAngle a b) * (2 ^ 1074 : ℕ) ∧
      Real.sin (quadrantAngle a b) * (2 ^ 1074 : ℕ) < (magValue ((enclosureFloors a b p).1 + 1) : ℝ) := by
  have enc := quadrantSin_encloses hb hab hp
  rw [show ((2 : ℝ) ^ p) = ((2 ^ p : ℕ) : ℝ) by push_cast; rfl] at enc
  have hW := Nat.two_pow_pos 1074
  unfold enclosureFloors at *
  generalize 2 ^ 1074 = W at *
  exact floors_enclose (Nat.two_pow_pos p) hW enc.1 enc.2 same

/-- The search finds the neighbours when its last precision is 2^14 * b or more. -/
theorem floorSearch_encloses {a b : Nat} (hb : 0 < b) (hab : a ≤ b) (hne : NotBinary64 a b) : ∀ k p, 128 ≤ p →
    16384 * b ≤ 2 ^ k * p →
    (magValue (floorSearch a b k p) : ℝ) ≤ Real.sin (quadrantAngle a b) * (2 ^ 1074 : ℕ) ∧
      Real.sin (quadrantAngle a b) * (2 ^ 1074 : ℕ) < (magValue (floorSearch a b k p + 1) : ℝ)
  | 0, p, hp, hlast => enclosureFloors_encloses hb hab hp (enclosureFloors_agree hb hab (by omega) hne)
  | k + 1, p, hp, hlast => by
    simp only [floorSearch]
    split
    · next same => exact enclosureFloors_encloses hb hab hp same
    · exact floorSearch_encloses hb hab hne k (2 * p) (by omega) (by rw [pow_succ] at hlast; linarith)

/-- A sine of (pi/2)(a/b) that is not a binary64 lies strictly between `quadrantFloor` and the next encoding. -/
theorem quadrantFloor_encloses {a b : Nat} (hb : 0 < b) (hab : a ≤ b) (hne : NotBinary64 a b) :
    (magValue (quadrantFloor a b) : ℝ) < Real.sin (quadrantAngle a b) * (2 ^ 1074 : ℕ) ∧
      Real.sin (quadrantAngle a b) * (2 ^ 1074 : ℕ) < (magValue (quadrantFloor a b + 1) : ℝ) := by
  have hlog : b < 2 ^ (Nat.log2 b + 1) := Nat.lt_log2_self
  have enc := floorSearch_encloses hb hab hne (searchSteps b) 128 le_rfl (by
    unfold searchSteps
    rw [pow_succ] at hlog
    rw [pow_add]
    omega)
  exact ⟨lt_of_le_of_ne enc.1 (hne _), enc.2⟩

/-! ## The values that are not binary64 -/

/-- An irrational sine is no binary64. -/
theorem notBinary64_of_irrational {a b : Nat} (h : Irrational (Real.sin (quadrantAngle a b))) : NotBinary64 a b := by
  intro m hm
  have hW := Nat.two_pow_pos 1074
  generalize 2 ^ 1074 = W at *
  have hW' : (W : ℝ) ≠ 0 := by exact_mod_cast hW.ne'
  exact h ⟨(magValue m : ℚ) / W, by push_cast; rw [hm, mul_div_cancel_right₀ _ hW']⟩

/-- The equation between the fractions of a rational and of twice it less a half or a whole number. -/
theorem num_mul_den_eq {x r : ℚ} {v : ℤ} (hr : r = 2 * x - v / 2) :
    (4 * x.num - v * x.den) * r.den = 2 * r.num * x.den := by
  have hx : (x.den : ℚ) ≠ 0 := by exact_mod_cast x.den_ne_zero
  have hd : (r.den : ℚ) ≠ 0 := by exact_mod_cast r.den_ne_zero
  have h : (r.num : ℚ) / r.den = 2 * (x.num / x.den) - v / 2 := by rw [Rat.num_div_den, Rat.num_div_den, hr]
  field_simp at h
  have h' : ((4 * x.num - v * x.den) * r.den : ℚ) = 2 * r.num * x.den := by linarith
  exact_mod_cast h'

theorem den_mem_divisors {x : ℚ} {c : Nat} {y : ℤ} (hc : 0 < c) (h : c * x.num = y * x.den) : x.den ∈ c.divisors := by
  have coprime : IsCoprime (x.den : ℤ) x.num := Int.isCoprime_iff_gcd_eq_one.mpr (by rw [Int.gcd_comm]; exact x.reduced)
  have dvd : (x.den : ℤ) ∣ c := coprime.dvd_of_dvd_mul_right ⟨y, by rw [h]; ring⟩
  exact Nat.mem_divisors.mpr ⟨by exact_mod_cast dvd, hc.ne'⟩

/-- A rational whose double has a denominator of at most 3. -/
theorem den_of_double_den {x : ℚ} (h : (2 * x).den ≤ 3) :
    x.den = 1 ∨ x.den = 2 ∨ x.den = 3 ∨ x.den = 4 ∨ x.den = 6 := by
  have eq := num_mul_den_eq (x := x) (r := 2 * x) (v := 0) (by norm_num)
  have pos := (2 * x).den_pos
  generalize 2 * x = r at *
  obtain e | e | e : r.den = 1 ∨ r.den = 2 ∨ r.den = 3 := by omega
  all_goals rw [e] at eq
  · have : x.den ∈ ({1, 2} : Finset ℕ) := den_mem_divisors (c := 2) (y := r.num) (by norm_num) (by push_cast at *; linarith)
    simp only [Finset.mem_insert, Finset.mem_singleton] at this
    omega
  · have : x.den ∈ ({1, 2, 4} : Finset ℕ) :=
      den_mem_divisors (c := 4) (y := r.num) (by norm_num) (by push_cast at *; linarith)
    simp only [Finset.mem_insert, Finset.mem_singleton] at this
    omega
  · have : x.den ∈ ({1, 2, 3, 6} : Finset ℕ) :=
      den_mem_divisors (c := 6) (y := r.num) (by norm_num) (by push_cast at *; linarith)
    simp only [Finset.mem_insert, Finset.mem_singleton] at this
    omega

/-- A rational whose double less a half has a denominator of at most 3. -/
theorem den_of_double_sub_half_den {x : ℚ} (h : (2 * x - 1 / 2).den ≤ 3) :
    x.den = 1 ∨ x.den = 2 ∨ x.den = 4 ∨ x.den = 12 := by
  have eq := num_mul_den_eq (x := x) (r := 2 * x - 1 / 2) (v := 1) (by norm_num)
  have pos := (2 * x - 1 / 2).den_pos
  generalize 2 * x - 1 / 2 = r at *
  obtain e | e | e : r.den = 1 ∨ r.den = 2 ∨ r.den = 3 := by omega
  all_goals rw [e] at eq
  · have : x.den ∈ ({1, 2, 4} : Finset ℕ) :=
      den_mem_divisors (c := 4) (y := 2 * r.num + 1) (by norm_num) (by push_cast at *; linarith)
    simp only [Finset.mem_insert, Finset.mem_singleton] at this
    omega
  · have : x.den ∈ ({1, 2, 4} : Finset ℕ) :=
      den_mem_divisors (c := 4) (y := r.num + 1) (by norm_num) (by push_cast at *; linarith)
    simp only [Finset.mem_insert, Finset.mem_singleton] at this
    omega
  · have : x.den ∈ ({1, 2, 3, 4, 6, 12} : Finset ℕ) :=
      den_mem_divisors (c := 12) (y := 2 * r.num + 3) (by norm_num) (by push_cast at *; linarith)
    simp only [Finset.mem_insert, Finset.mem_singleton] at this
    obtain e | e | e | e | e | e := this <;> rw [e] at eq ⊢ <;> omega

/-- Where the model takes cos(2 pi x) as no binary64 it is irrational (Niven). -/
theorem irrational_cos2pi {x : ℚ} (h : exactCos2pi x = none) : Irrational (Real.cos (2 * Real.pi * x)) := by
  have hr : 3 < (2 * x).den := by
    by_contra hle
    unfold exactCos2pi at h
    obtain e | e | e | e | e := den_of_double_den (Nat.le_of_not_lt hle) <;> rw [e] at h <;> simp at h
  have := irrational_cos_rat_mul_pi hr
  rwa [show ((2 * x : ℚ) : ℝ) * Real.pi = 2 * Real.pi * x by push_cast; ring] at this

/-- Where the model takes sin(2 pi x) as no binary64 it is irrational (Niven). -/
theorem irrational_sin2pi {x : ℚ} (h : exactSin2pi x = none) : Irrational (Real.sin (2 * Real.pi * x)) := by
  have hr : 3 < (2 * x - 1 / 2).den := by
    by_contra hle
    unfold exactSin2pi at h
    obtain e | e | e | e := den_of_double_sub_half_den (Nat.le_of_not_lt hle) <;> rw [e] at h <;> simp at h
  have := irrational_cos_rat_mul_pi hr
  rwa [show ((2 * x - 1 / 2 : ℚ) : ℝ) * Real.pi = 2 * Real.pi * x - Real.pi / 2 by push_cast; ring,
    Real.cos_sub_pi_div_two] at this

end Sys2Proof.Machine
end

