-- ==== Sys2Proof/Tests/Slice0.lean ====
section
/-! SUPPORT. The model's own tests, each about one step or one operation. Expected values come from
spec/95_test_vectors.md (the vector is named) or are worked out by hand from the rule named; and, for
every statement with hypotheses, a witness that they can be met together. -/

set_option Elab.async false

namespace Sys2Proof.Tests

open Sys2Proof Sys2Proof.Machine Sys2Proof.Claims

/-! ## Helpers -/

/-- Real elements stored in DMEM from an offset on. -/
def withReals (a : Nat) (xs : List F64) (s : State) : State := { s with mem := wrFs s.mem a xs }

/-- A running engine with the command `i` at CPC. -/
def running (i : Instr) (cpc : Word) (s : State) : State :=
  { s with status := 1, cpc := cpc, mem := writeBytes s.mem cpc.toNat (bytesOfDescriptor (encode i)) }

/-- The 32 bytes of a descriptor in DMEM at CPC, and a running engine. -/
def runningOn (d : Descriptor) (s : State) : State :=
  { s with status := 1, mem := writeBytes s.mem s.cpc.toNat (bytesOfDescriptor d) }

/-- A part of the next state. -/
def seen {α : Type} (f : State → α) : Result → Option α
  | .next t => some (f t)
  | _ => none

/-- The reals from an offset on in the next state. -/
def realsAt (a n : Nat) (r : Result) : Option (List F64) := (seen (fun t => readReals t.mem a n) r).join

/-- ERR_CODE, ERR_INFO and STATUS of the next state. -/
def errorOf (r : Result) : Option (Word × Word × Word) := seen (fun t => (t.errCode, t.errInfo, t.status)) r

/-- A state with the frame length and hop of V-S1. -/
def framed (n step : Word) (s : State) : State := { s with cfgWindow := n, cfgStep := step }

/-- A state with the FIR size, cutoff and sample rate given. -/
def tuned (m : Word) (fc fs : F64) (s : State) : State :=
  { s with cfgFirSize := m, cfgCutoffLo := fc.extractLsb' 0 32, cfgCutoffHi := fc.extractLsb' 32 32,
           cfgFsLo := fs.extractLsb' 0 32, cfgFsHi := fs.extractLsb' 32 32 }

/-- 1.0, 2.0, 3.0, 4.0. -/
def oneToFour : List F64 := [0x3FF0000000000000, 0x4000000000000000, 0x4008000000000000, 0x4010000000000000]

/-- An idle engine right after reset with 1.0 to 4.0 at 0x100 and 1.0, 1.0 at 0x200. -/
def loaded : State := withReals 0x200 [0x3FF0000000000000, 0x3FF0000000000000] (withReals 0x100 oneToFour State.reset)

/-! ## Well-formedness and decoding -/

/-- R83, R87: VHI of a SETCFG of a 32-bit register must be 0; of a 64-bit one it may be anything. -/
theorem test_wellFormed_vhi :
    (Instr.setcfg .window 4 1).wellFormed = false ∧ (Instr.setcfg .step 4 1).wellFormed = false ∧
    (Instr.setcfg .firSize 4 1).wellFormed = false ∧ (Instr.setcfg .convFft 4 1).wellFormed = false ∧
    (Instr.setcfg .convFft 4 0).wellFormed = true ∧ (Instr.setcfg .fs 4 1).wellFormed = true := by decide

/-- V-E1, V-E2: END and NOP, from their bytes. -/
theorem test_decode_end_nop :
    decodeBytes true (0x01 :: List.replicate 31 0) = .ok .endList ∧
    decodeBytes true (0x02 :: List.replicate 31 0) = .ok .nop := by decide

/-- V-E3, V-E4, V-E5: SETCFG. -/
theorem test_decode_setcfg :
    decode true { w0 := 0x00000003, w1 := 0x00000000, w2 := 0x00000004 } = .ok (.setcfg .window 4 0) ∧
    decode true { w0 := 0x00000003, w1 := 0x00000004, w2 := 0x00000000, w3 := 0x409F4000 } =
      .ok (.setcfg .cutoff 0 0x409F4000) ∧
    decode true { w0 := 0x00000003, w1 := 0x00000005, w2 := 0x00000000, w3 := 0x40BF4000 } =
      .ok (.setcfg .fs 0 0x40BF4000) := by decide

/-- R87, R90: `setcfg step`, `fir_size`, `conv_fft`, INDEX 1, 2, 3. -/
theorem test_decode_setcfg_index :
    decode true { w0 := 3, w1 := 1, w2 := 7 } = .ok (.setcfg .step 7 0) ∧
    decode true { w0 := 3, w1 := 2, w2 := 7 } = .ok (.setcfg .firSize 7 0) ∧
    decode true { w0 := 3, w1 := 3, w2 := 7 } = .ok (.setcfg .convFft 7 0) := by decide

/-- R93 (`stft`), V-E8 (`istft`): the words of the transforms of frames, the first written out bit by bit. -/
theorem test_decode_frames :
    decode true { w0 := 0b00000000000000000000000000010000, w1 := 0x00040000, w2 := 0x00001000, w3 := 0x00007D00 } =
      .ok (.stft 0x40000 0x1000 32000) ∧
    decode true { w0 := 0x00000011, w1 := 0x600, w2 := 0x400, w3 := 2, w4 := 4, w5 := 0xC } =
      .ok (.istft 0x600 0x400 2 4 12) := by decide

/-- V-E6, V-E7, and R86 for the forms without FLAGS: the transforms of vectors. -/
theorem test_decode_vectors :
    decode true { w0 := 0b00000000000000000000000100010010, w1 := 0x200, w2 := 0x100, w3 := 4 } =
      .ok (.fft true 0x200 0x100 4) ∧
    decode true { w0 := 0x00000012, w1 := 0x200, w2 := 0x100, w3 := 4 } = .ok (.fft false 0x200 0x100 4) ∧
    decode true { w0 := 0x00000113, w1 := 0x200, w2 := 0x100, w3 := 4 } = .ok (.ifft true 0x200 0x100 4) ∧
    decode true { w0 := 0x00000013, w1 := 0x200, w2 := 0x100, w3 := 4 } = .ok (.ifft false 0x200 0x100 4) := by
  decide

/-- V-E9, R93 (`hpf`): FIRGEN. -/
theorem test_decode_firgen :
    decode true { w0 := 0b00000000000000000000000000100000, w1 := 0x100 } = .ok (.firgenLp 0x100) ∧
    decode true { w0 := 0x00000120, w1 := 0x00130000 } = .ok (.firgenHp 0x130000) := by decide

/-- V-E21, V-E10: CONV and CONV.FAST, each flag in its place. -/
theorem test_decode_conv :
    decode true { w0 := 0b00000000000000000000101000110000, w1 := 1, w2 := 2, w3 := 3, w4 := 4, w5 := 5 } =
      .ok (.conv true false true 1 2 3 4 5) ∧
    decode true { w0 := 0x00000430 } = .ok (.conv false true false 0 0 0 0 0) ∧
    decode true { w0 := 0x00000F30, w1 := 0x300, w2 := 0x100, w3 := 3, w4 := 0x200, w5 := 2 } =
      .ok (.convFast true true true 0x300 0x100 3 0x200 2) ∧
    decode true { w0 := 0x00000130 } = .ok (.convFast false false false 0 0 0 0 0) := by decide

/-- V-E11 to V-E14: undefined opcodes; w0[16], and reserved FLAGS bits at the lowest one of each opcode. -/
theorem witness_IllegalHeadersRejectedInOrder :
    ([0x00, 0x04, 0x31, 0xFF].map fun w => decode true { w0 := w }) = List.replicate 4 (.error .badOpcode) ∧
    ([0x00010001, 0x101, 0x110, 0x212, 0x213, 0x220, 0x1030, 0x103, 0x111].map fun w => decode true { w0 := w }) =
      List.replicate 9 (.error .reservedHeader) := by decide

/-- V-E15, V-E16, V-E20, V-E22, and the lowest and the highest reserved word of each other format. -/
theorem test_reserved_words :
    decode true { w0 := 0x01, w7 := 1 } = .error (.reservedWord 7) ∧
    decode true { w0 := 0x02, w1 := 1, w7 := 1 } = .error (.reservedWord 1) ∧
    decode true { w0 := 0x03, w1 := 0, w2 := 4, w3 := 1 } = .error (.reservedWord 3) ∧
    decode true { w0 := 0x03, w1 := 4, w3 := 1, w4 := 1 } = .error (.reservedWord 4) ∧
    decode true { w0 := 0x10, w4 := 1 } = .error (.reservedWord 4) ∧
    decode true { w0 := 0x112, w7 := 1 } = .error (.reservedWord 7) ∧
    decode true { w0 := 0x11, w6 := 1 } = .error (.reservedWord 6) ∧
    decode false { w0 := 0x130, w6 := 1 } = .error (.reservedWord 6) ∧
    decode true { w0 := 0x20, w2 := 1 } = .error (.reservedWord 2) := by decide

/-- V-E17, V-E18, V-E19: a bad index, also with w3 nonzero, and CONV.FAST where it is absent. -/
theorem test_bad_index_and_absent_fast :
    decode true { w0 := 3, w1 := 6 } = .error .badIndex ∧
    decode true { w0 := 3, w1 := 7, w3 := 0x12345678 } = .error .badIndex ∧
    decode false { w0 := 0x130 } = .error .noFast := by decide

/-- R88 with SETCFG INDEX 6 and a nonzero w4: the reserved word comes before the index. -/
theorem test_reserved_word_before_index : decode true { w0 := 3, w1 := 6, w4 := 1 } = .error (.reservedWord 4) := by
  decide

/-- Every format whose reserved words ReservedWordsRejectedLowestFirst names is reached. -/
theorem witness_ReservedWordsRejectedLowestFirst :
    ((0x212 : Word) &&& 0xFFFFFEFF ≠ 0x12) ∧ (0x112 : Word) &&& 0xFFFFFEFF = 0x12 ∧
    (0xF30 : Word) &&& 0xFFFFF0FF = 0x30 ∧ (0x1030 : Word) &&& 0xFFFFF0FF ≠ 0x30 := by decide

theorem witness_DecodeOfEncode :
    (Instr.setcfg .cutoff 1 2).wellFormed = true ∧ Available false (.setcfg .cutoff 1 2) ∧
    (Instr.convFast true false true 1 2 3 4 5).wellFormed = true ∧ Available true (.convFast true false true 1 2 3 4 5) :=
  ⟨by decide, trivial, by decide, rfl⟩

/-- V-E6's words, which decode; the same header with reserved bit 9 does not. -/
theorem witness_DecodedDescriptorIsEncoding :
    decode false { w0 := 0x112, w1 := 0x200, w2 := 0x100, w3 := 4 } = .ok (.fft true 0x200 0x100 4) := by decide

/-- The table's first 32 bits of CONV.FAST decode to it with operands of zeros. -/
theorem test_decodeTableWord : decodeTableWord 32 0x130 = some (.convFast false false false 0 0 0 0 0) := by decide

/-- V-E9, V-E10: assembler text. -/
theorem test_assembler :
    asmLine "  lpf 0x100 ; low-pass".toList = some (.command (.firgenLp 0x100)) ∧
    asmLine "conv.fast.xc.fc.re 0x300, 0x100, 3, 0x200, 2".toList =
      some (.command (.convFast true true true 0x300 0x100 3 0x200 2)) := by decide +kernel

/-- R92: `.f64` data in DMEM byte order (R61). -/
theorem test_assembler_data :
    asmLine ".f64 1.0".toList = some (.data 8 [0, 0, 0, 0, 0, 0, 0xF0, 0x3F]) := by decide +kernel

/-! ## Arithmetic -/

/-- R15: rounding, a tie to even, overflow to infinity, and an exact zero sum. -/
theorem test_add :
    fadd 0x3FB999999999999A 0x3FC999999999999A = 0x3FD3333333333334 ∧
    fadd 0x4340000000000000 0x3FF0000000000000 = 0x4340000000000000 ∧
    fadd 0x7FEFFFFFFFFFFFFF 0x7FEFFFFFFFFFFFFF = 0x7FF0000000000000 ∧ fadd 0x3FF0000000000000 0xBFF0000000000000 = 0 := by
  decide +kernel

/-- R17: C054 - C046 is the first Hamming coefficient (R121), and RN(0.54), RN(0.46) are the constants. -/
theorem test_constants :
    fsub c054 c046 = 0x3FB47AE147AE147C ∧ decimalF64 false 54 (-2) = c054 ∧ decimalF64 false 46 (-2) = c046 := by
  decide +kernel

/-- V-T12: the least subnormal halved is +0.0; and 1.0 / PI64 is 0.3183098861837907 (section 2.6). -/
theorem test_mul_div :
    fmul 1 f64Half = 0 ∧ fdiv f64One pi64 = 0x3FD45F306DC9C883 ∧ fdiv f64One posZero = 0x7FF0000000000000 := by
  decide +kernel

/-- NaN results: inf - inf, 0 * inf, 0 / 0 and a NaN operand; and the kinds of operand the other clauses name. -/
theorem witness_NanResults :
    isInf 0xFFF0000000000000 = true ∧ isFinite 0x7FEFFFFFFFFFFFFF = true ∧ ¬IsZero 1 ∧ IsZero 0x8000000000000000 ∧
    isNaN 0xFFF0000000000001 = true ∧ isNaN 0x7FF0000000000000 = false ∧
    isNaN (fsub 0x7FF0000000000000 0x7FF0000000000000) = true ∧ isNaN (fmul 0 0x7FF0000000000000) = true ∧
    isNaN (fdiv 0 0x8000000000000000) = true ∧ isNaN (fadd 0x7FF4000000000001 0) = true := by decide +kernel

theorem witness_SmallIntegers :
    (2 ^ 53 : Int).natAbs ≤ 2 ^ 53 ∧ (-(2 ^ 53) : Int).natAbs ≤ 2 ^ 53 ∧ (0 : Int).natAbs ≤ 2 ^ 53 := by decide

/-- Finite operands; sums, differences and products that are an exact zero; the overflow bound. -/
theorem witness_Rounding_operands :
    isFinite f64One = true ∧ isFinite 0xBFF0000000000000 = true ∧ isFinite negZero = true ∧ units f64One ≠ 0 ∧
    units f64One + units 0xBFF0000000000000 = 0 ∧ units negZero + units negZero = 0 ∧ units posZero = units negZero ∧
    (2 ^ 54 - 1) * 2 ^ 2044 * 1 ≤ magUnits 0x7FEFFFFFFFFFFFFF + magUnits 0x7C90000000000000 := by decide +kernel

/-- IEEE 754: half a unit in the last place above the largest finite value overflows, less does not; -0.0 - +0.0. -/
theorem test_rounding_bound :
    fadd 0x7FEFFFFFFFFFFFFF 0x7C90000000000000 = 0x7FF0000000000000 ∧
    fadd 0x7FEFFFFFFFFFFFFF 0x7C8FFFFFFFFFFFFF = 0x7FEFFFFFFFFFFFFF ∧ fsub negZero posZero = negZero := by
  decide +kernel

/-- A tie between two encodings (2^53 + 1 units), and the largest finite value. -/
theorem witness_Rounding :
    0 < 1 ∧ roundMag (2 ^ 53 + 1) 1 < infMag ∧ roundMag (2 ^ 53 + 1) 1 + 1 < infMag ∧
    roundMag ((2 ^ 53 - 1) * 2 ^ 2045) 1 = infMag - 1 := by decide +kernel

/-! ## The sequencer -/

/-- A running engine at the last descriptor of DMEM, holding END (V-X1). -/
def lastEnd : State := running .endList 0x3FFFE0 State.reset

/-- V-X1, the first run: DONE, CMD_COUNT 1, CPC = DMEM_SIZE. -/
theorem test_end_at_last_offset :
    seen (fun t => (t.status, t.cmdCount, t.cpc)) (step lastEnd) = some (2, 1, 0x400000) := by decide +kernel

/-- V-X1, the second run, and V-X2: FETCH_ERROR with CPC kept. -/
theorem test_fetch_error :
    ([0x400000, 0xFFFFFFE0].map fun cpc => seen (fun t => (t.errCode, t.errInfo, t.status, t.cpc))
      (step { State.reset with status := 1, cpc := cpc })) =
    [some (6, 0, 4, 0x400000), some (6, 0, 4, 0xFFFFFFE0)] := by decide +kernel

/-- V-E15 through a step: ILLEGAL_CMD, CPC kept. -/
theorem test_illegal_step :
    seen (fun t => (t.errCode, t.errInfo, t.status, t.cpc)) (step (runningOn { w0 := 1, w7 := 1 } State.reset)) =
      some (1, 0x703, 4, 0) := by decide +kernel

/-- R107's example: a NOP at 0x40. -/
theorem test_nop : seen (fun t => (t.cpc, t.cmdCount, t.status)) (step (running .nop 0x40 State.reset)) =
    some (0x60, 1, 1) := by decide +kernel

/-- R108: SETCFG of CFG_FS, both halves. -/
theorem test_setcfg : seen (fun t => (t.fs, t.cutoff, t.cpc)) (exec (.setcfg .fs 0x11 0x40CF4000) State.reset) =
    some (0x40CF400000000011, 0x408F400000000000, 0x20) := by decide +kernel

/-- withFetchWord: the next step runs the instruction. -/
theorem test_withFetchWord :
    seen (fun t => (t.status, t.cmdCount)) (step (State.reset.withFetchWord 32 0x1)) = some (2, 1) := by decide

theorem witness_StepRunsDecodedCommand :
    Running lastEnd ∧ lastEnd.cpc.toNat + 32 = lastEnd.params.dmemSize ∧
    (readBytes lastEnd.mem lastEnd.cpc.toNat 32).map (decodeBytes lastEnd.params.hasFastConv) = some (.ok .endList) := by
  decide +kernel

theorem witness_CommandInMemoryRuns :
    Running lastEnd ∧ Instr.endList.wellFormed = true ∧ Available lastEnd.params.hasFastConv .endList ∧
    lastEnd.cpc.toNat + 32 ≤ lastEnd.params.dmemSize ∧
    ∀ k, k < 32 → readByte lastEnd.mem (lastEnd.cpc.toNat + k) = (bytesOfDescriptor (encode .endList))[k]? :=
  ⟨by decide +kernel, by decide, trivial, by decide +kernel, by decide +kernel⟩

theorem witness_FetchBeyondDmem :
    let s := { State.reset with status := 1, cpc := 0x3FFFE1 }
    Running s ∧ s.params.dmemSize < s.cpc.toNat + 32 := by decide +kernel

/-- Each reason of IllegalDescriptorTakesIllegalCmd is reached. -/
theorem witness_IllegalDescriptor :
    let s := { State.reset with params := { Config.suggested with hasFastConv := false } }
    ([{ w0 := 0 }, { w0 := 0x10001 }, { w0 := 1, w7 := 1 }, { w0 := 3, w1 := 6 }, { w0 := 0x130 }] : List Descriptor).map
        (fun d => ((readBytes (runningOn d s).mem 0 32).map (decodeBytes false), decide (Running (runningOn d s)))) =
      [(some (.error .badOpcode), true), (some (.error .reservedHeader), true),
       (some (.error (.reservedWord 7)), true), (some (.error .badIndex), true), (some (.error .noFast), true)] := by
  decide +kernel

theorem witness_FetchOfUnwrittenByte :
    let s := { State.reset with status := 1 }
    Running s ∧ s.cpc.toNat + 32 ≤ s.params.dmemSize ∧ 31 < 32 ∧ readByte s.mem (s.cpc.toNat + 31) = none := by
  decide +kernel

/-- CommandsFailPreciselyOrComplete, OnlySetcfgWritesConfiguration: a command that fails, one that completes, and a SETCFG. -/
theorem witness_CommandsFailOrComplete :
    (seen State.errCode (exec (.fft false 0 0 3) State.reset)).isSome = true ∧
    (seen State.errCode (exec .nop State.reset)).isSome = true ∧
    (seen State.cfgStep (exec (.setcfg .step 7 0) State.reset)) = some 7 := by decide +kernel

/-- CommandsStopOnlyOnUnwrittenSources: a command whose source nothing has written. -/
theorem test_unwritten_source : exec (.fft false 0x1000 0 1) State.reset = .fault .unwrittenByte := by
  have h : (fftJob false 0x1000 0 1 State.reset).error State.reset.params.dmemSize = none := by decide +kernel
  show runJob (fftJob false 0x1000 0 1 State.reset) State.reset = _
  unfold runJob
  rw [h]
  rfl

/-! ## FFT and IFFT -/

/-- V-T4, bins 0 and 1. -/
theorem test_fft : realsAt 0x300 4 (exec (.fft false 0x300 0x100 4) loaded) =
    some [0x4024000000000000, 0, 0xC000000000000000, 0x4000000000000000] := by decide +kernel

/-- V-T10: signed zeros, complex input. -/
theorem test_fft_signed_zeros :
    realsAt 0x300 4 (exec (.fft true 0x300 0x100 2) (withReals 0x100 (List.replicate 4 negZero) State.reset)) =
    some [negZero, posZero, posZero, negZero] := by decide +kernel

/-- V-T9, elements 0 and 1. -/
theorem test_ifft :
    realsAt 0x300 4 (exec (.ifft false 0x300 0x100 4)
      (withReals 0x100 (oneToFour.flatMap fun x => [x, posZero]) State.reset)) =
    some [0x4004000000000000, 0, 0xBFE0000000000000, 0xBFE0000000000000] := by decide +kernel

/-- V-T9 with OUT_RE: the real parts, and RESULT. -/
theorem test_ifft_re :
    seen (fun t => (readReals t.mem 0x300 4, t.result)) (exec (.ifft true 0x300 0x100 4)
      (withReals 0x100 (oneToFour.flatMap fun x => [x, posZero]) State.reset)) =
    some (some [0x4004000000000000, 0xBFE0000000000000, 0xBFE0000000000000, 0xBFE0000000000000], 4) := by
  decide +kernel

theorem witness_FftCompletes :
    (4 : Word).toNat = 2 ^ 2 ∧ 2 ^ 2 ≤ loaded.params.nmax ∧ Fits loaded 0x3FFFC0 (16 * 2 ^ 2) ∧
    Fits loaded 0x100 (esize false * 2 ^ 2) ∧ Apart 0x3FFFC0 (16 * 2 ^ 2) 0x100 (esize false * 2 ^ 2) ∧
    ∀ k, k < 2 ^ 2 → element false loaded.mem 0x100 k = some ⟨oneToFour.getD k posZero, posZero⟩ := by
  decide +kernel

/-- LEN = 1, complex elements, the destination right behind the source. -/
theorem witness_FftCompletes_complex :
    (1 : Word).toNat = 2 ^ 0 ∧ Fits loaded 0x110 (16 * 2 ^ 0) ∧ Fits loaded 0x100 (esize true * 2 ^ 0) ∧
    Apart 0x110 (16 * 2 ^ 0) 0x100 (esize true * 2 ^ 0) ∧
    ∀ k, k < 2 ^ 0 → element true loaded.mem 0x100 k = some ⟨0x3FF0000000000000, 0x4000000000000000⟩ := by
  decide +kernel

theorem witness_IfftCompletes :
    (2 : Word).toNat = 2 ^ 1 ∧ Fits loaded 0x120 (esize (!true) * 2 ^ 1) ∧ Fits loaded 0x120 (esize (!false) * 2 ^ 1) ∧
    Fits loaded 0x100 (16 * 2 ^ 1) ∧ Apart 0x120 (esize (!true) * 2 ^ 1) 0x100 (16 * 2 ^ 1) ∧
    Apart 0x120 (esize (!false) * 2 ^ 1) 0x100 (16 * 2 ^ 1) ∧
    ∀ k, k < 2 ^ 1 → rdC loaded.mem (0x100 + 16 * k) =
      some ⟨oneToFour.getD (2 * k) posZero, oneToFour.getD (2 * k + 1) posZero⟩ := by decide +kernel

/-- V-X10, V-X21, V-X22, V-X23, V-X27, and a misaligned SRC: FFT; LEN = 4096 = NMAX passes the first check. -/
theorem test_fft_errors :
    [exec (.fft false 0x1000 0 0) State.reset, exec (.fft false 0x1000 0 3) State.reset,
     exec (.fft false 0x1000 0 8192) State.reset, exec (.fft false 0x1004 0 4096) State.reset,
     exec (.fft false 0x3FFFF8 0 1) State.reset, exec (.fft false 0x1000 4 4) State.reset,
     exec (.fft false 0x1000 0x3FFFF0 4) State.reset, exec (.fft false 0x1000 0x1000 4) State.reset].map errorOf =
    [some (2, 5, 4), some (2, 5, 4), some (2, 5, 4), some (5, 0x101, 4), some (5, 1, 4), some (5, 0x102, 4),
     some (5, 2, 4), some (7, 0x201, 4)] := by decide +kernel

/-- R142: the same order for IFFT, whose DST has 8-byte elements with OUT_RE. -/
theorem test_ifft_errors :
    [exec (.ifft true 0x1000 0 0) State.reset, exec (.ifft true 0x1004 0 4) State.reset,
     exec (.ifft false 0x3FFFF8 0 1) State.reset, exec (.ifft true 0x3FFFF8 4 1) State.reset,
     exec (.ifft true 0x1000 0x3FFFF8 1) State.reset, exec (.ifft true 0x1038 0x1000 4) State.reset].map errorOf =
    [some (2, 5, 4), some (5, 0x101, 4), some (5, 1, 4), some (5, 0x102, 4), some (5, 2, 4), some (7, 0x201, 4)] := by
  decide +kernel

/-- Two butterflies of stage 1 of a transform of length 4, exchanged. -/
theorem witness_FftStageOrder : 1 ≤ 1 ∧ [(2, 0), (0, 0)].Perm (stagePairs 4 1) := by decide

/-- The length 4 = NMAX of a ROM of g = 2, its last element; and the length 1. -/
theorem witness_FftCoreSplits :
    2 ≤ 16 ∧ 2 ≤ 2 ∧ (oneToFour.map promote).length = 2 ^ 2 ∧ 3 < 2 ^ 2 ∧
    0 ≤ 16 ∧ [promote f64One].length = 2 ^ 0 ∧ 0 < 2 ^ 0 := by decide

/-- R128: 2^-m for the least, the next and the largest transform, as listed by hand from R13. -/
theorem test_inverse_scale :
    invPow2 0 = 0x3FF0000000000000 ∧ invPow2 1 = 0x3FE0000000000000 ∧ invPow2 16 = 0x3EF0000000000000 := by
  decide +kernel

/-- V-H17 for NMAX = 4, and g = 2, the least length with an entry NMAX/4. -/
theorem witness_TwiddleRomFixedEntries : romCos 2 1 = 0 ∧ romSin 2 1 = f64One ∧ 2 ≤ 2 := by decide +kernel

/-- R19: below 1.0 lies the cosine of a 2^600th of a turn, which 2^1024 does not tell from 1.0; and the
neighbour below sin((pi/2)(5/21)) = 0.365341024366395014544..., worked out apart in 60 digits. -/
theorem test_neighbours :
    quadrantFloor (2 ^ 600 - 4) (2 ^ 600) = 0x3FEFFFFFFFFFFFFF ∧ quadrantFloor 5 21 = 0x3FD761BF51E29C8F := by
  decide +kernel

/-- R20: each exact value, by the denominator of its argument. -/
theorem test_exact_trig :
    [0, 1 / 2, 1 / 3, -3 / 4, 1 / 6].map exactCos2pi =
      [some f64One, some 0xBFF0000000000000, some 0xBFE0000000000000, some posZero, some f64Half] ∧
    [-7, 1 / 2, 1 / 4, 3 / 4, 1 / 12, -1 / 12].map exactSin2pi =
      [some posZero, some posZero, some f64One, some 0xBFF0000000000000, some f64Half, some 0xBFE0000000000000] := by
  decide +kernel

/-! ## STFT and ISTFT -/

/-- 1.0 to 8.0 at 0x100 (V-S1). -/
def samples : State :=
  framed 4 2 (withReals 0x120 [0x4014000000000000, 0x4018000000000000, 0x401C000000000000, 0x4020000000000000]
    (withReals 0x100 oneToFour State.reset))

/-- V-S1: bins 0 and 1 of frame 0, and RESULT. -/
theorem test_stft : seen (fun t => (readReals t.mem 0x400 4, t.result)) (exec (.stft 0x400 0x100 8) samples) =
    some (some [0x4011000000000000, 0, 0xC001D70A3D70A3D7, 0xBFF3851EB851EB85], 2) := by decide +kernel

/-- V-S1: bins 0 and 1 of frame 1. -/
theorem test_stft_frame1 : realsAt 0x440 4 (exec (.stft 0x400 0x100 8) samples) =
    some [0x401E99999999999A, 0, 0xC00CE147AE147AE1, 0xC004CCCCCCCCCCCD] := by decide +kernel

/-- The frames of V-S1 at 0x400, OUTLEN 8 (V-S2): the first seven elements. -/
theorem test_istft :
    realsAt 0x600 7 (exec (.istft 0x600 0x400 2 4 8) (framed 4 2 (withReals 0x400
      [0x4011000000000000, 0, 0xC001D70A3D70A3D7, 0xBFF3851EB851EB85,
       0x3FE0F5C28F5C28F6, 0, 0xC001D70A3D70A3D7, 0x3FF3851EB851EB85,
       0x401E99999999999A, 0, 0xC00CE147AE147AE1, 0xC004CCCCCCCCCCCD,
       0x3FE0F5C28F5C28F4, 0, 0xC00CE147AE147AE1, 0x4004CCCCCCCCCCCD] State.reset))) =
    some [0x3FB47AE147AE1480, 0x3FF8A3D70A3D70A4, 0x4004666666666666, 0x400B333333333333,
      0x400ECCCCCCCCCCCC, 0x3FDEB851EB851EBC, 0] := by decide +kernel

/-- V-S7: no frame, SRC not read. -/
theorem test_istft_no_frames :
    seen (fun t => (readReals t.mem 0x600 3, t.result)) (exec (.istft 0x600 0x400 0 4 3) (framed 4 2 State.reset)) =
    some (some [0, 0, 0], 3) := by decide +kernel

theorem witness_StftCompletes :
    samples.cfgWindow.toNat = 2 ^ 2 ∧ 1 ≤ 2 ∧ 2 ^ 2 ≤ samples.params.nmax ∧ 1 ≤ samples.cfgStep.toNat ∧
    2 ^ 2 ≤ (8 : Word).toNat ∧ 2 = ((8 : Word).toNat - 2 ^ 2) / samples.cfgStep.toNat ∧
    Fits samples 0x400 (16 * (2 * 2 ^ 2)) ∧ Fits samples 0x100 (8 * (8 : Word).toNat) ∧
    Apart 0x400 (16 * (2 * 2 ^ 2)) 0x100 (8 * (8 : Word).toNat) ∧
    ∀ i, i < 2 → ∀ n, n < 2 ^ 2 → rdF samples.mem (0x100 + 8 * (i * samples.cfgStep.toNat + n)) =
      some ([0x3FF0000000000000, 0x4000000000000000, 0x4008000000000000, 0x4010000000000000, 0x4014000000000000,
        0x4018000000000000].getD (i * samples.cfgStep.toNat + n) posZero) := by decide +kernel

/-- V-S5, LEN = N: no frame; and V-S8: the empty destination at DMEM_SIZE. -/
theorem test_stft_no_frames :
    [exec (.stft 0x400 0x100 4) samples, exec (.stft 0x400000 0x100 4) samples].map (seen fun t => (t.errCode, t.result)) =
    [some (0, 0), some (0, 0)] := by decide +kernel

theorem witness_IstftCompletes :
    samples.cfgWindow.toNat = 2 ^ 2 ∧ 1 ≤ 2 ∧ 2 ^ 2 ≤ samples.params.nmax ∧ 1 ≤ samples.cfgStep.toNat ∧
    (4 : Word).toNat = 2 ^ 2 ∧ ((1 : Word).toNat = 0 ∨ ((1 : Word).toNat - 1) * samples.cfgStep.toNat + 2 ^ 2 ≤ (4 : Word).toNat) ∧
    Fits samples 0x400 (8 * (4 : Word).toNat) ∧ Fits samples 0x100 (16 * ((1 : Word).toNat * 2 ^ 2)) ∧
    Apart 0x400 (8 * (4 : Word).toNat) 0x100 (16 * ((1 : Word).toNat * 2 ^ 2)) ∧
    ∀ k, k < (1 : Word).toNat * 2 ^ 2 → (rdC samples.mem (0x100 + 16 * k)).isSome = true := by decide +kernel

/-- V-X4, V-X5, V-X6, V-X7, V-X26, and DST misaligned, SRC misaligned, SRC out of range, overlap: STFT. -/
theorem test_stft_errors :
    [exec (.stft 0x1000 0 8) (framed 1 2 State.reset), exec (.stft 0x1000 0 3) (framed 1000 0 State.reset),
     exec (.stft 0x1000 0 8) (framed 8192 2 State.reset), exec (.stft 0x1000 0 8) (framed 4 0 State.reset),
     exec (.stft 0x1000 0 3) (framed 4 2 State.reset), exec (.stft 0x1004 0 8) (framed 4 2 State.reset),
     exec (.stft 0x400008 0 4) (framed 4 4 State.reset), exec (.stft 0x1000 4 8) (framed 4 2 State.reset),
     exec (.stft 0x1000 0x3FFFE0 8) (framed 4 2 State.reset), exec (.stft 0x1038 0x1000 8) (framed 4 2 State.reset)].map
      errorOf =
    [some (2, 1, 4), some (2, 1, 4), some (2, 1, 4), some (2, 2, 4), some (2, 3, 4), some (5, 0x101, 4), some (5, 1, 4),
     some (5, 0x102, 4), some (5, 2, 4), some (7, 0x201, 4)] := by decide +kernel

/-- V-X14, V-X16, and the other checks of ISTFT. -/
theorem test_istft_errors :
    [exec (.istft 0x1000 0 2 4 5) (framed 3 2 State.reset), exec (.istft 0x1000 0 2 4 5) (framed 4 0 State.reset),
     exec (.istft 0x1000 0 2 8 5) (framed 4 2 State.reset), exec (.istft 0x1000 0 2 4 5) (framed 4 2 State.reset),
     exec (.istft 0x1004 0 2 4 6) (framed 4 2 State.reset), exec (.istft 0x3FFFD8 0 2 4 6) (framed 4 2 State.reset),
     exec (.istft 0x1000 4 2 4 6) (framed 4 2 State.reset), exec (.istft 0x1000 0x3FFF88 2 4 6) (framed 4 2 State.reset),
     exec (.istft 0x1000 0xF88 2 4 6) (framed 4 2 State.reset)].map errorOf =
    [some (2, 1, 4), some (2, 2, 4), some (4, 1, 4), some (2, 6, 4), some (5, 0x101, 4), some (5, 1, 4),
     some (5, 0x102, 4), some (5, 2, 4), some (7, 0x201, 4)] := by decide +kernel

/-! ## FIRGEN -/

/-- V-F1. -/
theorem test_firgen_lp :
    realsAt 0x100 4 (exec (.firgenLp 0x100) (tuned 4 0x409F400000000000 0x40BF400000000000 State.reset)) =
    some [0x8000000000000000, 0x3FCF5F642E31A04F, 0x3FD8A3D70A3D70A4, 0x3F9A1371305E714D] := by decide +kernel

/-- V-F2. -/
theorem test_firgen_hp :
    realsAt 0x100 4 (exec (.firgenHp 0x100) (tuned 4 0x409F400000000000 0x40BF400000000000 State.reset)) =
    some [0, 0xBFCF5F642E31A04F, 0x3FD8A3D70A3D70A4, 0xBF9A1371305E714D] := by decide +kernel

/-- V-F7: a cutoff just below half the rate, M = 2, the destination at the end of DMEM. -/
theorem witness_FirgenCompletes :
    let s := tuned 2 0x40AF3FFFFFFFFFFF 0x40BF400000000000 State.reset
    s.cfgFirSize.toNat % 2 = 0 ∧ 2 ≤ s.cfgFirSize.toNat ∧ isFinite s.cutoff = true ∧ isFinite s.fs = true ∧
    0 < units s.cutoff ∧ 2 * units s.cutoff < units s.fs ∧ Fits s 0x3FFFF0 (8 * s.cfgFirSize.toNat) := by decide +kernel

/-- V-X8, V-X9, V-X18, V-X19, V-X20, V-X25, and DST out of range. -/
theorem test_firgen_errors :
    [exec (.firgenLp 0x1000) (tuned 3 0x409F400000000000 0 State.reset),
     exec (.firgenLp 0x1000) (tuned 0 0x409F400000000000 0x40BF400000000000 State.reset),
     exec (.firgenLp 0x1000) (tuned 4 0x7FF8000000000000 0x40BF400000000000 State.reset),
     exec (.firgenHp 0x1000) (tuned 4 0x409F400000000000 0x7FF0000000000000 State.reset),
     exec (.firgenLp 0x1000) (tuned 4 0x8000000000000000 0x40BF400000000000 State.reset),
     exec (.firgenLp 0x1000) (tuned 4 0xC014000000000000 0x40BF400000000000 State.reset),
     exec (.firgenHp 0x1000) (tuned 4 0x40AF400000000000 0x40BF400000000000 State.reset),
     exec (.firgenHp 0x1000) State.reset,
     exec (.firgenLp 0x1004) (tuned 4 0x409F400000000000 0x40BF400000000000 State.reset),
     exec (.firgenHp 0x3FFFE8) (tuned 4 0x409F400000000000 0x40BF400000000000 State.reset)].map errorOf =
    [some (2, 4, 4), some (2, 4, 4), some (3, 1, 4), some (3, 1, 4), some (3, 2, 4), some (3, 2, 4), some (3, 3, 4),
     some (3, 3, 4), some (5, 0x101, 4), some (5, 1, 4)] := by decide +kernel

/-- V-F6: 2000/8000 and 4000/16000. -/
theorem witness_LowPassRatio :
    isFinite 0x409F400000000000 = true ∧ isFinite 0x40BF400000000000 = true ∧ isFinite 0x40AF400000000000 = true ∧
    isFinite 0x40CF400000000000 = true ∧ 0 < units 0x409F400000000000 ∧ 0 < units 0x40AF400000000000 ∧
    2 * units 0x409F400000000000 < units 0x40BF400000000000 ∧ 2 * units 0x40AF400000000000 < units 0x40CF400000000000 ∧
    units 0x409F400000000000 * units 0x40CF400000000000 = units 0x40AF400000000000 * units 0x40BF400000000000 := by
  decide +kernel

theorem witness_KernelsCancel :
    (-2 : Int) ≠ 0 ∧ isFinite (fmul (lpc 0x409F400000000000 0x40BF400000000000 (-2)) 0x3FB47AE147AE147C) = true := by
  decide +kernel

/-- V-W2, the shortest window with inner values; N = 2; and N = 16, where 5/15 and 10/15 are 1/3 and 2/3. -/
theorem witness_HammingWindowFixedValues :
    ((List.range 4).map fun n => hamW n 4) =
      [0x3FB47AE147AE147C, 0x3FE8A3D70A3D70A4, 0x3FE8A3D70A3D70A4, 0x3FB47AE147AE147C] ∧
    hamW 0 2 = 0x3FB47AE147AE147C ∧ hamW 1 2 = 0x3FB47AE147AE147C ∧
    hamW 5 16 = 0x3FE8A3D70A3D70A4 ∧ hamW 10 16 = 0x3FE8A3D70A3D70A4 := by decide +kernel

/-! ## CONV and CONV.FAST -/

/-- V-C1 (E8): [1, 2, 3] * [1, 1], and RESULT. -/
theorem test_conv : seen (fun t => (readReals t.mem 0x300 4, t.result)) (exec (.conv false false false 0x300 0x100 3 0x200 2) loaded) =
    some (some [0x3FF0000000000000, 0x4008000000000000, 0x4014000000000000, 0x4008000000000000], 4) := by decide +kernel

/-- V-C5: X complex, F real. -/
theorem test_conv_complex :
    realsAt 0x300 6 (exec (.conv true false false 0x300 0x100 2 0x200 2) (withReals 0x200 [0x4000000000000000, 0x4008000000000000]
      (withReals 0x100 [0x3FF0000000000000, 0x3FF0000000000000, 0, 0xBFF0000000000000] State.reset))) =
    some [0x4000000000000000, 0x4000000000000000, 0x4008000000000000, 0x3FF0000000000000, 0, 0xC008000000000000] := by
  decide +kernel

/-- V-C3 with P = 4: the fast result differs from the direct one. -/
theorem test_conv_fast :
    realsAt 0x300 4 (exec (.convFast false false false 0x300 0x100 3 0x200 2)
      { withReals 0x200 [0x3FE0000000000000, 0x3FD0000000000000]
          (withReals 0x100 [0x3FB999999999999A, 0x3FC999999999999A, 0x3FD3333333333333] State.reset) with cfgConvFft := 4 }) =
    some [0x3FA999999999999E, 0x3FC0000000000001, 0x3FC999999999999A, 0x3FB3333333333334] := by decide +kernel

/-- V-C2 with P = 2: two segments and more, in the real domain. -/
theorem test_conv_fast_segments :
    realsAt 0x300 4 (exec (.convFast false false false 0x300 0x100 3 0x200 2) { loaded with cfgConvFft := 2 }) =
    some [0x3FF0000000000000, 0x4008000000000000, 0x4014000000000000, 0x4008000000000000] := by decide +kernel

theorem witness_ConvRealCompletes :
    1 ≤ (3 : Word).toNat ∧ 1 ≤ (2 : Word).toNat ∧ Fits loaded 0x3FFFE0 (8 * ((3 : Word).toNat + (2 : Word).toNat - 1)) ∧
    Fits loaded 0x100 (8 * (3 : Word).toNat) ∧ Fits loaded 0x200 (8 * (2 : Word).toNat) ∧
    Apart 0x3FFFE0 (8 * 4) 0x100 (8 * 3) ∧ Apart 0x3FFFE0 (8 * 4) 0x200 (8 * 2) ∧
    (∀ i, i < (3 : Word).toNat → rdF loaded.mem (0x100 + 8 * i) = some (oneToFour.getD i posZero)) ∧
    ∀ j, j < (2 : Word).toNat → rdF loaded.mem (0x200 + 8 * j) = some f64One := by decide +kernel

/-- X complex and F real; the same array as both sources (V-X29) is allowed. -/
theorem witness_ConvComplexCompletes :
    (true || false) = true ∧ Fits loaded 0x300 (esize (!false) * 3) ∧ Fits loaded 0x300 (esize (!true) * 3) ∧
    Fits loaded 0x100 (esize true * 2) ∧ Fits loaded 0x100 (esize false * 2) ∧
    Apart 0x300 (esize (!false) * 3) 0x100 (esize true * 2) ∧ Apart 0x300 (esize (!false) * 3) 0x100 (esize false * 2) ∧
    (∀ i, i < (2 : Word).toNat → (element true loaded.mem 0x100 i).isSome = true) ∧
    ∀ j, j < (2 : Word).toNat → (element false loaded.mem 0x100 j).isSome = true := by decide +kernel

/-- P = 2 = M, the least FFT length. -/
theorem witness_ConvFastCompletes :
    let s := { loaded with cfgConvFft := 2 }
    s.params.hasFastConv = true ∧ s.cfgConvFft.toNat = 2 ^ 1 ∧ 1 ≤ 1 ∧ 2 ^ 1 ≤ s.params.nmax ∧ (2 : Word).toNat ≤ 2 ^ 1 ∧
    Fits s 0x300 (esize ((false || false) && !false) * 4) ∧ Fits s 0x100 (esize false * 3) ∧ Fits s 0x200 (esize false * 2) ∧
    Apart 0x300 (esize false * 4) 0x100 (esize false * 3) ∧ Apart 0x300 (esize false * 4) 0x200 (esize false * 2) ∧
    (∀ i, i < (3 : Word).toNat → (element false s.mem 0x100 i).isSome = true) ∧
    ∀ j, j < (2 : Word).toNat → (element false s.mem 0x200 j).isSome = true := by decide +kernel

/-- V-X11, V-X12, V-X24, V-X28, and the other array checks of CONV. -/
theorem test_conv_errors :
    [exec (.conv false false false 0x1000 0 0 0x800 0) State.reset, exec (.conv false false false 0x1000 0 3 0x800 0) State.reset,
     exec (.conv false false false 0x1004 0 3 0x804 2) State.reset, exec (.conv false false false 0x3FFFE8 0 3 0x800 2) State.reset,
     exec (.conv false false false 0x1000 4 3 0x800 2) State.reset, exec (.conv true false false 0x1000 0x3FFFD8 3 0x800 2) State.reset,
     exec (.conv false false false 0x1000 0 3 0x804 2) State.reset, exec (.conv false true false 0x1000 0 3 0x3FFFE8 2) State.reset,
     exec (.conv false false false 0x1000 0xFF0 3 0x1010 2) State.reset,
     exec (.conv false false false 0x1000 0 3 0x1010 2) State.reset].map errorOf =
    [some (2, 7, 4), some (2, 8, 4), some (5, 0x101, 4), some (5, 1, 4), some (5, 0x102, 4), some (5, 2, 4), some (5, 0x104, 4),
     some (5, 4, 4), some (7, 0x201, 4), some (7, 0x401, 4)] := by decide +kernel

/-- V-E19, V-X13, V-X15: CONV.FAST. -/
theorem test_conv_fast_errors :
    [exec (.convFast false false false 0x1000 0 0 0x800 5) { State.reset with params := { Config.suggested with hasFastConv := false } },
     exec (.convFast false false false 0x1000 0 0 0x800 2) { State.reset with cfgConvFft := 1000 },
     exec (.convFast false false false 0x1000 0 3 0x800 2) { State.reset with cfgConvFft := 1 },
     exec (.convFast false false false 0x1000 0 3 0x800 2) { State.reset with cfgConvFft := 8192 },
     exec (.convFast false false false 0x1000 0 3 0x800 5) { State.reset with cfgConvFft := 4 },
     exec (.convFast false false false 0x1000 0x1000 3 0x800 4) { State.reset with cfgConvFft := 4 }].map errorOf =
    [some (1, 5, 4), some (2, 7, 4), some (2, 9, 4), some (2, 9, 4), some (2, 10, 4), some (7, 0x201, 4)] := by decide +kernel

theorem witness_ConvElement : 3 < oneToFour.length + oneToFour.length - 1 ∧
    6 < (oneToFour.map promote).length + oneToFour.length - 1 := by decide

/-- The eight bytes of 1.0. -/
theorem witness_MemoryIsLittleEndian :
    ∀ k, k < 8 → readByte loaded.mem (0x100 + k) = some ([0, 0, 0, 0, 0, 0, 0xF0, 0x3F].getD k 0) := by decide +kernel

/-! ## The host's side -/

/-- The word address of a register on the bus of `Config.suggested`. -/
def reg (offset : Nat) : Nat := Config.suggested.regBaseWord + offset / 4

/-- V-H1 to V-H4. -/
theorem test_reset_registers :
    [0x000, 0x004, 0x008, 0x014, 0x018, 0x024, 0x040, 0x044, 0x048, 0x04C, 0x050, 0x054].map (readRegister · State.reset) =
    [0x42344C44, 0x00000007, 0x0001160C, 0, 0, 0, 0x400, 0x200, 0x200, 0x400, 0, 0x408F4000] := by decide

/-- V-H5, V-H6, V-H13: CPC and IRQ_EN keep their hardwired zeros; CFG_WINDOW is kept while BUSY. -/
theorem test_register_writes :
    seen State.cpc (hostAccess (.write (reg 0x024) 0x47) State.reset) = some 0x40 ∧
    seen State.irqEn (hostAccess (.write (reg 0x018) 0xFFFFFFFF) State.reset) = some 0x1E ∧
    seen (fun t => (t.cfgWindow, t.status)) (hostAccess (.write (reg 0x040) 8) { State.reset with status := 1 }) =
      some (0x400, 0x11) := by decide +kernel

/-- V-H8, V-H9: a start request; a write of 7 is a soft reset only. -/
theorem test_ctrl :
    seen (fun t => (t.status, readRegister 0x010 t)) (hostAccess (.write (reg 0x010) 1) State.reset) = some (1, 0) ∧
    seen (fun t => (t.status, t.cfgWindow)) (hostAccess (.write (reg 0x010) 7) { State.reset with status := 2, cfgWindow := 8 }) =
      some (0, 1024) := by decide +kernel

/-- V-H10, V-H11: write-one-to-clear, and IRQ as a level. -/
theorem test_status_and_irq :
    seen State.status (hostAccess (.write (reg 0x014) 3) { State.reset with status := 2 }) = some 0 ∧
    State.irq { State.reset with status := 2, irqEn := 2 } = true ∧
    State.irq { State.reset with status := 2, irqEn := 4 } = false := by decide +kernel

/-- V-H12, V-H21: DMEM read while BUSY, and while IDLE. -/
theorem test_dmem_read :
    seen (fun t => (t.hostData, t.status)) (hostReadDmem 0x100 { loaded with status := 1 }) = some (0, 0x11) ∧
    seen State.hostData (hostReadDmem 0x104 loaded) = some 0x3FF00000 := by decide +kernel

/-- V-H16, V-H17, V-H18: the ROM read port. -/
theorem test_rom_port :
    [0x068, 0x06C, 0x070, 0x074].map (readRegister · State.reset) = [0, 0x3FF00000, 0, 0] ∧
    [0x068, 0x06C, 0x070, 0x074].map (readRegister · { State.reset with twIndex := 1024 }) = [0, 0, 0, 0x3FF00000] ∧
    seen State.twIndex (hostAccess (.write (reg 0x060) 0x900) State.reset) = some 0x100 := by decide +kernel

/-- V-H7, and offsets at the ends of the reserved ranges. -/
theorem witness_ReservedOffsets :
    [0x00C, 0x030, 0x03C, 0x064, 0x078, 0xFFC].map (readRegister · State.reset) = [0, 0, 0, 0, 0, 0] := by decide

/-- R62: the last word of the register block, the first and the last of the aperture, and one beyond. -/
theorem test_bus :
    [1023, 1024, 0x100000, 0x1FFFFF, 0x200000].map (busTarget Config.suggested) =
    [.register 0xFFC, .elsewhere, .dmem 0, .dmem 0x3FFFFC, .elsewhere] := by decide +kernel

theorem witness_BusyDropsHostAccesses :
    let s := { State.reset with status := 1 }
    s.busy = true ∧ busTarget s.params 0x100000 = .dmem 0 ∧
    [0x010, 0x014, 0x018, 0x024, 0x05C, 0x060].map (fun o => busTarget s.params (reg o)) =
      [0x010, 0x014, 0x018, 0x024, 0x05C, 0x060].map BusTarget.register := by decide +kernel

theorem witness_CtrlWrites :
    [0, 1, 2, 4, 0xFFFFFFF8].map (fun v : Word => (v.getLsbD 2, v.getLsbD 1, v.getLsbD 0)) =
      [(false, false, false), (false, false, true), (false, true, false), (true, false, false), (false, false, false)] ∧
    State.busy State.reset = false ∧ State.busy lastEnd = true := by decide

/-- The ends of the two regions of R62, and 1.0 at DMEM offset 0x100, whose upper word is at 0x104. -/
theorem witness_IdleHostWords :
    loaded.busy = false ∧ busTarget loaded.params 0x100041 = .dmem 0x104 ∧
    [0x104, 0x105, 0x106, 0x107].map (readByte loaded.mem) = [some 0, some 0, some 0xF0, some 0x3F] ∧
    busTarget loaded.params (reg 0xFFC) = .register 0xFFC ∧ busTarget loaded.params 0x200000 = .elsewhere ∧
    0x3FFFFC % 4 = 0 ∧ 0x3FFFFC < Config.suggested.dmemSize := by decide +kernel

/-- R61, R64: byte k of a word the host writes is v[8k+7:8k]. -/
theorem test_host_word :
    seen (fun t => (readBytes t.mem 0x104 4)) (hostAccess (.write 0x100041 0x11223344) State.reset) =
      some (some [0x44, 0x33, 0x22, 0x11]) := by decide +kernel

/-- R32, R43 to R48: a host write to a register while IDLE, and one to a register marked RO. -/
theorem test_idle_register_writes :
    seen State.cfgConvFft (hostAccess (.write (reg 0x04C) 64) State.reset) = some 64 ∧
    seen id (hostAccess (.write (reg 0x02C) 64) State.reset) = some State.reset ∧ State.reset.busy = false := by decide +kernel

theorem witness_BusyRunIsIsolated :
    let s := { State.reset with status := 1 }
    s.busy = true ∧ (∃ t, hostAccess (.write (reg 0x024) 0x40) s = .next t) ∧
    (∀ w v, HostAccess.write (reg 0x024) 0x40 = .write w v → busTarget s.params w = .register 0x010 → v.getLsbD 2 = false) := by
  refine ⟨by decide, ⟨_, rfl⟩, fun w v h => ?_⟩
  cases h
  exact fun h => absurd h (by decide)

/-! ## Abort and reset -/

/-- A running engine at CPC = 0 with an FFT of V-T2's input. -/
def runningFft : State := running (.fft false 0x300 0x100 2) 0 loaded

/-- END, and a data command, at CPC with an abort pending: whichever point the abort takes effect at, the step
answers a next state. -/
theorem witness_AbortOutcomes : ∀ s ∈ [lastEnd, runningFft], s.busy = true ∧ s.turns = [] ∧
    ∃ t, step { s with abortPending := true } = .next t := by
  have h : ∀ s ∈ [lastEnd, runningFft], ∀ p,
      ∃ t, interruptAt p { { s with abortPending := true } with draws := s.draws + 1 } = .next t := by
    intro s hs p
    simp only [List.mem_cons, List.not_mem_nil, or_false] at hs
    obtain rfl | rfl := hs <;> cases p <;> exact ⟨_, rfl⟩
  intro s hs
  simp only [List.mem_cons, List.not_mem_nil, or_false] at hs
  obtain rfl | rfl := hs
  · exact ⟨by decide, rfl, h lastEnd (by simp) _⟩
  · exact ⟨by decide, rfl, h runningFft (by simp) _⟩

/-- R214 outcome 1: an abort after END has no effect; outcome 2: a NOP cut in its middle keeps CPC and CMD_COUNT. -/
theorem test_abort :
    seen (fun t => (t.status, t.cmdCount)) (interruptAt .after lastEnd) = some (2, 1) ∧
    seen (fun t => (t.status, t.cmdCount, t.cpc)) (interruptAt (.cut true) (running .nop 0x40 State.reset)) =
      some (8, 0, 0x40) := by decide +kernel

/-- R214 outcome 2 for SETCFG, its write done or not; outcome 3: a failing command's error wins. -/
theorem test_abort_cut :
    [true, false].map (fun b => seen (fun t => (t.status, t.cfgStep)) (interruptAt (.cut b) (running (.setcfg .step 7 0) 0 State.reset))) =
      [some (8, 7), some (8, 512)] ∧
    errorOf (interruptAt (.cut true) (running (.fft false 0 0 3) 0x100 State.reset)) = some (2, 5, 4) := by decide +kernel

/-- The state of V-F1. -/
def firDemo : State := tuned 4 0x409F400000000000 0x40BF400000000000 State.reset

theorem witness_AbortedCommandReruns : ∃ j t, jobOf (.firgenLp 0x100) firDemo = some j ∧
    Available firDemo.params.hasFastConv (.firgenLp 0x100) ∧ j.error firDemo.params.dmemSize = none ∧
    exec (.firgenLp 0x100) firDemo = .next t := by
  have h : (firgenJob lpc 0x100 firDemo).error firDemo.params.dmemSize = none := by decide +kernel
  obtain ⟨xs, hx⟩ : ∃ xs, (firgenJob lpc 0x100 firDemo).output firDemo.mem = some xs := ⟨_, rfl⟩
  have run : execFirgenLp 0x100 firDemo = .next _ := runJob_of_pass h hx
  exact ⟨_, _, rfl, trivial, h, run⟩

/-- IDLE; BUSY at a command with and at one without a destination; CPC beyond DMEM; and bit 2 of a write. -/
theorem witness_SoftReset :
    State.reset.busy = false ∧ (4 : Word).getLsbD 2 = true ∧ lastEnd.busy = true ∧ runningFft.busy = true ∧
    commandAt lastEnd = some .endList ∧ commandAt runningFft = some (.fft false 0x300 0x100 2) ∧
    State.reset.params.dmemSize < (0x3FFFE1 : Word).toNat + 32 ∧ readByte runningFft.mem 0 = some 0x12 := by
  decide +kernel

/-- A busy engine whose CPC points at bytes that nothing has written. -/
def busyOnUnwritten : State := { State.reset with status := 1, cfgWindow := 8, cpc := 0x40 }

/-- R241, "cannot be masked or refused": a soft reset at bytes, or at a source, that nothing has written. -/
theorem test_soft_reset_unwritten :
    [busyOnUnwritten, running (.fft false 0x300 0x1000 2) 0x40 busyOnUnwritten].map (fun s =>
      seen (fun t => (t.status, t.cfgWindow, t.cpc)) (hostAccess (.write (reg 0x010) 4) s)) =
    [some (0, 1024, 0), some (0, 1024, 0)] := by rfl

/-- R214, R241, I9: an abort and the soft reset after it leave bytes of their own, drawn with different numbers. -/
theorem test_interruptions_draw_apart :
    readByte (cutCommand (.fft false 0x300 0x100 2) true (nextDraw runningFft)).mem 0x300 =
      some (Config.freeByte 1 0x300) ∧
    readByte (stoppedMem (.cut true) (nextDraw (nextDraw runningFft))) 0x300 = some (Config.freeByte 2 0x300) ∧
    (softReset runningFft).draws = (nextDraw runningFft).draws := ⟨rfl, rfl, rfl⟩

/-- R241 at each point: before the fetch, completed (V-T2), or cut, where the bytes outside DST stay. -/
theorem test_soft_reset_points :
    readReals (stoppedMem .before runningFft) 0x300 1 = none ∧
    readReals (stoppedMem .after runningFft) 0x300 1 = some [0x4008000000000000] ∧
    (readReals (stoppedMem (.cut true) runningFft) 0x300 4).isSome = true ∧
    readReals (stoppedMem (.cut true) runningFft) 0x100 2 = some [0x3FF0000000000000, 0x4000000000000000] := by
  decide +kernel

theorem witness_PowerOnReset : ({ loaded with turns := [.powerOn, .engine] } : State).turns = .powerOn :: [.engine] := rfl

/-! ## Invariants -/

/-- A running engine with the command NOP meets the invariant, and its step answers a next state. -/
theorem witness_StepKeepsInvariant : (running .nop 0x40 State.reset).Inv ∧ ∃ t, step (running .nop 0x40 State.reset) = .next t := by
  refine ⟨⟨⟨?_, ?_, ?_, ?_, ?_⟩, ⟨?_, ?_, ?_, ?_⟩, ⟨?_, ?_⟩, ⟨?_, ?_, ?_, ?_, ?_⟩⟩, _, rfl⟩ <;> decide +kernel

/-- The same for the END that ends a run. -/
theorem witness_RunEnds : lastEnd.Inv ∧ lastEnd.busy = true ∧ lastEnd.turns = [] ∧
    ∃ t, step lastEnd = .next t ∧ t.busy = false := by
  refine ⟨⟨⟨?_, ?_, ?_, ?_, ?_⟩, ⟨?_, ?_, ?_, ?_⟩, ⟨?_, ?_⟩, ⟨?_, ?_, ?_, ?_, ?_⟩⟩, by decide, rfl, _, rfl, ?_⟩ <;> decide +kernel

/-- States from which every one of the DMEM_SIZE/32 + 1 steps answers a next state: IDLE right after reset, and BUSY
at the last descriptor of DMEM. -/
theorem witness_EveryRunEnds : ∀ s ∈ [State.reset, lastEnd], s.turns = [] ∧
    ∃ t, Host.Core.run core (s.params.dmemSize / 32 + 1) s = .next t := by
  have idle : ∀ (t : State), step t = .next t → ∀ n, Host.Core.run core n t = .next t := by
    intro t ht n
    induction n with
    | zero => rfl
    | succ n ih => simpa only [Host.Core.run, core, ht] using ih
  obtain ⟨t, ht, hidle⟩ : ∃ t, step lastEnd = .next t ∧ step t = .next t := ⟨_, rfl, rfl⟩
  intro s hs
  simp only [List.mem_cons, List.not_mem_nil, or_false] at hs
  obtain rfl | rfl := hs
  · exact ⟨rfl, _, idle _ rfl _⟩
  · exact ⟨rfl, t, by simpa only [Host.Core.run, core, ht] using idle t hidle _⟩

end Sys2Proof.Tests
end

section
/-! SUPPORT. The binary64 operations add and mul commute bit for bit, and with them the complex product
(spec/00_scope.md R15, R16): the proof of obligation O40. -/

namespace Sys2Proof.Machine

/-- The three fields of R13 determine the encoding. -/
theorem f64_ext {a b : F64} (hs : signBit a = signBit b) (he : expField a = expField b)
    (hf : fracField a = fracField b) : a = b := by
  unfold signBit at hs
  unfold expField at he
  unfold fracField at hf
  rw [← BitVec.testBit_toNat, ← BitVec.testBit_toNat, Nat.testBit_eq_decide_div_mod_eq,
    Nat.testBit_eq_decide_div_mod_eq, decide_eq_decide] at hs
  rw [BitVec.extractLsb'_toNat, BitVec.extractLsb'_toNat, Nat.shiftRight_eq_div_pow, Nat.shiftRight_eq_div_pow] at he hf
  have ha := a.isLt
  have hb := b.isLt
  apply BitVec.eq_of_toNat_eq
  omega

theorem isInf_iff {a : F64} : isInf a = true ↔ expField a = 2047 ∧ fracField a = 0 := by
  simp only [isInf, Bool.and_eq_true, beq_iff_eq]

/-- There is one infinity of each sign. -/
theorem eq_of_isInf {a b : F64} (ha : isInf a = true) (hb : isInf b = true) (hs : signBit a = signBit b) : a = b := by
  obtain ⟨hea, hfa⟩ := isInf_iff.mp ha
  obtain ⟨heb, hfb⟩ := isInf_iff.mp hb
  exact f64_ext hs (hea.trans heb.symm) (hfa.trans hfb.symm)

/-- `add` is commutative bit for bit (R16). Its one branch that is not symmetric in its form answers the left of two
infinities of one sign, and these are equal. -/
theorem fadd_comm (a b : F64) : fadd a b = fadd b a := by
  unfold fadd
  rw [Bool.or_comm (isNaN b), Bool.and_comm (signBit b), Int.add_comm (units b)]
  by_cases ha : isInf a = true
  · by_cases hb : isInf b = true
    · by_cases hs : signBit a = signBit b
      · rw [eq_of_isInf ha hb hs]
      · simp only [ha, hb, bne_iff_ne.mpr hs, bne_iff_ne.mpr (Ne.symm hs), Bool.and_self, ↓reduceIte]
    · simp only [ha, hb, Bool.false_and, Bool.false_eq_true, ↓reduceIte]
  · simp only [ha, Bool.false_and, Bool.false_eq_true, ↓reduceIte]

/-- `mul` is commutative bit for bit (R16): the sign, the special cases and the exact product are symmetric. -/
theorem fmul_comm (a b : F64) : fmul a b = fmul b a := by
  have hsign : (signBit a != signBit b) = (signBit b != signBit a) := Bool.xor_comm ..
  unfold fmul
  rw [hsign, Bool.or_comm (isNaN a), Bool.or_comm (isInf a), Nat.mul_comm (magUnits a),
    Bool.or_comm (decide (magUnits a = 0))]

/-- `cmul` is commutative bit for bit (R16): the real parts agree by `fmul_comm` alone, and the two products of the
imaginary part change places. -/
theorem cmul_comm (z w : C64) : cmul z w = cmul w z := by
  have hre : fsub (fmul z.re w.re) (fmul z.im w.im) = fsub (fmul w.re z.re) (fmul w.im z.im) := by
    rw [fmul_comm z.re, fmul_comm z.im]
  have him : fadd (fmul z.re w.im) (fmul z.im w.re) = fadd (fmul w.re z.im) (fmul w.im z.re) := by
    rw [fmul_comm z.re, fmul_comm z.im, fadd_comm]
  unfold cmul
  rw [hre, him]

end Sys2Proof.Machine

namespace Sys2Proof.Claims

open Sys2Proof.Machine

/-- Settles O40: the lines of R16 are the definitions of the model, and commutativity comes from that of `add` and
`mul`, bit for bit. -/
theorem complexMultiplicationCommutes : Obligations.ComplexMultiplicationCommutes :=
  ⟨fun a b _ _ _ => ⟨rfl, rfl, rfl, rfl, fadd_comm a b, fmul_comm a b⟩, cmul_comm⟩

end Sys2Proof.Claims
end

section
/-! SUPPORT. No step changes the implementation parameters (spec/00_scope.md R6), said once for each operation a
step is made of. -/

namespace Sys2Proof.Machine

theorem exec_params {i : Instr} {s t : State} (h : exec i s = .next t) : t.params = s.params := by
  rcases exec_cases h with ⟨-, rfl⟩ | ⟨-, rfl⟩ | ⟨r, lo, hi, -, rfl⟩ | ⟨e, rfl⟩ | ⟨j, xs, -, -, -, -, rfl⟩ <;>
    simp

theorem runCommand_params {s t : State} (h : runCommand s = .next t) : t.params = s.params := by
  rcases runCommand_cases h with ⟨e, rfl⟩ | ⟨-, bs, i, -, -, hexec⟩
  · exact raise_params s e
  · exact exec_params hexec

@[simp] theorem cutCommand_params (i : Instr) (done : Bool) (s : State) :
    (cutCommand i done s).params = s.params := by
  rcases cutCommand_cases i done s with ⟨e, h⟩ | h | ⟨r, lo, hi, -, h⟩ | ⟨j, -, -, h⟩ <;> simp [h]

theorem interruptAt_params {p : AbortPoint} {s t : State} (h : interruptAt p s = .next t) :
    t.params = s.params := by
  rcases interruptAt_cases h with ⟨e, rfl⟩ | rfl | ⟨u, hu, rfl⟩ | ⟨-, i, done, rfl⟩
  · exact raise_params s e
  · exact endAborted_params s
  · rw [← runCommand_params hu]
    split <;> simp
  · exact cutCommand_params i done s

theorem engineTurn_params {s t : State} (h : engineTurn s = .next t) : t.params = s.params := by
  unfold engineTurn at h
  split at h
  · split at h
    · exact interruptAt_params (s := nextDraw s) h
    · exact runCommand_params h
  · cases h; rfl

@[simp] theorem softReset_params (s : State) : (softReset s).params = s.params := by
  rw [softReset_eq]

@[simp] theorem abortRequest_params (s : State) : (abortRequest s).params = s.params := by
  unfold abortRequest; split <;> rfl

@[simp] theorem startRequest_params (s : State) : (startRequest s).params = s.params := by
  unfold startRequest; split <;> rfl

theorem writeCtrl_params {v : Word} {s t : State} (h : writeCtrl v s = .next t) : t.params = s.params := by
  unfold writeCtrl at h
  split at h
  · cases h; exact softReset_params s
  · split at h
    · cases h; exact abortRequest_params s
    · split at h
      · cases h; exact startRequest_params s
      · cases h; rfl

theorem whenIdle_params {store : State → State} {s t : State} (hstore : (store s).params = s.params)
    (h : whenIdle store s = .next t) : t.params = s.params := by
  cases h
  split
  · exact violation_params s
  · exact hstore

theorem writeReg_params {r : Reg} {v : Word} {s t : State} (h : writeReg r v s = .next t) :
    t.params = s.params := by
  cases r with
  | ctrl => exact writeCtrl_params h
  | cpc | cfgWindow | cfgStep | cfgFirSize | cfgConvFft | cfgCutoffLo | cfgCutoffHi | cfgFsLo | cfgFsHi =>
    simp only [writeReg] at h
    refine whenIdle_params ?_ h
    rfl
  | _ => cases h; rfl

theorem writeRegister_params {off : Nat} {v : Word} {s t : State} (h : writeRegister off v s = .next t) :
    t.params = s.params := by
  unfold writeRegister at h
  split at h
  · exact writeReg_params h
  · cases h; rfl

theorem hostReadDmem_params {a : Nat} {s t : State} (h : hostReadDmem a s = .next t) : t.params = s.params := by
  unfold hostReadDmem at h
  split at h
  · cases h; rfl
  · split at h <;> cases h
    rfl

theorem hostWriteDmem_params {a : Nat} {v : Word} {s t : State} (h : hostWriteDmem a v s = .next t) :
    t.params = s.params := by
  unfold hostWriteDmem at h
  split at h <;> cases h <;> rfl

theorem hostAccess_params {a : HostAccess} {s t : State} (h : hostAccess a s = .next t) : t.params = s.params := by
  cases a with
  | read w =>
    simp only [hostAccess] at h
    split at h
    · cases h; rfl
    · exact hostReadDmem_params h
    · cases h; rfl
  | write w v =>
    simp only [hostAccess] at h
    split at h
    · exact writeRegister_params h
    · exact hostWriteDmem_params h
    · cases h; rfl

/-- No step changes the implementation parameters: a turn of the sequencer, of the host or of the reset input (R6). -/
theorem step_params {s t : State} (h : step s = .next t) : t.params = s.params := by
  unfold step takeTurn at h
  split at h
  · exact engineTurn_params h
  · exact (engineTurn_params h).trans rfl
  · exact (hostAccess_params h).trans rfl
  · cases h; rfl

end Sys2Proof.Machine
end

section
/-! SUPPORT. The registers PARAM and CTRL and the line IRQ (spec/10_state.md R34, R35, R54): the proofs of the
obligations O44, O46 and O51. -/

namespace Sys2Proof.Machine

/-! ## PARAM -/

/-- LOG2_NMAX fits bits 4:0 of PARAM, by its legal range (R6). -/
theorem log2Nmax_lt (p : Params) : p.log2Nmax < 2 ^ 5 := by unfold Params.log2Nmax; omega

/-- log2(DMEM_SIZE) fits bits 12:8 of PARAM, by its legal range (R6). -/
theorem log2Dmem_lt (p : Params) : p.log2Dmem < 2 ^ 5 := by unfold Params.log2Dmem; omega

/-- PARAM as its fields, the highest first: no parameter carries into the field above its own. -/
theorem paramWord_eq_append (p : Params) :
    paramWord p = (0#15 ++ BitVec.ofBool p.hasFastConv ++ (0#3 ++ BitVec.ofNat 5 p.log2Dmem) ++
      (0#3 ++ BitVec.ofNat 5 p.log2Nmax) : BitVec 32) := by
  have hnmax := log2Nmax_lt p
  have hdmem := log2Dmem_lt p
  have hfast := Bool.toNat_lt p.hasFastConv
  apply BitVec.eq_of_toNat_eq
  rw [BitVec.toNat_append, BitVec.toNat_append]
  simp only [paramWord, BitVec.toNat_append, BitVec.toNat_ofNat, BitVec.toNat_ofBool, Nat.zero_mod,
    Nat.zero_shiftLeft, Nat.zero_or, Nat.mod_eq_of_lt hnmax, Nat.mod_eq_of_lt hdmem]
  rw [← Nat.shiftLeft_add_eq_or_of_lt (by omega), ← Nat.shiftLeft_add_eq_or_of_lt (by omega)]
  simp only [Nat.shiftLeft_eq]
  omega

theorem paramWord_log2Nmax (p : Params) : ((paramWord p).extractLsb' 0 5).toNat = p.log2Nmax := by
  rw [paramWord_eq_append, BitVec.extractLsb'_append_eq_of_add_le (by omega),
    BitVec.extractLsb'_append_eq_right, BitVec.toNat_ofNat, Nat.mod_eq_of_lt (log2Nmax_lt p)]

theorem paramWord_log2Dmem (p : Params) : ((paramWord p).extractLsb' 8 5).toNat = p.log2Dmem := by
  rw [paramWord_eq_append, BitVec.extractLsb'_append_eq_of_le (by omega),
    BitVec.extractLsb'_append_eq_of_add_le (by omega),
    BitVec.extractLsb'_append_eq_right, BitVec.toNat_ofNat, Nat.mod_eq_of_lt (log2Dmem_lt p)]

theorem paramWord_hasFastConv (p : Params) : (paramWord p).getLsbD 16 = p.hasFastConv := by
  rw [paramWord_eq_append, BitVec.getLsbD_append]
  simp only [BitVec.getLsbD_append]
  simp

/-- The bits of PARAM outside its three fields are 0: the mask, cut along the fields, is 0 on each of them. -/
theorem paramWord_reserved (p : Params) : paramWord p &&& 0xFFFEE0E0 = 0 := by
  have hmask : (0xFFFEE0E0 : Word) = (0x7FFF#15 ++ 0#1 ++ (0x7#3 ++ 0#5) ++ (0x7#3 ++ 0#5) : BitVec 32) := by
    decide
  rw [paramWord_eq_append, hmask, BitVec.and_append]
  simp only [BitVec.and_append, BitVec.and_zero, BitVec.zero_and]
  rfl

theorem readRegister_param (s : State) : readRegister 0x008 s = paramWord s.params := rfl

theorem writeRegister_param (v : Word) (s : State) : writeRegister 0x008 v s = .next s := rfl

/-! ## CTRL -/

theorem writeRegister_ctrl (v : Word) (s : State) : writeRegister 0x010 v s = writeCtrl v s := rfl

/-- A start request from IDLE as one next state: clearing the three end flags one by one is one mask (R101). -/
theorem startRequest_eq_of_idle {s : State} (h : s.busy = false) :
    startRequest s = { s with
      status := (s.status &&& 0xFFFFFFF1) ||| 0x1, errCode := 0, errInfo := 0, cmdCount := 0 } := by
  have hmask : (~~~flagMask .done &&& ~~~flagMask .err &&& ~~~flagMask .aborted : Word) = 0xFFFFFFF1 := by decide
  have hstatus : ((((s.clearFlag .done).clearFlag .err).clearFlag .aborted).setFlag .busy).status =
      (s.status &&& 0xFFFFFFF1) ||| 0x1 := by
    rw [← hmask]
    simp only [setFlag_status, clearFlag_status, BitVec.and_assoc]
    rfl
  rw [startRequest_of_idle h, ← hstatus]
  rfl

/-! ## IRQ -/

/-- A word is not zero when one of its bits is set. -/
theorem bitVec_ne_zero_iff {w : Nat} {x : BitVec w} : x ≠ 0 ↔ ∃ i < w, x.getLsbD i = true := by
  rw [← not_iff_not]
  simp [BitVec.eq_of_getLsbD_eq_iff]

/-- IRQ in the bits of the field 4:1 that R54 compares, counted from its lowest. -/
theorem irq_iff (s : State) :
    s.irq = true ↔ ∃ i < 4, s.status.getLsbD (1 + i) = true ∧ s.irqEn.getLsbD (1 + i) = true := by
  unfold State.irq
  rw [bne_iff_ne, bitVec_ne_zero_iff]
  refine exists_congr fun i => and_congr_right fun hi => ?_
  simp [hi]

end Sys2Proof.Machine

namespace Sys2Proof.Claims

open Sys2Proof.Machine

/-- Settles O44: the fields are read off PARAM as an append of them, and no step changes the parameters it is
made of. -/
theorem paramFieldsAreTheParameters : Obligations.ParamFieldsAreTheParameters := by
  intro s
  have hnmax := paramWord_log2Nmax s.params
  have hdmem := paramWord_log2Dmem s.params
  simp only [readRegister_param]
  refine ⟨hnmax, hdmem, paramWord_hasFastConv _, paramWord_reserved _, ?_, ?_,
    fun v => writeRegister_param v s, fun t ht => congrArg paramWord (step_params ht)⟩
  · rw [hnmax, Params.nmax]
  · rw [hdmem, Params.dmemSize]

/-- Settles O46, along the branches of `writeCtrl`. -/
theorem ctrlWritesInPriorityOrder : Obligations.CtrlWritesInPriorityOrder := by
  intro s v
  rw [writeRegister_ctrl, writeCtrl]
  refine ⟨rfl, fun hsoft => if_pos hsoft, fun hsoft habort => ?_, fun hsoft habort hstart => ?_,
    fun hsoft habort hstart => ?_⟩
  · simp only [hsoft, habort, abortRequest, Bool.false_eq_true, ↓reduceIte]
  · simp only [hsoft, habort, hstart, Bool.false_eq_true, ↓reduceIte]
    exact ⟨fun hbusy => congrArg _ (startRequest_of_busy hbusy),
      fun hidle => congrArg _ (startRequest_eq_of_idle hidle)⟩
  · simp only [hsoft, habort, hstart, Bool.false_eq_true, ↓reduceIte]

/-- Settles O51: bit `k` of STATUS and of IRQ_EN is bit `k - 1` of the field that `irq_iff` speaks of. -/
theorem irqIsLevelOfEnabledSources : Obligations.IrqIsLevelOfEnabledSources := by
  intro s
  rw [irq_iff]
  constructor
  · rintro ⟨i, hi, hbits⟩
    exact ⟨1 + i, by omega, by omega, hbits⟩
  · rintro ⟨k, hk1, hk4, hbits⟩
    obtain ⟨i, rfl⟩ := Nat.exists_eq_add_of_le hk1
    exact ⟨i, by omega, hbits⟩

end Sys2Proof.Claims
end

section
/-! SUPPORT. What a host access does while BUSY (spec/20_memory.md R65): the proof of obligation O49. -/

namespace Sys2Proof.Machine

/-! ## Where an access goes -/

section Target

variable {s : State} {w off : Nat}

theorem hostAccess_read_register (h : busTarget s.params w = .register off) :
    hostAccess (.read w) s = .next { s with hostData := readRegister off s } := by
  simp only [hostAccess, h]

theorem hostAccess_write_register (v : Word) (h : busTarget s.params w = .register off) :
    hostAccess (.write w v) s = writeRegister off v s := by
  simp only [hostAccess, h]

theorem hostAccess_read_dmem (h : busTarget s.params w = .dmem off) :
    hostAccess (.read w) s = hostReadDmem off s := by
  simp only [hostAccess, h]

theorem hostAccess_write_dmem (v : Word) (h : busTarget s.params w = .dmem off) :
    hostAccess (.write w v) s = hostWriteDmem off v s := by
  simp only [hostAccess, h]

end Target

/-! ## What is dropped -/

/-- A dropped access as one next state: HOST_VIOL is bit 4 of STATUS. -/
theorem violation_eq (s : State) : violation s = { s with status := s.status ||| 0x10 } := by
  have hmask : flagMask .hostViol = 0x10 := by decide
  rw [violation, State.setFlag, hmask]

/-- CPC and the CFG_ registers, marked "RW when idle" in R32. -/
def idleOnlyRegs : List Reg :=
  [.cpc, .cfgWindow, .cfgStep, .cfgFirSize, .cfgConvFft, .cfgCutoffLo, .cfgCutoffHi, .cfgFsLo, .cfgFsHi]

/-- The offsets of `idleOnlyRegs` in the register map. -/
def idleOnlyOffsets : List Nat := [0x024, 0x040, 0x044, 0x048, 0x04C, 0x050, 0x054, 0x058, 0x05C]

theorem map_regAt_idleOnlyOffsets : idleOnlyOffsets.map regAt = idleOnlyRegs.map some := by decide

section Busy

variable {s : State}

theorem hostReadDmem_of_busy (a : Nat) (h : s.busy = true) :
    hostReadDmem a s = .next { violation s with hostData := 0 } :=
  if_pos h

theorem hostWriteDmem_of_busy (a : Nat) (v : Word) (h : s.busy = true) :
    hostWriteDmem a v s = .next (violation s) :=
  if_pos h

theorem whenIdle_of_busy (store : State → State) (h : s.busy = true) :
    whenIdle store s = .next (violation s) :=
  congrArg Host.Outcome.next (if_pos h)

/-- Each of these registers stores through `whenIdle`, so while BUSY its own store does not matter (R65 (c)). -/
theorem writeReg_idleOnly_of_busy {r : Reg} (v : Word) (hr : r ∈ idleOnlyRegs) (h : s.busy = true) :
    writeReg r v s = .next (violation s) := by
  cases r with
  | cpc | cfgWindow | cfgStep | cfgFirSize | cfgConvFft | cfgCutoffLo | cfgCutoffHi | cfgFsLo | cfgFsHi =>
    simp only [writeReg, whenIdle_of_busy _ h]
  | _ => exact absurd hr (by decide)

theorem writeRegister_idleOnly_of_busy {off : Nat} (v : Word) (hoff : off ∈ idleOnlyOffsets) (h : s.busy = true) :
    writeRegister off v s = .next (violation s) := by
  have hmem : regAt off ∈ idleOnlyRegs.map some := map_regAt_idleOnlyOffsets ▸ List.mem_map_of_mem hoff
  obtain ⟨r, hr, hat⟩ := List.mem_map.mp hmem
  rw [writeRegister, ← hat]
  exact writeReg_idleOnly_of_busy v hr h

/-! ## What is performed -/

theorem abortRequest_of_busy (h : s.busy = true) : abortRequest s = { s with abortPending := true } :=
  if_pos h

/-- CTRL while BUSY: a start request has no effect, so bit 0 does not matter (R35, R101). -/
theorem writeCtrl_of_busy (v : Word) (h : s.busy = true) :
    writeCtrl v s =
      .next (if v.getLsbD 2 then softReset s else if v.getLsbD 1 then { s with abortPending := true } else s) := by
  rw [writeCtrl, abortRequest_of_busy h, startRequest_of_busy h, ite_self]
  split
  · rfl
  · split <;> rfl

end Busy

theorem writeRegister_status (v : Word) (s : State) :
    writeRegister 0x014 v s = .next { s with status := s.status &&& ~~~(v &&& 0x1E) } := rfl

theorem writeRegister_irqEn (v : Word) (s : State) :
    writeRegister 0x018 v s = .next { s with irqEn := v &&& 0x1E } := rfl

theorem writeRegister_twIndex (v : Word) (s : State) :
    writeRegister 0x060 v s = .next { s with twIndex := BitVec.ofNat 32 (v.toNat % (s.params.nmax / 2)) } := rfl

/-- A soft reset clears every flag: STATUS is the one after reset (R241). -/
theorem flag_softReset (s : State) (f : Flag) : (softReset s).flag f = false := by
  rw [softReset_eq, ← flag_resetRegisters s f]
  exact flag_congr rfl f

end Sys2Proof.Machine

namespace Sys2Proof.Claims

open Sys2Proof.Machine

/-- Settles O49: the target of the access selects its operation, and BUSY the branch of that operation. -/
theorem busyDropsHostAccesses : Obligations.BusyDropsHostAccesses := by
  intro s w off v hbusy
  rw [← violation_eq]
  refine ⟨fun hdmem => ⟨?read, ?write⟩, fun hreg => ⟨hostAccess_read_register hreg, ?_⟩⟩
  case read => rw [hostAccess_read_dmem hdmem, hostReadDmem_of_busy off hbusy]
  case write => rw [hostAccess_write_dmem v hdmem, hostWriteDmem_of_busy off v hbusy]
  rw [hostAccess_write_register v hreg]
  refine ⟨fun hoff => ?idleOnly, ?ctrl, ?status, ?irqEn, ?twIndex, flag_softReset s .hostViol⟩
  case idleOnly =>
    refine writeRegister_idleOnly_of_busy v ?_ hbusy
    simpa only [idleOnlyOffsets, List.mem_cons, List.not_mem_nil, or_false] using hoff
  case ctrl =>
    rintro rfl
    rw [writeRegister_ctrl, writeCtrl_of_busy v hbusy]
  case status =>
    rintro rfl
    exact writeRegister_status v s
  case irqEn =>
    rintro rfl
    exact writeRegister_irqEn v s
  case twIndex =>
    rintro rfl
    exact writeRegister_twIndex v s

end Sys2Proof.Claims
end

section
/-! SUPPORT. Decoding gives back the command that was encoded, and the examples of encodings (spec/30_encoding.md
R86, R89, R93): the proof of obligation O3. -/

namespace Sys2Proof.Laws

/-- The checks of R88 (1) to (3), for every command at once. -/
theorem encodingPassesChecks (i : Instr) : EncodingPassesChecks.Statement i := by
  cases i with
  | endList => exact EncodingPassesChecks.endList
  | nop => exact EncodingPassesChecks.nop
  | setcfg reg vlo vhi => exact EncodingPassesChecks.setcfg reg vlo vhi
  | stft dst src len => exact EncodingPassesChecks.stft dst src len
  | istft dst src frames bins outlen => exact EncodingPassesChecks.istft dst src frames bins outlen
  | fft inCplx dst src len => exact EncodingPassesChecks.fft inCplx dst src len
  | ifft outRe dst src len => exact EncodingPassesChecks.ifft outRe dst src len
  | firgenLp dst => exact EncodingPassesChecks.firgenLp dst
  | firgenHp dst => exact EncodingPassesChecks.firgenHp dst
  | conv xc fc outRe dst x n f m => exact EncodingPassesChecks.conv xc fc outRe dst x n f m
  | convFast xc fc outRe dst x n f m => exact EncodingPassesChecks.convFast xc fc outRe dst x n f m

@[simp] theorem cfgRegOfIndex_indexOfCfgReg (reg : CfgReg) : cfgRegOfIndex (indexOfCfgReg reg) = some reg := by
  cases reg <;> rfl

/-- OPC and FLAGS of an encoding select the command that was encoded, with its operands (R83, R86). -/
theorem select_encode (i : Instr) : (encode i).select = some i := by
  cases i with
  | endList | nop | stft | istft => rfl
  | setcfg | firgenLp | firgenHp =>
    simp [encode, headerWord, Descriptor.select, Descriptor.opc, Descriptor.flag, Descriptor.flags]
  | fft flag | ifft flag =>
    cases flag <;> simp [encode, headerWord, Descriptor.select, Descriptor.opc, Descriptor.flag, Descriptor.flags]
  | conv xc fc outRe | convFast xc fc outRe =>
    cases xc <;> cases fc <;> cases outRe <;>
      simp [encode, headerWord, Descriptor.select, Descriptor.opc, Descriptor.flag, Descriptor.flags]

/-- The checks pass and the selection is the command, so decoding answers it where CONV.FAST exists (R89). -/
theorem decode_encode_of_wellFormed {i : Instr} (hwf : i.wellFormed = true) : decode true (encode i) = .ok i := by
  obtain ⟨hhigh, hreserved, hfree⟩ := encodingPassesChecks i hwf
  obtain ⟨free, hopc, hflags⟩ := Option.map_eq_some_iff.mp hfree
  simp [decode, hopc, hhigh, hflags, hreserved, select_encode]

end Sys2Proof.Laws

namespace Sys2Proof.Claims

open Sys2Proof.Machine

/-- A row of R93 turns on its text and its words: that they decode to the command holds of every encoding. -/
theorem encodesAs_of_asmLine {text : String} {i : Instr} {d : Descriptor}
    (htext : asmLine text.toList = some (.command i)) (hwords : encode i = d) (hwf : i.wellFormed = true) :
    EncodesAs text i d :=
  ⟨htext, hwords, hwords ▸ Laws.decode_encode_of_wellFormed hwf⟩

/-- Settles O3: the assembler reads each of the six lines, by evaluation, and the words are the tables' own. -/
theorem encodingExamplesHold : Obligations.EncodingExamplesHold := by
  refine ⟨?endList, ?cutoff, ?fs, ?stft, ?hpf, ?conv⟩ <;>
    exact encodesAs_of_asmLine (by decide +kernel) rfl rfl

end Sys2Proof.Claims
end

section
/-! SUPPORT. How a run ends (spec/40_control.md R105): the proof of obligation O59. -/

namespace Sys2Proof.Machine

open Sys2Proof.Claims (commandAt)

theorem ErrorCode.number_ne_zero (c : ErrorCode) : c.number ≠ 0 := by
  cases c <;> decide

/-- The three ways a turn of the engine ends a run (R105): an END completed, an error was raised, or a pending
abort took effect in a state that has the flags the turn began with. -/
inductive EndsRun (s t : State) : Prop where
  | done (hend : commandAt s = some .endList) (ht : t = (complete s).endRun .done)
  | err (e : ErrorReport) (ht : t = raise e s)
  | aborted (hpending : s.abortPending = true) (u : State) (hu : ∀ f, u.flag f = s.flag f) (ht : t = endAborted u)

/-- A command ends the run, by an END or an error, or completes and leaves every flag of STATUS as it was. -/
theorem runCommand_ends {s t : State} (h : runCommand s = .next t) :
    (commandAt s = some .endList ∧ t = (complete s).endRun .done) ∨ (∃ e, t = raise e s) ∨
      ∀ f, t.flag f = s.flag f := by
  rcases runCommand_cases h with herr | ⟨-, bs, i, hbytes, hdecode, hexec⟩
  · exact .inr (.inl herr)
  rcases exec_cases hexec with
    ⟨rfl, rfl⟩ | ⟨-, rfl⟩ | ⟨r, lo, hi, -, rfl⟩ | herr | ⟨j, xs, -, -, -, -, rfl⟩
  · refine .inl ⟨?_, rfl⟩
    simp only [commandAt, hbytes, hdecode, Option.bind_some, Except.toOption]
  · exact .inr (.inr (flag_complete s))
  · exact .inr (.inr fun f => by rw [flag_complete, flag_writeCfg])
  · exact .inr (.inl herr)
  · exact .inr (.inr (flag_finish s j xs))

/-- A cut command raises its error or is aborted; what it wrote before the cut is not in STATUS (R214). -/
theorem cutCommand_endsRun {s : State} (hpending : s.abortPending = true) (i : Instr) (done : Bool) :
    EndsRun s (cutCommand i done s) := by
  rcases cutCommand_cases i done s with ⟨e, h⟩ | h | ⟨r, lo, hi, -, h⟩ | ⟨j, -, -, h⟩
  · exact .err e h
  · exact .aborted hpending s (fun _ => rfl) h
  · exact .aborted hpending _ (flag_writeCfg s r lo hi) h
  · exact .aborted hpending _ (flag_congr (by rfl)) h

/-- Wherever a pending abort meets a busy engine, the turn ends the run: a command that completes first and does not
end it itself is followed by the abort (R214). -/
theorem interruptAt_endsRun {p : AbortPoint} {s t : State} (hbusy : s.busy = true)
    (hpending : s.abortPending = true) (h : interruptAt p s = .next t) : EndsRun s t := by
  rcases interruptAt_cases h with ⟨e, ht⟩ | ht | ⟨u, hu, ht⟩ | ⟨-, i, done, rfl⟩
  · exact .err e ht
  · exact .aborted hpending s (fun _ => rfl) ht
  · rcases runCommand_ends hu with ⟨hend, rfl⟩ | ⟨e, rfl⟩ | hkeep
    · exact .done hend (by simpa using ht)
    · exact .err e (by simpa using ht)
    · have hu_busy : u.busy = true := (hkeep .busy).trans hbusy
      exact .aborted hpending u hkeep (by simpa [hu_busy] using ht)
  · exact cutCommand_endsRun hpending i done

/-- What the end of a run leaves in STATUS and ERR_CODE, when none of the three flags was set while BUSY (R105). -/
theorem EndsRun.flags {s t : State} (h : EndsRun s t) (hdone : s.flag .done = false) (herr : s.flag .err = false)
    (haborted : s.flag .aborted = false) :
    (t.flag .done = true ∧ t.flag .err = false ∧ t.flag .aborted = false ∧ commandAt s = some .endList) ∨
    (t.flag .done = false ∧ t.flag .err = true ∧ t.flag .aborted = false ∧ t.errCode ≠ 0) ∨
    (t.flag .done = false ∧ t.flag .err = false ∧ t.flag .aborted = true ∧ s.abortPending = true) := by
  cases h with
  | done hend ht => subst ht; exact .inl (by simp [herr, haborted, hend])
  | err e ht => subst ht; exact .inr (.inl ⟨by simp [hdone], by simp, by simp [haborted], e.code.number_ne_zero⟩)
  | aborted hpending u hu ht => subst ht; exact .inr (.inr (by simp [hu, hdone, herr, hpending]))

/-- A turn of a busy engine after which it is IDLE ended the run; where an abort is pending, the turn counts as a new
interruption first. -/
theorem engineTurn_endsRun {s t : State} (hbusy : s.busy = true) (h : engineTurn s = .next t)
    (hidle : t.busy = false) : EndsRun s t ∨ EndsRun (nextDraw s) t := by
  rw [engineTurn, if_pos hbusy] at h
  split at h
  · next hpending => exact .inr (interruptAt_endsRun (s := nextDraw s) hbusy hpending h)
  · rcases runCommand_ends h with ⟨hend, ht⟩ | ⟨e, ht⟩ | hkeep
    · exact .inl (.done hend ht)
    · exact .inl (.err e ht)
    · have ht_busy : t.busy = true := (hkeep .busy).trans hbusy
      exact absurd hidle (by simp [ht_busy])

/-- Where no turn is named, the step is the sequencer's (log 7). -/
theorem step_of_turns_nil {s : State} (h : s.turns = []) : step s = engineTurn s := by
  rw [step, takeTurn, h]

end Sys2Proof.Machine

namespace Sys2Proof.Claims

open Sys2Proof.Machine

/-- Settles O59: the turn ended the run in one of the three ways of `EndsRun`, each of which sets its own flag, and the
invariant says that no other was set while BUSY. -/
theorem runEndsInExactlyOneWay : Obligations.RunEndsInExactlyOneWay := by
  intro s hinv hbusy
  obtain ⟨hdone, herr, haborted⟩ := hinv.endFlags.noneBusy hbusy
  refine ⟨fun t hturns hstep hidle => ?_, flag_softReset s .busy, flag_softReset s .done, flag_softReset s .err,
    flag_softReset s .aborted⟩
  rw [step_of_turns_nil hturns] at hstep
  rcases engineTurn_endsRun hbusy hstep hidle with hends | hends
  · exact hends.flags hdone herr haborted
  · exact hends.flags hdone herr haborted

end Sys2Proof.Claims
end

section
/-! SUPPORT. The encoding of descriptors (spec/30_encoding.md R80 to R89): words and bytes, the header word as its
three fields, and the checks of the decoder in their order: the proofs of the obligations O1, O2, O4 and O5. -/

namespace Sys2Proof.Laws

open Sys2Proof.Claims (Available)

/-! ## Words and bytes -/

/-- The four bytes of a word make the word (R61). -/
theorem wordOfBytes_bytesOfWord (w : Word) :
    wordOfBytes (w.extractLsb' 0 8) (w.extractLsb' 8 8) (w.extractLsb' 16 8) (w.extractLsb' 24 8) = w := by
  unfold wordOfBytes
  apply BitVec.eq_of_toNat_eq
  simp only [BitVec.toNat_append, BitVec.extractLsb'_toNat]
  rw [← Nat.shiftLeft_add_eq_or_of_lt (by omega), ← Nat.shiftLeft_add_eq_or_of_lt (by omega),
    ← Nat.shiftLeft_add_eq_or_of_lt (by omega)]
  simp only [Nat.shiftLeft_eq, Nat.shiftRight_eq_div_pow]
  omega

@[simp] theorem bytesOfDescriptor_length (d : Descriptor) : (bytesOfDescriptor d).length = 32 := rfl

/-- The bytes of a descriptor give it back (R80). -/
theorem descriptorOfBytes_bytesOfDescriptor (d : Descriptor) : descriptorOfBytes (bytesOfDescriptor d) = some d := by
  simp only [bytesOfDescriptor, bytesOfWord, List.cons_append, List.nil_append, descriptorOfBytes,
    wordOfBytes_bytesOfWord]

theorem decodeBytes_bytesOfDescriptor (hasFast : Bool) (d : Descriptor) :
    decodeBytes hasFast (bytesOfDescriptor d) = decode hasFast d := by
  rw [decodeBytes, List.take_of_length_le (by simp), descriptorOfBytes_bytesOfDescriptor]

/-! ## The decoder, inverted -/

/-- When decoding succeeds: all five checks of R88 pass and the command is the selected one (R89). -/
theorem decode_eq_ok_iff {hasFast : Bool} {d : Descriptor} {i : Instr} :
    decode hasFast d = .ok i ↔
      (∃ free, freeFlags d.opc = some free ∧ d.high = 0 ∧ d.flags &&& ~~~free = 0) ∧
      firstNonzero d.reserved = none ∧ d.select = some i ∧ (d.asksFast = true → hasFast = true) := by
  unfold decode
  cases hopc : freeFlags d.opc with
  | none => simp
  | some free =>
    by_cases hhead : d.high ≠ 0 ∨ d.flags &&& ~~~free ≠ 0
    · simp only [if_pos hhead, reduceCtorEq, Option.some.injEq, false_iff]
      rintro ⟨⟨free', rfl, h1, h2⟩, -⟩
      exact hhead.elim (· h1) (· h2)
    · rw [not_or, not_not, not_not] at hhead
      cases hres : firstNonzero d.reserved <;> cases hsel : d.select <;> cases hasFast <;>
        cases hfast : d.asksFast <;> simp [hhead]

/-- CONV.FAST alone asks for the fast engine (R84). -/
theorem asksFast_encode (i : Instr) : (encode i).asksFast = true ↔ ∃ xc fc re dst x n f m,
    i = .convFast xc fc re dst x n f m := by
  cases i with
  | endList | nop | stft | istft | setcfg | firgenLp | firgenHp =>
    simp [encode, headerWord, Descriptor.asksFast, Descriptor.opc]
  | fft flag | ifft flag =>
    cases flag <;> simp [encode, headerWord, Descriptor.asksFast, Descriptor.opc]
  | conv xc fc outRe | convFast xc fc outRe =>
    cases xc <;> cases fc <;> cases outRe <;>
      simp [encode, headerWord, Descriptor.asksFast, Descriptor.opc, Descriptor.flag, Descriptor.flags]

/-- A command is available when it does not ask for a fast engine that is absent (R88 (5)). -/
theorem available_iff {hasFast : Bool} {i : Instr} :
    Available hasFast i ↔ ((encode i).asksFast = true → hasFast = true) := by
  rw [asksFast_encode]
  cases i <;> simp [Available]

/-- Decoding the encoding of a well-formed, available command gives it back (R86, R89). -/
theorem decode_encode {hasFast : Bool} {i : Instr} (hwf : i.wellFormed = true) (havail : Available hasFast i) :
    decode hasFast (encode i) = .ok i := by
  obtain ⟨hhigh, hreserved, hfree⟩ := encodingPassesChecks i hwf
  obtain ⟨free, hopc, hflags⟩ := Option.map_eq_some_iff.mp hfree
  exact decode_eq_ok_iff.mpr ⟨⟨free, hopc, hhigh, hflags⟩, hreserved, select_encode i, available_iff.mp havail⟩

/-! ## The header word -/

/-- w0 is its upper half, FLAGS and OPC, the highest first (R81). -/
theorem w0_eq_append (d : Descriptor) : d.w0 = (d.high ++ d.flags ++ d.opc : BitVec 32) := by
  unfold Descriptor.high Descriptor.flags Descriptor.opc
  apply BitVec.eq_of_toNat_eq
  simp only [BitVec.toNat_append, BitVec.extractLsb'_toNat]
  rw [← Nat.shiftLeft_add_eq_or_of_lt (by omega), ← Nat.shiftLeft_add_eq_or_of_lt (by omega)]
  simp only [Nat.shiftLeft_eq, Nat.shiftRight_eq_div_pow]
  omega

/-- A FLAGS byte within its four lowest bits is those bits. -/
theorem flags_eq_header : ∀ f : BitVec 8, f &&& ~~~0x0F = 0 →
    (0#16 ++ f ++ 0#8 : BitVec 32) = headerWord 0 (f.getLsbD 0) (f.getLsbD 1) (f.getLsbD 2) (f.getLsbD 3) := by
  decide +kernel

/-- A header whose upper half is 0 and whose FLAGS are within their four lowest bits (R81, R84). -/
theorem w0_eq_headerWord {d : Descriptor} (hhigh : d.high = 0) (hflags : d.flags &&& ~~~0x0F = 0) :
    d.w0 = headerWord (d.opc.setWidth 32) (d.flag 0) (d.flag 1) (d.flag 2) (d.flag 3) := by
  have hsplit : (0#16 ++ d.flags ++ d.opc : BitVec 32) = d.opc.setWidth 32 ||| (0#16 ++ d.flags ++ 0#8 : BitVec 32) := by
    rw [BitVec.setWidth_eq_append (by omega)]
    exact (congrArg₂ (· ++ ·) (BitVec.zero_or ..).symm (BitVec.or_zero ..).symm).trans BitVec.or_append.symm
  rw [w0_eq_append, hhigh]
  refine hsplit.trans ?_
  rw [flags_eq_header _ hflags]
  simp [headerWord, Descriptor.flag, BitVec.or_assoc]

/-- A command without FLAGS has its opcode alone in w0. -/
theorem w0_of_flags_zero {d : Descriptor} (hhigh : d.high = 0) (hflags : d.flags = 0) :
    d.w0 = d.opc.setWidth 32 := by
  rw [w0_eq_headerWord hhigh (by simp [hflags])]
  simp [headerWord, Descriptor.flag, hflags]

/-- FLAGS within bit 0 has no other flag. -/
theorem flag_of_flags_le_one {d : Descriptor} (hflags : d.flags &&& ~~~0x01 = 0) :
    d.flags &&& ~~~0x0F = 0 ∧ d.flag 1 = false ∧ d.flag 2 = false ∧ d.flag 3 = false := by
  have hbits : ∀ f : BitVec 8, f &&& ~~~0x01 = 0 → f &&& ~~~0x0F = 0 ∧ f.getLsbD 1 = false ∧
      f.getLsbD 2 = false ∧ f.getLsbD 3 = false := by decide +kernel
  exact hbits _ hflags

/-! ## The reserved words -/

theorem firstNonzero_eq_none {l : List (Nat × Word)} : firstNonzero l = none ↔ ∀ e ∈ l, e.2 = 0 := by
  induction l with
  | nil => simp [firstNonzero]
  | cons e l ih =>
    obtain ⟨k, w⟩ := e
    by_cases hw : w = 0 <;> simp_all [firstNonzero]

/-- The lowest nonzero word of a run of words (R88 (3)). -/
theorem firstNonzero_range (word : Nat → Word) {n r k : Nat} (hrk : r ≤ k) (hkn : k < r + n) (hk : word k ≠ 0)
    (hlow : ∀ j, r ≤ j → j < k → word j = 0) :
    firstNonzero ((List.range' r n).map fun j => (j, word j)) = some k := by
  induction n generalizing r with
  | zero => omega
  | succ n ih =>
    rw [List.range'_succ, List.map_cons, firstNonzero]
    rcases Nat.eq_or_lt_of_le hrk with rfl | hlt
    · rw [if_neg hk]
    · rw [if_pos (hlow r le_rfl hlt)]
      exact ih hlt (by omega) fun j hj => hlow j (by omega)

/-- Operand word `j` of a descriptor, for `j` from 1 to 7 (R80). -/
def operandWord (d : Descriptor) (j : Nat) : Word :=
  if j = 1 then d.w1 else if j = 2 then d.w2 else if j = 3 then d.w3 else if j = 4 then d.w4
    else if j = 5 then d.w5 else if j = 6 then d.w6 else d.w7

theorem wordsFrom_eq_range {r : Nat} (d : Descriptor) (h1 : 1 ≤ r) (h7 : r ≤ 7) :
    d.wordsFrom r = (List.range' r (8 - r)).map fun j => (j, operandWord d j) := by
  interval_cases r <;> rfl

/-! ## Decoding, inverted -/

/-- The opcodes of R85. -/
theorem freeFlags_cases {opc free : BitVec 8} (h : freeFlags opc = some free) :
    ((opc = 0x01 ∨ opc = 0x02 ∨ opc = 0x03 ∨ opc = 0x10 ∨ opc = 0x11) ∧ free = 0x00) ∨
    ((opc = 0x12 ∨ opc = 0x13 ∨ opc = 0x20) ∧ free = 0x01) ∨ (opc = 0x30 ∧ free = 0x0F) := by
  unfold freeFlags at h
  split at h
  · next hopc => exact .inl ⟨hopc, (Option.some.inj h).symm⟩
  · split at h
    · next hopc => exact .inr (.inl ⟨hopc, (Option.some.inj h).symm⟩)
    · split at h
      · next hopc => exact .inr (.inr ⟨hopc, (Option.some.inj h).symm⟩)
      · cases h

/-- The index of the register that an index names is that index (R87). -/
theorem indexOfCfgReg_of_cfgRegOfIndex {w : Word} {r : CfgReg} (h : cfgRegOfIndex w = some r) : indexOfCfgReg r = w := by
  unfold cfgRegOfIndex at h
  repeat' split at h
  all_goals cases h <;> simp [indexOfCfgReg, *]

theorem vhiAllowed_of_index {r : CfgReg} {vhi : Word} (h : (indexOfCfgReg r).toNat ≤ 3 → vhi = 0) :
    vhiAllowed r vhi = true := by
  cases r <;> simp_all [vhiAllowed, CfgReg.wide, indexOfCfgReg]

theorem descriptor_eq_iff {d e : Descriptor} : d = e ↔ d.w0 = e.w0 ∧ d.w1 = e.w1 ∧ d.w2 = e.w2 ∧ d.w3 = e.w3 ∧
    d.w4 = e.w4 ∧ d.w5 = e.w5 ∧ d.w6 = e.w6 ∧ d.w7 = e.w7 := by
  cases d; cases e; simp only [Descriptor.mk.injEq]

section Select

variable {d : Descriptor} {i : Instr}

/-- The formats without FLAGS (R83, R87). -/
theorem encode_select_noFlags
    (hopc : d.opc = 0x01 ∨ d.opc = 0x02 ∨ d.opc = 0x03 ∨ d.opc = 0x10 ∨ d.opc = 0x11)
    (hw0 : d.w0 = d.opc.setWidth 32) (hres : ∀ e ∈ d.reserved, e.2 = 0) (hsel : d.select = some i) :
    encode i = d ∧ i.wellFormed = true := by
  rcases hopc with hopc | hopc | hopc | hopc | hopc <;>
    simp [Descriptor.select, Descriptor.reserved, Descriptor.wordsFrom, hopc] at hsel hres hw0
  case inr.inr.inl =>
    obtain ⟨r, hr, rfl⟩ := hsel
    have hindex := indexOfCfgReg_of_cfgRegOfIndex hr
    have hvhi : (indexOfCfgReg r).toNat ≤ 3 → d.w3 = 0 := fun h => by
      rw [if_pos (hindex ▸ h)] at hres
      exact hres 3 d.w3 (by simp)
    have hrest : d.w4 = 0 ∧ d.w5 = 0 ∧ d.w6 = 0 ∧ d.w7 = 0 := by
      split at hres <;>
        exact ⟨hres 4 d.w4 (by simp), hres 5 d.w5 (by simp), hres 6 d.w6 (by simp), hres 7 d.w7 (by simp)⟩
    simp [descriptor_eq_iff, encode, Instr.wellFormed, hw0, hrest, hindex, vhiAllowed_of_index hvhi]
  all_goals
    subst hsel
    simp [descriptor_eq_iff, encode, Instr.wellFormed, hw0, hres]

/-- FFT, IFFT and FIRGEN, with one flag (R84). -/
theorem encode_select_oneFlag (hopc : d.opc = 0x12 ∨ d.opc = 0x13 ∨ d.opc = 0x20)
    (hw0 : d.w0 = headerWord (d.opc.setWidth 32) (d.flag 0) false false false) (hres : ∀ e ∈ d.reserved, e.2 = 0)
    (hsel : d.select = some i) : encode i = d ∧ i.wellFormed = true := by
  rcases hopc with hopc | hopc | hopc <;>
    simp [Descriptor.select, Descriptor.reserved, Descriptor.wordsFrom, hopc] at hsel hres hw0
  case inr.inr =>
    cases hflag : d.flag 0 <;> rw [hflag] at hsel hw0 <;> subst hsel <;>
      simp [descriptor_eq_iff, encode, Instr.wellFormed, hw0, hres, headerWord]
  all_goals
    subst hsel
    simp [descriptor_eq_iff, encode, Instr.wellFormed, hw0, hres]

/-- CONV and CONV.FAST, with four flags (R84). -/
theorem encode_select_conv (hopc : d.opc = 0x30)
    (hw0 : d.w0 = headerWord (d.opc.setWidth 32) (d.flag 0) (d.flag 1) (d.flag 2) (d.flag 3))
    (hres : ∀ e ∈ d.reserved, e.2 = 0) (hsel : d.select = some i) : encode i = d ∧ i.wellFormed = true := by
  simp [Descriptor.select, Descriptor.reserved, Descriptor.wordsFrom, hopc] at hsel hres hw0
  cases hflag : d.flag 0 <;> rw [hflag] at hsel hw0 <;> subst hsel <;>
    simp [descriptor_eq_iff, encode, Instr.wellFormed, hw0, hres]

/-- The command that a descriptor selects has that descriptor as its encoding, when the header and the reserved words
pass their checks (R83 to R87). -/
theorem encode_select {free : BitVec 8} (hfree : freeFlags d.opc = some free)
    (hhigh : d.high = 0) (hflags : d.flags &&& ~~~free = 0) (hres : firstNonzero d.reserved = none)
    (hsel : d.select = some i) : encode i = d ∧ i.wellFormed = true := by
  rw [firstNonzero_eq_none] at hres
  rcases freeFlags_cases hfree with ⟨hopc, rfl⟩ | ⟨hopc, rfl⟩ | ⟨hopc, rfl⟩
  · exact encode_select_noFlags hopc (w0_of_flags_zero hhigh (BitVec.and_allOnes.symm.trans hflags)) hres hsel
  · obtain ⟨hfour, h1, h2, h3⟩ := flag_of_flags_le_one hflags
    exact encode_select_oneFlag hopc (by rw [w0_eq_headerWord hhigh hfour, h1, h2, h3]) hres hsel
  · exact encode_select_conv hopc (w0_eq_headerWord hhigh hflags) hres hsel

end Select

/-! ## Decoding as an error -/

section Reject

variable {hasFast : Bool} {d : Descriptor} {free : BitVec 8}

theorem decode_badOpcode (hopc : freeFlags d.opc = none) : decode hasFast d = .error .badOpcode := by
  simp only [decode, hopc]

theorem decode_reservedHeader (hopc : freeFlags d.opc = some free)
    (hhead : d.high ≠ 0 ∨ d.flags &&& ~~~free ≠ 0) : decode hasFast d = .error .reservedHeader := by
  simp only [decode, hopc, if_pos hhead]

variable (hopc : freeFlags d.opc = some free) (hhigh : d.high = 0) (hflags : d.flags &&& ~~~free = 0)

include hopc hhigh hflags

theorem decode_reservedWord {k : Nat} (hres : firstNonzero d.reserved = some k) :
    decode hasFast d = .error (.reservedWord k) := by
  simp [decode, hopc, hhigh, hflags, hres]

theorem decode_badIndex (hres : firstNonzero d.reserved = none) (hsel : d.select = none) :
    decode hasFast d = .error .badIndex := by
  simp [decode, hopc, hhigh, hflags, hres, hsel]

theorem decode_noFast {i : Instr} (hres : firstNonzero d.reserved = none) (hsel : d.select = some i)
    (hfast : d.asksFast = true) (habsent : hasFast = false) : decode hasFast d = .error .noFast := by
  simp [decode, hopc, hhigh, hflags, hres, hsel, hfast, habsent]

end Reject

/-! ## The fields of w0 as numbers -/

theorem opc_toNat (d : Descriptor) : d.opc.toNat = d.w0.toNat % 256 := by
  simp [Descriptor.opc]

theorem flags_toNat (d : Descriptor) : d.flags.toNat = d.w0.toNat / 256 % 256 := by
  simp [Descriptor.flags, Nat.shiftRight_eq_div_pow]

theorem high_toNat (d : Descriptor) : d.high.toNat = d.w0.toNat / 65536 := by
  simp [Descriptor.high, Nat.shiftRight_eq_div_pow]
  omega

/-- The upper half of w0 is 0 as a number when it is as a field. -/
theorem high_eq_zero_iff (d : Descriptor) : d.high = 0 ↔ d.w0.toNat / 65536 = 0 := by
  rw [← high_toNat, BitVec.toNat_eq]; rfl

/-- The defined opcodes as numbers (R85). -/
theorem freeFlags_eq_none_iff : ∀ opc : BitVec 8, freeFlags opc = none ↔
    ¬(opc.toNat = 0x01 ∨ opc.toNat = 0x02 ∨ opc.toNat = 0x03 ∨ opc.toNat = 0x10 ∨ opc.toNat = 0x11 ∨
      opc.toNat = 0x12 ∨ opc.toNat = 0x13 ∨ opc.toNat = 0x20 ∨ opc.toNat = 0x30) := by
  decide +kernel

/-- A reserved FLAGS bit is set when FLAGS is above the bits its opcode leaves free, as a number (R84). -/
theorem reservedFlags_iff {opc free : BitVec 8} (h : freeFlags opc = some free) (flags : BitVec 8) :
    flags &&& ~~~free ≠ 0 ↔
      if opc.toNat = 0x12 ∨ opc.toNat = 0x13 ∨ opc.toNat = 0x20 then 1 < flags.toNat
      else if opc.toNat = 0x30 then 15 < flags.toNat else flags.toNat ≠ 0 := by
  have h0 : ∀ f : BitVec 8, f &&& ~~~0x00 ≠ 0 ↔ f.toNat ≠ 0 := by decide +kernel
  have h1 : ∀ f : BitVec 8, f &&& ~~~0x01 ≠ 0 ↔ 1 < f.toNat := by decide +kernel
  have h15 : ∀ f : BitVec 8, f &&& ~~~0x0F ≠ 0 ↔ 15 < f.toNat := by decide +kernel
  rcases freeFlags_cases h with ⟨hopc, rfl⟩ | ⟨hopc, rfl⟩ | ⟨rfl, rfl⟩
  · rw [h0]; rcases hopc with rfl | rfl | rfl | rfl | rfl <;> rfl
  · rw [h1]; rcases hopc with rfl | rfl | rfl <;> rfl
  · rw [h15]; rfl

/-- Six indices name a register (R87). -/
theorem cfgRegOfIndex_eq_none_iff (w : Word) : cfgRegOfIndex w = none ↔ 6 ≤ w.toNat := by
  have hcases : cfgRegOfIndex w = none ↔ ¬(w = 0 ∨ w = 1 ∨ w = 2 ∨ w = 3 ∨ w = 4 ∨ w = 5) := by
    unfold cfgRegOfIndex
    split_ifs <;> simp_all
  rw [hcases]
  bv_omega

/-- A defined opcode selects a command, unless it is a SETCFG of an index above 5 (R86, R87). -/
theorem select_eq_none_iff {d : Descriptor} {free : BitVec 8} (h : freeFlags d.opc = some free) :
    d.select = none ↔ d.opc = 0x03 ∧ 6 ≤ d.w1.toNat := by
  have hindex := cfgRegOfIndex_eq_none_iff d.w1
  rcases freeFlags_cases h with ⟨hopc, -⟩ | ⟨hopc, -⟩ | ⟨hopc, -⟩
  · rcases hopc with hopc | hopc | hopc | hopc | hopc <;> simp [Descriptor.select, hopc, hindex]
  · rcases hopc with hopc | hopc | hopc <;> simp [Descriptor.select, hopc]
  · simp [Descriptor.select, hopc]

theorem asksFast_iff (d : Descriptor) :
    d.asksFast = true ↔ d.w0.toNat % 256 = 0x30 ∧ d.w0.toNat / 256 % 256 % 2 = 1 := by
  rw [← opc_toNat, ← flags_toNat, Descriptor.asksFast, Descriptor.flag, Bool.and_eq_true, beq_iff_eq,
    ← BitVec.testBit_toNat, Nat.testBit_zero, decide_eq_true_iff, BitVec.toNat_eq]
  rfl

end Sys2Proof.Laws

namespace Sys2Proof.Claims

open Sys2Proof.Machine Sys2Proof.Laws

/-- Settles O1: the encoding passes the checks of R88 and selects its command, and its bytes give its words. -/
theorem decodeOfEncodeIsCommand : Obligations.DecodeOfEncodeIsCommand := by
  intro hasFast i hwf havail
  have hwords := decode_encode hwf havail
  exact ⟨hwords, (decodeBytes_bytesOfDescriptor hasFast (encode i)).trans hwords⟩

/-- Settles O2: the checks that decoding passed determine every bit that the operands do not. -/
theorem decodedDescriptorIsEncoding : Obligations.DecodedDescriptorIsEncoding := by
  intro hasFast d i hdecode
  obtain ⟨⟨free, hfree, hhigh, hflags⟩, hres, hsel, hfast⟩ := decode_eq_ok_iff.mp hdecode
  obtain ⟨henc, hwf⟩ := encode_select hfree hhigh hflags hres hsel
  exact ⟨henc, hwf, available_iff.mpr (henc ▸ hfast)⟩

/-- Settles O4: the fields of w0 as numbers decide the checks of R88 around that of the reserved words. -/
theorem illegalHeadersRejectedInOrder : Obligations.IllegalHeadersRejectedInOrder := by
  intro hasFast d
  have hknown := freeFlags_eq_none_iff d.opc
  rw [opc_toNat] at hknown
  refine ⟨fun h => decode_badOpcode (hknown.mpr h), fun h hbad => ?_, fun h hgood hres => ?_⟩
  · obtain ⟨free, hfree⟩ := Option.ne_none_iff_exists'.mp (hknown.not.mpr (not_not_intro h))
    refine decode_reservedHeader hfree (hbad.imp ?_ ?_)
    · exact (high_eq_zero_iff d).not.mpr
    · rw [reservedFlags_iff hfree, opc_toNat, flags_toNat]
      exact id
  · obtain ⟨free, hfree⟩ := Option.ne_none_iff_exists'.mp (hknown.not.mpr (not_not_intro h))
    obtain ⟨hgoodHigh, hgoodFlags⟩ := not_or.mp hgood
    have hhigh : d.high = 0 := (high_eq_zero_iff d).mpr (not_not.mp hgoodHigh)
    have hflags : d.flags &&& ~~~free = 0 := by
      rw [← not_not (a := _ = _), ← Ne, reservedFlags_iff hfree, opc_toNat, flags_toNat]
      exact hgoodFlags
    have hsetcfg : d.opc = 0x03 ↔ d.w0.toNat % 256 = 0x03 := by
      rw [← opc_toNat, BitVec.toNat_eq]; rfl
    have hsel := select_eq_none_iff hfree
    rw [hsetcfg] at hsel
    refine ⟨fun hopc hindex => decode_badIndex hfree hhigh hflags hres (hsel.mpr ⟨hopc, hindex⟩),
      fun hopc hodd habsent => ?_, fun hindex hfast => ?_⟩
    · obtain ⟨i, hi⟩ := Option.ne_none_iff_exists'.mp (hsel.not.mpr (by rw [hopc]; omega))
      exact decode_noFast hfree hhigh hflags hres hi ((asksFast_iff d).mpr ⟨hopc, hodd⟩) habsent
    · obtain ⟨i, hi⟩ := Option.ne_none_iff_exists'.mp (hsel.not.mpr hindex)
      refine ⟨i, decode_eq_ok_iff.mpr ⟨⟨free, hfree, hhigh, hflags⟩, hres, hi, fun hasks => ?_⟩⟩
      obtain ⟨hopc, hodd⟩ := (asksFast_iff d).mp hasks
      exact Bool.not_eq_false _ ▸ fun habsent => hfast ⟨hopc, hodd, habsent⟩

/-- A header that is its opcode but for the FLAGS bits that are free is legal (R88 (2)). -/
theorem fields_of_masked_w0 {d : Descriptor} {opc free : BitVec 8}
    (h : d.w0 &&& (0xFFFF#16 ++ ~~~free ++ 0xFF#8 : BitVec 32) = (0#16 ++ 0#8 ++ opc : BitVec 32)) :
    d.opc = opc ∧ d.high = 0 ∧ d.flags &&& ~~~free = 0 := by
  rw [w0_eq_append, BitVec.and_append, BitVec.and_append] at h
  have hlow := congrArg (BitVec.extractLsb' 0 8) h
  have htop := congrArg (BitVec.extractLsb' 8 24) h
  rw [BitVec.extractLsb'_append_eq_right, BitVec.extractLsb'_append_eq_right] at hlow
  rw [BitVec.extractLsb'_append_eq_left, BitVec.extractLsb'_append_eq_left] at htop
  have hhigh := congrArg (BitVec.extractLsb' 8 16) htop
  have hflags := congrArg (BitVec.extractLsb' 0 8) htop
  rw [BitVec.extractLsb'_append_eq_left, BitVec.extractLsb'_append_eq_left] at hhigh
  rw [BitVec.extractLsb'_append_eq_right, BitVec.extractLsb'_append_eq_right] at hflags
  exact ⟨BitVec.and_allOnes.symm.trans hlow, BitVec.and_allOnes.symm.trans hhigh, hflags⟩

/-- A header whose FLAGS have no reserved bit is legal, and the lowest nonzero reserved word of its format is
rejected (R83, R88 (3)). -/
theorem decode_reservedWord_of_format {hasFast : Bool} {d : Descriptor} {free : BitVec 8} {r k : Nat}
    (hfree : freeFlags d.opc = some free) (hhigh : d.high = 0) (hflags : d.flags &&& ~~~free = 0)
    (hformat : d.reserved = d.wordsFrom r) (hr : 1 ≤ r) (hrk : r ≤ k) (hk7 : k ≤ 7) (hk : operandWord d k ≠ 0)
    (hlow : ∀ j, r ≤ j → j < k → operandWord d j = 0) : decode hasFast d = .error (.reservedWord k) := by
  refine decode_reservedWord hfree hhigh hflags ?_
  rw [hformat, wordsFrom_eq_range d hr (hrk.trans hk7)]
  exact firstNonzero_range (operandWord d) hrk (by omega) hk hlow

/-- Settles O5: each legal header is a format with its first reserved word, and the words from there on are tried in
ascending order. -/
theorem reservedWordsRejectedLowestFirst : Obligations.ReservedWordsRejectedLowestFirst := by
  intro hasFast d k word firstReserved r hr hrk hk7 hk hlow
  have legal : ∀ opc free : BitVec 8, freeFlags opc = some free →
      d.w0 &&& (0xFFFF#16 ++ ~~~free ++ 0xFF#8 : BitVec 32) = (0#16 ++ 0#8 ++ opc : BitVec 32) →
      (d.opc = opc → d.reserved = d.wordsFrom r) → 1 ≤ r → decode hasFast d = .error (.reservedWord k) := by
    intro opc free hfree hmask hformat hr1
    obtain ⟨rfl, hhigh, hflags⟩ := fields_of_masked_w0 hmask
    exact decode_reservedWord_of_format hfree hhigh hflags (hformat rfl) hr1 hrk hk7 hk hlow
  simp only [firstReserved] at hr
  split_ifs at hr with h1 h2 h3 h4 h6 <;> cases hr
  · rcases h1 with h | h
    · exact legal 0x01 0x00 rfl (by rw [h]; rfl) (fun ho => by simp [Descriptor.reserved, ho]) le_rfl
    · exact legal 0x02 0x00 rfl (by rw [h]; rfl) (fun ho => by simp [Descriptor.reserved, ho]) le_rfl
  · rcases h2 with h | h <;>
      exact legal 0x20 0x01 rfl (by rw [h]; rfl) (fun ho => by simp [Descriptor.reserved, ho]) (by omega)
  · obtain ⟨h, hindex⟩ := h3
    exact legal 0x03 0x00 rfl (by rw [h]; rfl) (fun ho => by simp [Descriptor.reserved, ho, hindex]) (by omega)
  · rcases h4 with h | h | h | h
    · have hindex : ¬d.w1.toNat ≤ 3 := fun hi => h3 ⟨h, hi⟩
      exact legal 0x03 0x00 rfl (by rw [h]; rfl) (fun ho => by simp [Descriptor.reserved, ho, hindex]) (by omega)
    · exact legal 0x10 0x00 rfl (by rw [h]; rfl) (fun ho => by simp [Descriptor.reserved, ho]) (by omega)
    · exact legal 0x12 0x01 rfl h (fun ho => by simp [Descriptor.reserved, ho]) (by omega)
    · exact legal 0x13 0x01 rfl h (fun ho => by simp [Descriptor.reserved, ho]) (by omega)
  · rcases h6 with h | h
    · exact legal 0x11 0x00 rfl (by rw [h]; rfl) (fun ho => by simp [Descriptor.reserved, ho]) (by omega)
    · exact legal 0x30 0x0F rfl h (fun ho => by simp [Descriptor.reserved, ho]) (by omega)

end Sys2Proof.Claims
end

section
/-! SUPPORT. Fetch, decode and execution of the command at CPC (spec/40_control.md R100 to R103, spec/60_exceptions.md
R200 to R204): the proofs of the obligations O6 to O11 and O13 to O16. -/

namespace Sys2Proof.Machine

open Sys2Proof.Claims (Running errorEntered abortedFrom completed)

/-! ## Reading bytes -/

theorem readBytes_of_forall {mem : List Host.Cell} {a n : Nat} {bs : List Byte} (hn : bs.length = n)
    (h : ∀ k < n, readByte mem (a + k) = bs[k]?) : readBytes mem a n = some bs := by
  induction bs generalizing a n with
  | nil => subst hn; rfl
  | cons b bs ih =>
    subst hn
    have hfirst : readByte mem a = some b := h 0 (by simp)
    have hrest := ih (a := a + 1) rfl fun k hk => by
      rw [show a + 1 + k = a + (k + 1) by omega, h (k + 1) (by simpa using hk), List.getElem?_cons_succ]
    simp only [List.length_cons, readBytes, hfirst, hrest]

/-- A range has no value when one of its bytes has none (R79). -/
theorem readBytes_eq_none_iff {mem : List Host.Cell} {a n : Nat} :
    readBytes mem a n = none ↔ ∃ k < n, readByte mem (a + k) = none := by
  induction n generalizing a with
  | zero => simp [readBytes]
  | succ n ih =>
    rw [Nat.exists_lt_succ_left]
    have hrest : readBytes mem (a + 1) n = none ↔ ∃ k < n, readByte mem (a + (k + 1)) = none := by
      rw [ih]
      simp only [Nat.add_assoc, Nat.add_comm 1]
    rw [← hrest, Nat.add_zero, readBytes]
    cases readByte mem a <;> cases readBytes mem (a + 1) n <;> simp

/-! ## Fetch -/

/-- The turn of a running engine is one round of the run loop (R100). -/
theorem step_of_running {s : State} (h : Running s) : step s = runCommand s := by
  obtain ⟨hbusy, hpending, hturns⟩ := h
  rw [step_of_turns_nil hturns, engineTurn, if_pos hbusy, hpending]
  rfl

theorem fetch_beyondDmem {s : State} (h : s.params.dmemSize < s.cpc.toNat + 32) : fetch s = .beyondDmem :=
  if_pos h

theorem fetch_unwritten {s : State} (h : s.cpc.toNat + 32 ≤ s.params.dmemSize)
    (hb : readBytes s.mem s.cpc.toNat 32 = none) : fetch s = .unwritten := by
  simp [fetch, hb]; omega

/-! ## What ends a run, as one state -/

/-- Setting the flag of an end of run and clearing BUSY, as one mask each (R105). -/
theorem endRun_eq (s : State) (f : Flag) :
    s.endRun f = { s with status := (s.status ||| flagMask f) &&& 0xFFFFFFFE, abortPending := false } := rfl

theorem raise_eq (e : ErrorReport) (s : State) : raise e s = errorEntered s e.code.number e.info := rfl

theorem endAborted_eq (s : State) : endAborted s = abortedFrom s := rfl

theorem finish_eq (j : Job) (xs : List F64) (s : State) :
    j.finish xs s = completed s (wrFs s.mem j.dst.base xs) (BitVec.ofNat 32 j.result) := rfl

theorem ErrorCode.number_bounds (c : ErrorCode) : 0x01 ≤ c.number ∧ c.number ≤ 0x07 := by
  cases c <;> decide

/-- A SETCFG leaves every configuration register but the one it names (R57, R108). -/
theorem writeCfg_config (r : CfgReg) (lo hi : Word) (s : State) :
    (r ≠ .window → (writeCfg r lo hi s).cfgWindow = s.cfgWindow) ∧
    (r ≠ .step → (writeCfg r lo hi s).cfgStep = s.cfgStep) ∧
    (r ≠ .firSize → (writeCfg r lo hi s).cfgFirSize = s.cfgFirSize) ∧
    (r ≠ .convFft → (writeCfg r lo hi s).cfgConvFft = s.cfgConvFft) ∧
    (r ≠ .cutoff → (writeCfg r lo hi s).cutoff = s.cutoff) ∧ (r ≠ .fs → (writeCfg r lo hi s).fs = s.fs) := by
  cases r <;> simp [writeCfg, State.cutoff, State.fs]

end Sys2Proof.Machine

namespace Sys2Proof.Claims

open Sys2Proof.Machine Sys2Proof.Laws

/-- Settles O6. -/
theorem stepRunsDecodedCommand : Obligations.StepRunsDecodedCommand := by
  intro s bs i hrun hfit hbytes hdecode
  rw [step_of_running hrun, runCommand_of_decodes hfit hbytes hdecode]

/-- Settles O7: the bytes at CPC are those of the encoding, which decodes to its command. -/
theorem commandInMemoryRuns : Obligations.CommandInMemoryRuns := by
  intro s i hrun hwf havail hfit hbytes
  refine stepRunsDecodedCommand s _ i hrun hfit (readBytes_of_forall rfl hbytes) ?_
  rw [decodeBytes_bytesOfDescriptor, decode_encode hwf havail]

/-- Settles O8. -/
theorem fetchBeyondDmemTakesFetchError : Obligations.FetchBeyondDmemTakesFetchError := by
  intro s hrun hbeyond
  rw [step_of_running hrun, runCommand, fetch_beyondDmem hbeyond]
  rfl

/-- Settles O9, with the reason of each rejection. -/
theorem illegalDescriptorTakesIllegalCmd : Obligations.IllegalDescriptorTakesIllegalCmd := by
  intro s bs e hrun hfit hbytes hdecode
  refine ⟨e.info, ?_, ?_⟩
  · simp only [step_of_running hrun, runCommand, fetch_of_readable hfit hbytes, hdecode]
    rfl
  · cases e with
    | reservedWord k => exact congrArg (BitVec.ofNat 32) (Nat.add_comm 3 (256 * k))
    | truncated => trivial
    | badOpcode | reservedHeader | badIndex | noFast => rfl

/-- Settles O10. -/
theorem fetchOfUnwrittenByteFaults : Obligations.FetchOfUnwrittenByteFaults := by
  intro s k hrun hfit hk hnone
  rw [step_of_running hrun, runCommand, fetch_unwritten hfit (readBytes_eq_none_iff.mpr ⟨k, hk, hnone⟩)]

/-- Settles O11, along the cases of `exec_cases`. -/
theorem commandsFailPreciselyOrComplete : Obligations.CommandsFailPreciselyOrComplete := by
  intro i s t hexec
  rcases exec_cases hexec with ⟨-, rfl⟩ | ⟨-, rfl⟩ | ⟨r, lo, hi, -, rfl⟩ | ⟨e, rfl⟩ | ⟨j, xs, -, -, -, -, rfl⟩
  · exact .inr (by simp)
  · exact .inr (by simp)
  · exact .inr (by simp)
  · obtain ⟨hlo, hhi⟩ := e.code.number_bounds
    exact .inl ⟨e.code.number, e.info, hlo, hhi, raise_eq e s⟩
  · exact .inr (by simp)

/-- Settles O13, along the cases of `exec_cases`. -/
theorem onlySetcfgWritesConfiguration : Obligations.OnlySetcfgWritesConfiguration := by
  intro i s t hexec
  rcases exec_cases hexec with ⟨-, rfl⟩ | ⟨-, rfl⟩ | ⟨r, lo, hi, rfl, rfl⟩ | ⟨e, rfl⟩ | ⟨j, xs, -, -, -, -, rfl⟩
  · exact .inl ⟨rfl, rfl, rfl, rfl, rfl, rfl⟩
  · exact .inl ⟨rfl, rfl, rfl, rfl, rfl, rfl⟩
  · exact .inr ⟨r, lo, hi, rfl, writeCfg_config r lo hi s⟩
  · exact .inl ⟨rfl, rfl, rfl, rfl, rfl, rfl⟩
  · exact .inl ⟨rfl, rfl, rfl, rfl, rfl, rfl⟩

/-- Settles O14: completion, then the end of the run with DONE. -/
theorem endCompletesTheRun : Obligations.EndCompletesTheRun :=
  fun s => congrArg Host.Outcome.next (endRun_eq (complete s) .done)

/-- Settles O15. -/
theorem nopCompletesOnly : Obligations.NopCompletesOnly := fun _ => rfl

/-- Settles O16, register by register. -/
theorem setcfgCompletesWithItsWrite : Obligations.SetcfgCompletesWithItsWrite := by
  intro r lo hi s
  refine ⟨complete (writeCfg r lo hi s), rfl, ?_⟩
  cases r <;> rfl

end Sys2Proof.Claims
end

section
/-! SUPPORT. Every operation a step is made of keeps the invariant (spec/10_state.md R36 to R41, R50, spec/20_memory.md
R60, spec/40_control.md R101 to R109): the proofs of the obligations O55 to O58. -/

namespace Sys2Proof.Machine

/-! ## The invariant of a register or of DMEM under one write -/

/-- The hardwired bits of STATUS stay 0 when flags are set (R36). -/
theorem status_or_hardwired {w : Word} (h : w &&& 0xFFFFFFE0 = 0) (f : Flag) :
    (w ||| flagMask f) &&& 0xFFFFFFE0 = 0 := by
  have hflag : flagMask f &&& 0xFFFFFFE0 = 0 := by cases f <;> decide
  rw [BitVec.and_or_distrib_right, h, hflag]
  rfl

/-- Hardwired bits stay 0 when more bits are cleared. -/
theorem and_hardwired {w m : Word} (h : w &&& m = 0) (v : Word) : w &&& v &&& m = 0 := by
  rw [BitVec.and_assoc, BitVec.and_comm v, ← BitVec.and_assoc, h]
  exact BitVec.zero_and

/-- CPC 4:0 are 0 when CPC is a multiple of 32 (R38). -/
theorem cpc_hardwired_iff (w : Word) : w &&& 0x1F = 0 ↔ w.toNat % 32 = 0 := by
  rw [BitVec.toNat_eq, BitVec.toNat_and]
  exact iff_of_eq (congrArg (· = 0) (Nat.and_two_pow_sub_one_eq_mod w.toNat 5))

theorem dmemSize_le (p : Params) : p.dmemSize ≤ 2 ^ 31 :=
  Nat.pow_le_pow_right (by omega) (by unfold Params.log2Dmem; omega)

theorem dmemSize_mod (p : Params) : p.dmemSize % 65536 = 0 := by
  unfold Params.dmemSize Params.log2Dmem
  rw [Nat.pow_add, Nat.mul_mod_right]

theorem nmax_bounds (p : Params) : 2 ^ 10 ≤ p.nmax ∧ p.nmax ≤ 2 ^ 16 :=
  ⟨Nat.pow_le_pow_right (by omega) (by unfold Params.log2Nmax; omega),
    Nat.pow_le_pow_right (by omega) (by unfold Params.log2Nmax; omega)⟩

/-- Bytes written inside DMEM keep it canonical and inside (R60). -/
theorem MemoryOk.writeBytes {s t : State} (h : MemoryOk s) {a : Nat} {bs : List Byte}
    (hfit : a + bs.length ≤ s.params.dmemSize) (hmem : t.mem = writeBytes s.mem a bs) (hparams : t.params = s.params) :
    MemoryOk t := by
  refine ⟨hmem ▸ memWf_writeBytes a bs h.sorted, fun c hc => ?_⟩
  rw [hparams]
  rcases mem_writeBytes s.mem (hmem ▸ hc) with hin | hold
  · omega
  · exact h.inside c hold

/-- A destination written inside DMEM keeps it canonical and inside (R60, R66). -/
theorem MemoryOk.wrFs {s t : State} (h : MemoryOk s) {a : Nat} {xs : List F64}
    (hfit : a + 8 * xs.length ≤ s.params.dmemSize) (hmem : t.mem = wrFs s.mem a xs) (hparams : t.params = s.params) :
    MemoryOk t := by
  refine ⟨hmem ▸ memWf_wrFs a xs h.sorted, fun c hc => ?_⟩
  rw [hparams]
  rcases mem_wrFs s.mem (hmem ▸ hc) with hin | hold
  · omega
  · exact h.inside c hold

theorem MemoryOk.congr {s t : State} (h : MemoryOk s) (hmem : t.mem = s.mem) (hparams : t.params = s.params) :
    MemoryOk t :=
  ⟨hmem ▸ h.sorted, fun c hc => hparams ▸ h.inside c (hmem ▸ hc)⟩

/-- An accepted data command has its destination inside DMEM (R66). -/
theorem dst_inside {j : Job} {n : Nat} (h : j.error n = none) : j.dst.base + j.dst.bytes ≤ n := by
  obtain ⟨-, hdst, -, -⟩ := job_error_eq_none.mp h
  exact (arrayError_eq_none.mp hdst).2

/-- The flags depend on STATUS alone, and with them their part of the invariant. -/
theorem EndFlagsOk.congr {s t : State} (h : EndFlagsOk s) (hflags : ∀ f, t.flag f = s.flag f) : EndFlagsOk t where
  noneBusy hbusy := by
    simp only [hflags]
    exact h.noneBusy ((hflags .busy).symm.trans hbusy)
  doneErr := by simpa only [hflags] using h.doneErr
  doneAbort := by simpa only [hflags] using h.doneAbort
  errAbort := by simpa only [hflags] using h.errAbort

/-- The invariant says nothing of RESULT, of the configuration and of the model's own fields. -/
theorem State.Inv.congr {s t : State} (h : s.Inv) (hparams : t.params = s.params) (hmem : t.mem = s.mem)
    (hstatus : t.status = s.status) (hpending : t.abortPending = s.abortPending) (hirqEn : t.irqEn = s.irqEn)
    (herrCode : t.errCode = s.errCode) (herrInfo : t.errInfo = s.errInfo) (hcpc : t.cpc = s.cpc)
    (hcmdCount : t.cmdCount = s.cmdCount) (htwIndex : t.twIndex = s.twIndex) : t.Inv where
  hardwired := ⟨hstatus ▸ h.hardwired.status, hirqEn ▸ h.hardwired.irqEn, hcpc ▸ h.hardwired.cpc,
    herrCode ▸ h.hardwired.errCode, hparams ▸ htwIndex ▸ h.hardwired.twIndex⟩
  endFlags := h.endFlags.congr (flag_congr hstatus)
  memory := h.memory.congr hmem hparams
  run := by
    have hflag := flag_congr hstatus
    exact ⟨by simpa only [busy_eq, hflag, herrCode, herrInfo] using h.run.clean,
      by simpa only [hflag, herrCode] using h.run.errCode,
      by simpa only [busy_eq, hflag, hpending] using h.run.pending,
      by simpa only [busy_eq, hflag, hcmdCount, hcpc] using h.run.below,
      by simpa only [hcmdCount, hparams] using h.run.count⟩

/-! ## The operations of a run -/

section Run

variable {s : State}

/-- The flag that ends a run is the only end flag set, since none was set while BUSY (R105). -/
theorem endFlagsOk_of_ended {t : State} (h : EndFlagsOk s) (hbusy : s.busy = true) (f : Flag)
    (hflags : ∀ g, t.flag g = ((s.flag g || decide (f = g)) && !decide (Flag.busy = g))) : EndFlagsOk t := by
  obtain ⟨hdone, herr, haborted⟩ := h.noneBusy hbusy
  constructor <;> simp only [busy_eq, hflags, hdone, herr, haborted] <;> cases f <;> simp

theorem hardwiredOk_endRun (h : HardwiredOk s) (f : Flag) : HardwiredOk (s.endRun f) :=
  ⟨and_hardwired (status_or_hardwired h.status f) _, h.irqEn, h.cpc, h.errCode, h.twIndex⟩

/-- Error entry keeps the invariant (R203). -/
theorem raise_inv (h : s.Inv) (hbusy : s.busy = true) (e : ErrorReport) : (raise e s).Inv where
  hardwired :=
    have hended := hardwiredOk_endRun h.hardwired .err
    ⟨hended.status, hended.irqEn, hended.cpc, by rw [raise_errCode]; cases e.code <;> decide, hended.twIndex⟩
  endFlags := endFlagsOk_of_ended h.endFlags hbusy .err (flag_raise s e)
  memory := h.memory.congr rfl rfl
  run := ⟨by simp, fun _ => e.code.number_ne_zero, by simp, by simp, h.run.count⟩

/-- An end of a run without an error keeps the invariant (R105, R106, R214). -/
theorem endRun_inv (h : s.Inv) (hbusy : s.busy = true) {f : Flag} (hf : f ≠ .err) : (s.endRun f).Inv where
  hardwired := hardwiredOk_endRun h.hardwired f
  endFlags := endFlagsOk_of_ended h.endFlags hbusy f (flag_endRun s f)
  memory := h.memory.congr rfl rfl
  run := by
    obtain ⟨-, herr, -⟩ := h.endFlags.noneBusy hbusy
    exact ⟨by simp, by simp [herr, hf], by simp, by simp, h.run.count⟩

theorem endAborted_inv (h : s.Inv) (hbusy : s.busy = true) : (endAborted s).Inv :=
  endRun_inv h hbusy (by decide)

/-- Completion keeps the invariant where CPC admitted the fetch: CPC and CMD_COUNT do not wrap (R103, R109). -/
theorem complete_inv (h : s.Inv) (hbusy : s.busy = true) (hfit : s.cpc.toNat + 32 ≤ s.params.dmemSize) :
    (complete s).Inv := by
  have hsize := dmemSize_le s.params
  have hbelow := h.run.below hbusy
  have hcpc : (s.cpc + 32).toNat = s.cpc.toNat + 32 := by bv_omega
  have hcount : (s.cmdCount + 1).toNat = s.cmdCount.toNat + 1 := by bv_omega
  refine ⟨⟨h.hardwired.status, h.hardwired.irqEn, ?_, h.hardwired.errCode, h.hardwired.twIndex⟩,
    h.endFlags.congr (flag_complete s), h.memory.congr rfl rfl,
    ⟨h.run.clean, h.run.errCode, h.run.pending, fun _ => ?_, ?_⟩⟩
  · have hold := (cpc_hardwired_iff _).mp h.hardwired.cpc
    rw [complete_cpc, cpc_hardwired_iff, hcpc]
    omega
  · rw [complete_cmdCount, complete_cpc, hcount, hcpc]
    omega
  · rw [complete_cmdCount, complete_params, hcount]
    omega

theorem writeCfg_inv (h : s.Inv) (r : CfgReg) (lo hi : Word) : (writeCfg r lo hi s).Inv :=
  h.congr (by simp) (by simp) (by simp) (by simp) (by simp) (by simp) (by simp) (by simp) (by simp) (by simp)

theorem nextDraw_inv (h : s.Inv) : (nextDraw s).Inv := h.congr rfl rfl rfl rfl rfl rfl rfl rfl rfl rfl

/-- New contents of DMEM keep the invariant when they keep its part about DMEM. -/
theorem setMem_inv (h : s.Inv) {mem : List Host.Cell} (hmem : MemoryOk { s with mem := mem }) :
    State.Inv { s with mem := mem } where
  hardwired := ⟨h.hardwired.status, h.hardwired.irqEn, h.hardwired.cpc, h.hardwired.errCode, h.hardwired.twIndex⟩
  endFlags := h.endFlags.congr fun _ => rfl
  memory := hmem
  run := ⟨h.run.clean, h.run.errCode, h.run.pending, h.run.below, h.run.count⟩

/-- A completed data command keeps the invariant (R66, R103). -/
theorem finish_inv (h : s.Inv) (hbusy : s.busy = true) (hfit : s.cpc.toNat + 32 ≤ s.params.dmemSize) {j : Job}
    {xs : List F64} (hj : j.error s.params.dmemSize = none) (hlen : 8 * xs.length = j.dst.bytes) :
    (j.finish xs s).Inv := by
  have hdst := dst_inside hj
  have hwritten : State.Inv { s with mem := wrFs s.mem j.dst.base xs } :=
    setMem_inv h (h.memory.wrFs (by omega) rfl rfl)
  exact complete_inv (s := { s with mem := wrFs s.mem j.dst.base xs, result := BitVec.ofNat 32 j.result })
    (hwritten.congr rfl rfl rfl rfl rfl rfl rfl rfl rfl rfl) hbusy hfit

/-- Every command keeps the invariant. -/
theorem exec_inv (h : s.Inv) (hbusy : s.busy = true) (hfit : s.cpc.toNat + 32 ≤ s.params.dmemSize) {i : Instr}
    {t : State} (hexec : exec i s = .next t) : t.Inv := by
  have hcomplete := complete_inv h hbusy hfit
  rcases exec_cases hexec with ⟨-, rfl⟩ | ⟨-, rfl⟩ | ⟨r, lo, hi, -, rfl⟩ | ⟨e, rfl⟩ | ⟨j, xs, -, hj, -, hlen, rfl⟩
  · exact endRun_inv hcomplete hbusy (by decide)
  · exact hcomplete
  · exact complete_inv (writeCfg_inv h r lo hi) ((flag_writeCfg s r lo hi .busy).trans hbusy) (by simpa using hfit)
  · exact raise_inv h hbusy e
  · exact finish_inv h hbusy hfit hj hlen

theorem runCommand_inv (h : s.Inv) (hbusy : s.busy = true) {t : State} (hrun : runCommand s = .next t) : t.Inv := by
  rcases runCommand_cases hrun with ⟨e, rfl⟩ | ⟨hfit, bs, i, -, -, hexec⟩
  · exact raise_inv h hbusy e
  · exact exec_inv h hbusy hfit hexec

theorem scramble_memoryOk (h : MemoryOk s) (d : Nat) {a n : Nat} (hfit : a + n ≤ s.params.dmemSize) {t : State}
    (hmem : t.mem = scramble d s.mem a n) (hparams : t.params = s.params) : MemoryOk t :=
  h.writeBytes (by simpa using hfit) hmem hparams

theorem cutCommand_inv (h : s.Inv) (hbusy : s.busy = true) (i : Instr) (done : Bool) : (cutCommand i done s).Inv := by
  rcases cutCommand_cases i done s with ⟨e, hcut⟩ | hcut | ⟨r, lo, hi, -, hcut⟩ | ⟨j, -, hj, hcut⟩ <;> rw [hcut]
  · exact raise_inv h hbusy e
  · exact endAborted_inv h hbusy
  · exact endAborted_inv (writeCfg_inv h r lo hi) ((flag_writeCfg s r lo hi .busy).trans hbusy)
  · exact endAborted_inv (setMem_inv h (scramble_memoryOk h.memory _ (dst_inside hj) rfl rfl)) hbusy

theorem interruptAt_inv (h : s.Inv) (hbusy : s.busy = true) {p : AbortPoint} {t : State}
    (hturn : interruptAt p s = .next t) : t.Inv := by
  rcases interruptAt_cases hturn with ⟨e, rfl⟩ | rfl | ⟨u, hu, rfl⟩ | ⟨-, i, done, rfl⟩
  · exact raise_inv h hbusy e
  · exact endAborted_inv h hbusy
  · have hinv := runCommand_inv h hbusy hu
    split
    · next hbusy' => exact endAborted_inv hinv hbusy'
    · exact hinv
  · exact cutCommand_inv h hbusy i done

/-- Every turn of the sequencer keeps the invariant. -/
theorem engineTurn_inv (h : s.Inv) {t : State} (hturn : engineTurn s = .next t) : t.Inv := by
  unfold engineTurn at hturn
  split at hturn
  · next hbusy =>
    split at hturn
    · exact interruptAt_inv (s := nextDraw s) (nextDraw_inv h) hbusy hturn
    · exact runCommand_inv h hbusy hturn
  · cases hturn; exact h

end Run

/-! ## Resets -/

/-- The register values after reset meet the invariant, over any DMEM that does (R240, R241). -/
theorem resetRegisters_inv {s : State} (h : MemoryOk s) : (resetRegisters s).Inv where
  hardwired := ⟨BitVec.zero_and, BitVec.zero_and, BitVec.zero_and, BitVec.zero_and, by
    have hnmax := (nmax_bounds s.params).1
    show 0 < s.params.nmax / 2
    omega⟩
  endFlags := ⟨by simp [busy_eq], by simp, by simp, by simp⟩
  memory := h.congr rfl rfl
  run := ⟨by simp [busy_eq], by simp, by simp [State.reset], by simp [busy_eq], Nat.zero_le _⟩

theorem stoppedMem_memoryOk {s : State} (h : MemoryOk s) (p : AbortPoint) :
    MemoryOk { s with mem := stoppedMem p s } := by
  rcases stoppedMem_cases p s with hm | ⟨j, -, hj, ⟨xs, -, hlen, hm⟩ | hm⟩
  · exact h.congr hm rfl
  · exact h.wrFs (by have := dst_inside hj; omega) hm rfl
  · exact scramble_memoryOk h _ (dst_inside hj) hm rfl

theorem softReset_inv {s : State} (h : s.Inv) : (softReset s).Inv := by
  unfold softReset
  split
  · exact resetRegisters_inv (stoppedMem_memoryOk (nextDraw_inv h).memory _)
  · exact resetRegisters_inv h.memory

theorem powerOnReset_inv (s : State) : (powerOnReset s).Inv :=
  resetRegisters_inv (s := { s with mem := [] }) ⟨List.Pairwise.nil, fun _ hc => absurd hc List.not_mem_nil⟩

/-! ## The host's accesses -/

section HostSide

variable {s : State}

/-- After a start from IDLE no end flag is set (R101). -/
theorem flag_startRequest_of_idle (h : s.busy = false) (g : Flag) : (startRequest s).flag g =
    ((s.flag g && !decide (Flag.done = g) && !decide (Flag.err = g) && !decide (Flag.aborted = g)) ||
      decide (Flag.busy = g)) := by
  rw [← flag_clearFlag, ← flag_clearFlag, ← flag_clearFlag, ← flag_setFlag, startRequest_of_idle h]
  exact flag_congr rfl g

/-- A start from IDLE keeps the invariant: the end flags and the errors are cleared with it (R101). -/
theorem startRequest_inv (h : s.Inv) : (startRequest s).Inv := by
  by_cases hbusy : s.busy = true
  · rw [startRequest_of_busy hbusy]; exact h
  · have hidle : s.busy = false := by simpa using hbusy
    have hpending : s.abortPending = false := by
      cases hp : s.abortPending
      · rfl
      · exact absurd (h.run.pending hp) hbusy
    have hflags := flag_startRequest_of_idle hidle
    have hold := startRequest_of_idle hidle
    refine ⟨⟨?_, ?_, ?_, ?_, ?_⟩, ⟨by simp [hflags], by simp [hflags], by simp [hflags], by simp [hflags]⟩,
      h.memory.congr (by rw [hold]; rfl) (by simp),
      ⟨fun _ => by simp [hold], by simp [hflags], by simp [hold, hpending], fun _ => by simp [hold], by simp [hold]⟩⟩
    · rw [hold]
      exact status_or_hardwired (and_hardwired (and_hardwired (and_hardwired h.hardwired.status _) _) _) .busy
    · rw [hold]; exact h.hardwired.irqEn
    · rw [hold]; exact h.hardwired.cpc
    · rw [hold]; exact BitVec.zero_and
    · rw [hold]; exact h.hardwired.twIndex

theorem abortRequest_inv (h : s.Inv) : (abortRequest s).Inv := by
  unfold abortRequest
  split
  · next hbusy =>
    exact ⟨⟨h.hardwired.status, h.hardwired.irqEn, h.hardwired.cpc, h.hardwired.errCode, h.hardwired.twIndex⟩,
      h.endFlags.congr fun _ => rfl, h.memory.congr rfl rfl,
      ⟨h.run.clean, h.run.errCode, fun _ => hbusy, h.run.below, h.run.count⟩⟩
  · exact h

theorem violation_inv (h : s.Inv) : (violation s).Inv where
  hardwired := ⟨status_or_hardwired h.hardwired.status _, h.hardwired.irqEn, h.hardwired.cpc, h.hardwired.errCode,
    h.hardwired.twIndex⟩
  endFlags := by
    obtain ⟨hnone, hde, hda, hea⟩ := h.endFlags
    exact ⟨by simpa [busy_eq] using hnone, by simpa using hde, by simpa using hda, by simpa using hea⟩
  memory := h.memory.congr rfl rfl
  run := ⟨by simpa [busy_eq] using h.run.clean, by simpa using h.run.errCode, by simpa [busy_eq] using h.run.pending,
    by simpa [busy_eq] using h.run.below, h.run.count⟩

theorem writeCtrl_inv (h : s.Inv) {v : Word} {t : State} (hw : writeCtrl v s = .next t) : t.Inv := by
  unfold writeCtrl at hw
  split at hw
  · cases hw; exact softReset_inv h
  · split at hw
    · cases hw; exact abortRequest_inv h
    · split at hw
      · cases hw; exact startRequest_inv h
      · cases hw; exact h

/-- A flag after a write to STATUS was set before, and BUSY is kept (R36). -/
theorem flag_statusAfterWrite (s : State) (v : Word) (f : Flag) :
    flagOf (statusAfterWrite s.status v) f = (s.flag f && !(decide (f ≠ .busy) && v.getLsbD (flagBit f))) := by
  cases f <;> simp [flagOf, statusAfterWrite, State.flag, flagBit]

/-- A write to STATUS clears flags only (R36). -/
theorem writeStatus_inv (h : s.Inv) (v : Word) : State.Inv { s with status := statusAfterWrite s.status v } := by
  have hflags : ∀ f, State.flag { s with status := statusAfterWrite s.status v } f =
      (s.flag f && !(decide (f ≠ .busy) && v.getLsbD (flagBit f))) := flag_statusAfterWrite s v
  have hbusy : State.busy { s with status := statusAfterWrite s.status v } = s.busy := by
    rw [busy_eq, hflags]; simp [busy_eq]
  have hmono : ∀ f, State.flag { s with status := statusAfterWrite s.status v } f = true → s.flag f = true := by
    intro f hf
    rw [hflags, Bool.and_eq_true] at hf
    exact hf.1
  obtain ⟨hnone, hde, hda, hea⟩ := h.endFlags
  refine ⟨⟨and_hardwired h.hardwired.status _, h.hardwired.irqEn, h.hardwired.cpc, h.hardwired.errCode,
      h.hardwired.twIndex⟩, ⟨fun hb => ?_, fun hf => hde (hf.imp (hmono _) (hmono _)),
      fun hf => hda (hf.imp (hmono _) (hmono _)), fun hf => hea (hf.imp (hmono _) (hmono _))⟩,
    h.memory.congr rfl rfl,
    ⟨fun hb => h.run.clean (hbusy ▸ hb), fun hf => h.run.errCode (hmono _ hf), fun hp => hbusy ▸ h.run.pending hp,
      fun hb => h.run.below (hbusy ▸ hb), h.run.count⟩⟩
  obtain ⟨h1, h2, h3⟩ := hnone (hbusy ▸ hb)
  simp [hflags, h1, h2, h3]

theorem whenIdle_inv (h : s.Inv) {store : State → State} {t : State} (hstore : s.busy = false → (store s).Inv)
    (hw : whenIdle store s = .next t) : t.Inv := by
  cases hw
  split
  · exact violation_inv h
  · next hidle => exact hstore (by simpa using hidle)

/-- A host write of CPC while IDLE (R38). -/
theorem writeCpc_inv (h : s.Inv) (hidle : s.busy = false) (v : Word) : State.Inv { s with cpc := v &&& cpcMask } where
  hardwired := ⟨h.hardwired.status, h.hardwired.irqEn, by
      show v &&& cpcMask &&& 0x1F = 0
      rw [BitVec.and_assoc, show cpcMask &&& 0x1F = 0 by decide]
      exact BitVec.and_zero, h.hardwired.errCode,
    h.hardwired.twIndex⟩
  endFlags := h.endFlags.congr fun _ => rfl
  memory := h.memory.congr rfl rfl
  run := ⟨h.run.clean, h.run.errCode, h.run.pending, fun hb => absurd (hidle.symm.trans hb) (by decide), h.run.count⟩

theorem writeIrqEn_inv (h : s.Inv) (v : Word) : State.Inv { s with irqEn := v &&& irqEnMask } where
  hardwired := ⟨h.hardwired.status, by
      show v &&& irqEnMask &&& 0xFFFFFFE1 = 0
      rw [BitVec.and_assoc, show irqEnMask &&& 0xFFFFFFE1 = 0 by decide]
      exact BitVec.and_zero, h.hardwired.cpc,
    h.hardwired.errCode, h.hardwired.twIndex⟩
  endFlags := h.endFlags.congr fun _ => rfl
  memory := h.memory.congr rfl rfl
  run := ⟨h.run.clean, h.run.errCode, h.run.pending, h.run.below, h.run.count⟩

theorem twIndex_toNat (p : Params) (v : Word) :
    (BitVec.ofNat 32 (v.toNat % (p.nmax / 2))).toNat = v.toNat % (p.nmax / 2) := by
  obtain ⟨hlo, hhi⟩ := nmax_bounds p
  have hlt := Nat.mod_lt v.toNat (show 0 < p.nmax / 2 by omega)
  rw [BitVec.toNat_ofNat, Nat.mod_eq_of_lt (by omega)]

/-- A host write of TW_INDEX stores an index of the ROM (R50). -/
theorem writeTwIndex_inv (h : s.Inv) (v : Word) :
    State.Inv { s with twIndex := BitVec.ofNat 32 (v.toNat % (s.params.nmax / 2)) } where
  hardwired := ⟨h.hardwired.status, h.hardwired.irqEn, h.hardwired.cpc, h.hardwired.errCode, by
      rw [twIndex_toNat]
      exact Nat.mod_lt _ (by have := (nmax_bounds s.params).1; omega)⟩
  endFlags := h.endFlags.congr fun _ => rfl
  memory := h.memory.congr rfl rfl
  run := ⟨h.run.clean, h.run.errCode, h.run.pending, h.run.below, h.run.count⟩

theorem writeReg_inv (h : s.Inv) {r : Reg} {v : Word} {t : State} (hw : writeReg r v s = .next t) : t.Inv := by
  cases r with
  | ctrl => exact writeCtrl_inv h hw
  | status => cases hw; exact writeStatus_inv h v
  | irqEn => cases hw; exact writeIrqEn_inv h v
  | twIndex => cases hw; exact writeTwIndex_inv h v
  | cpc =>
    simp only [writeReg] at hw
    refine whenIdle_inv h ?_ hw
    exact fun hidle => writeCpc_inv h hidle v
  | cfgWindow | cfgStep | cfgFirSize | cfgConvFft | cfgCutoffLo | cfgCutoffHi | cfgFsLo | cfgFsHi =>
    simp only [writeReg] at hw
    refine whenIdle_inv h ?_ hw
    exact fun _ => h.congr rfl rfl rfl rfl rfl rfl rfl rfl rfl rfl
  | _ => cases hw; exact h

theorem writeRegister_inv (h : s.Inv) {off : Nat} {v : Word} {t : State} (hw : writeRegister off v s = .next t) :
    t.Inv := by
  unfold writeRegister at hw
  split at hw
  · exact writeReg_inv h hw
  · cases hw; exact h

theorem hostReadDmem_inv (h : s.Inv) {a : Nat} {t : State} (hr : hostReadDmem a s = .next t) : t.Inv := by
  unfold hostReadDmem at hr
  split at hr
  · cases hr; exact (violation_inv h).congr rfl rfl rfl rfl rfl rfl rfl rfl rfl rfl
  · split at hr <;> cases hr
    exact h.congr rfl rfl rfl rfl rfl rfl rfl rfl rfl rfl

/-- A word of the aperture lies inside DMEM, whose size is a multiple of 4 (R6, R62). -/
theorem busTarget_dmem_inside {p : Params} {w off : Nat} (h : busTarget p w = .dmem off) : off + 4 ≤ p.dmemSize := by
  unfold busTarget at h
  split at h
  · cases h
  · split at h
    · next hin =>
      cases h
      have := dmemSize_mod p
      omega
    · cases h

theorem hostWriteDmem_inv (h : s.Inv) {a : Nat} {v : Word} {t : State} (hfit : a + 4 ≤ s.params.dmemSize)
    (hw : hostWriteDmem a v s = .next t) : t.Inv := by
  unfold hostWriteDmem at hw
  split at hw <;> cases hw
  · exact violation_inv h
  · exact setMem_inv h (h.memory.writeBytes (by simpa using hfit) rfl rfl)

/-- Every host access keeps the invariant. -/
theorem hostAccess_inv (h : s.Inv) {a : HostAccess} {t : State} (ha : hostAccess a s = .next t) : t.Inv := by
  cases a with
  | read w =>
    simp only [hostAccess] at ha
    split at ha
    · cases ha; exact h.congr rfl rfl rfl rfl rfl rfl rfl rfl rfl rfl
    · exact hostReadDmem_inv h ha
    · cases ha; exact h
  | write w v =>
    simp only [hostAccess] at ha
    split at ha
    · exact writeRegister_inv h ha
    · next htarget => exact hostWriteDmem_inv h (busTarget_dmem_inside htarget) ha
    · cases ha; exact h

end HostSide

/-! ## How long a run lasts -/

theorem exec_turns {i : Instr} {s t : State} (h : exec i s = .next t) : t.turns = s.turns := by
  rcases exec_cases h with ⟨-, rfl⟩ | ⟨-, rfl⟩ | ⟨r, lo, hi, -, rfl⟩ | ⟨e, rfl⟩ | ⟨j, xs, -, -, -, -, rfl⟩ <;>
    simp

theorem runCommand_turns {s t : State} (h : runCommand s = .next t) : t.turns = s.turns := by
  rcases runCommand_cases h with ⟨e, rfl⟩ | ⟨-, bs, i, -, -, hexec⟩
  · exact raise_turns s e
  · exact exec_turns hexec

@[simp] theorem cutCommand_turns (i : Instr) (done : Bool) (s : State) : (cutCommand i done s).turns = s.turns := by
  rcases cutCommand_cases i done s with ⟨e, h⟩ | h | ⟨r, lo, hi, -, h⟩ | ⟨j, -, -, h⟩ <;> simp [h]

theorem interruptAt_turns {p : AbortPoint} {s t : State} (h : interruptAt p s = .next t) : t.turns = s.turns := by
  rcases interruptAt_cases h with ⟨e, rfl⟩ | rfl | ⟨u, hu, rfl⟩ | ⟨-, i, done, rfl⟩
  · exact raise_turns s e
  · exact endAborted_turns s
  · rw [← runCommand_turns hu]
    split <;> simp
  · exact cutCommand_turns i done s

/-- The sequencer does not take the turns of others (log 7). -/
theorem engineTurn_turns {s t : State} (h : engineTurn s = .next t) : t.turns = s.turns := by
  unfold engineTurn at h
  split at h
  · split at h
    · exact interruptAt_turns (s := nextDraw s) h
    · exact runCommand_turns h
  · cases h; rfl

/-- A command that leaves the engine BUSY was fetched, and CPC went on by one descriptor (R103). -/
theorem runCommand_advances {s t : State} (h : runCommand s = .next t) (hbusy : t.busy = true) :
    s.cpc.toNat + 32 ≤ s.params.dmemSize ∧ t.cpc = s.cpc + 32 := by
  rcases runCommand_cases h with ⟨e, rfl⟩ | ⟨hfit, bs, i, -, -, hexec⟩
  · exact absurd hbusy (by simp)
  · refine ⟨hfit, ?_⟩
    rcases exec_cases hexec with ⟨-, rfl⟩ | ⟨-, rfl⟩ | ⟨r, lo, hi, -, rfl⟩ | ⟨e, rfl⟩ | ⟨j, xs, -, -, -, -, rfl⟩
    · exact absurd hbusy (by simp)
    · simp
    · simp
    · exact absurd hbusy (by simp)
    · simp

theorem EndsRun.idle {s t : State} (h : EndsRun s t) : t.busy = false := by
  cases h with
  | done hend ht => simp [ht]
  | err e ht => simp [ht]
  | aborted hpending u hu ht => simp [ht]

/-- A turn after which the engine is still BUSY executed one more descriptor of DMEM. -/
theorem engineTurn_advances {s t : State} (hbusy : s.busy = true) (h : engineTurn s = .next t)
    (htbusy : t.busy = true) :
    s.cpc.toNat + 32 ≤ s.params.dmemSize ∧ t.cpc = s.cpc + 32 := by
  rw [engineTurn, if_pos hbusy] at h
  split at h
  · next hpending =>
    have hidle := (interruptAt_endsRun (s := nextDraw s) hbusy hpending h).idle
    exact absurd (hidle.symm.trans htbusy) (by decide)
  · exact runCommand_advances h htbusy

/-- A run of the engine alone is over once more descriptors were stepped over than fit from CPC on (R109). -/
theorem run_idle (k : Nat) : ∀ {s t : State}, s.turns = [] →
    (s.busy = true → 1 ≤ k ∧ s.params.dmemSize < s.cpc.toNat + 32 * k) →
    Host.Core.run core k s = .next t → State.busy t = false := by
  induction k with
  | zero =>
    intro s t _ hleft hrun
    cases hrun
    exact Bool.eq_false_iff.mpr fun hbusy => absurd (hleft hbusy).1 (by omega)
  | succ k ih =>
    intro s t hturns hleft hrun
    simp only [Host.Core.run, core, step_of_turns_nil hturns] at hrun
    by_cases hbusy : s.busy = true
    · obtain ⟨-, hleft⟩ := hleft hbusy
      split at hrun
      · next u hu =>
        refine ih ((engineTurn_turns hu).trans hturns) (fun hu_busy => ?_) hrun
        obtain ⟨hfit, hcpc⟩ := engineTurn_advances hbusy hu hu_busy
        have hsize := dmemSize_le s.params
        have hnext : u.cpc.toNat = s.cpc.toNat + 32 := by rw [hcpc]; bv_omega
        rw [hnext, engineTurn_params hu]
        omega
      · cases hrun
      · cases hrun
    · rw [engineTurn, if_neg hbusy] at hrun
      exact ih hturns (fun hb => absurd hb hbusy) hrun

end Sys2Proof.Machine

namespace Sys2Proof.Claims

open Sys2Proof.Machine

/-- Settles O55. -/
theorem powerOnResetForgetsEverything : Obligations.PowerOnResetForgetsEverything := by
  intro s rest hturns
  rw [step, takeTurn, hturns]
  rfl

/-- Settles O56: an empty DMEM is canonical, and the register values after reset meet the rest. -/
theorem resetMeetsInvariant : Obligations.ResetMeetsInvariant := powerOnReset_inv State.reset

/-- Settles O57: whose turn it is selects the operation, and each operation keeps the invariant. -/
theorem stepKeepsInvariant : Obligations.StepKeepsInvariant := by
  intro s t h hstep
  have hrest : ∀ rest, State.Inv { s with turns := rest } := fun rest =>
    h.congr rfl rfl rfl rfl rfl rfl rfl rfl rfl rfl
  unfold step takeTurn at hstep
  split at hstep
  · exact engineTurn_inv h hstep
  · exact engineTurn_inv (hrest _) hstep
  · exact hostAccess_inv (hrest _) hstep
  · cases hstep; exact powerOnReset_inv _

/-- Settles O58: from any CPC fewer than DMEM_SIZE/32 + 1 descriptors fit. -/
theorem everyRunEnds : Obligations.EveryRunEnds := by
  intro s t hturns hrun
  exact run_idle _ hturns (fun _ => by omega) hrun

end Sys2Proof.Claims
end

section
/-! SUPPORT. DMEM byte by byte, the register map and the host's accesses (spec/10_state.md R32 to R50,
spec/20_memory.md R60 to R65): the proofs of the obligations O42, O43, O45, O47, O48, O50 and O60. -/

namespace Sys2Proof.Machine

open Sys2Proof.Claims (SameOutside SameConfig)

/-! ## Little-endian words -/

theorem bytesOfNat_getElem? (v n : Nat) {k : Nat} (hk : k < n) :
    (bytesOfNat v n)[k]? = some (BitVec.ofNat 8 (v / 2 ^ (8 * k))) := by
  induction n generalizing v k with
  | zero => omega
  | succ n ih =>
    cases k with
    | zero => simp [bytesOfNat]
    | succ k =>
      rw [bytesOfNat, List.getElem?_cons_succ, ih _ (by omega), Nat.div_div_eq_div_mul]
      congr 3
      rw [show 8 * (k + 1) = 8 + 8 * k by omega, pow_add]
      norm_num

theorem readByte_memWrite_inside (mem : List Host.Cell) (a v : Nat) {n k : Nat} (hk : k < n) :
    readByte (memWrite mem a n v) (a + k) = some (BitVec.ofNat 8 (v / 2 ^ (8 * k))) := by
  rw [memWrite, readByte_writeBytes, if_pos (by simp [hk]), Nat.add_sub_cancel_left, bytesOfNat_getElem? v n hk]

theorem memWrite_sameOutside (mem : List Host.Cell) (a n v : Nat) : SameOutside mem (memWrite mem a n v) a n :=
  fun _ hx => readByte_writeBytes_outside mem (by simpa using hx)

/-- The number that little-endian bytes spell (R61). -/
theorem natOfBytes_map_range (b : Nat → Byte) (n : Nat) :
    natOfBytes ((List.range n).map b) = ((List.range n).map fun k => (b k).toNat * 2 ^ (8 * k)).sum := by
  induction n generalizing b with
  | zero => rfl
  | succ n ih =>
    have hscale : ∀ l : List Nat, 256 * (l.map fun k => (b (k + 1)).toNat * 2 ^ (8 * k)).sum =
        (l.map fun k => (b (k + 1)).toNat * 2 ^ (8 * (k + 1))).sum := fun l => by
      rw [← List.sum_map_mul_left]
      congr 1
      refine List.map_congr_left fun k _ => ?_
      rw [show 8 * (k + 1) = 8 * k + 8 by omega, pow_add]
      ring
    rw [List.range_succ_eq_map, List.map_cons, List.map_cons, List.map_map, List.map_map, natOfBytes, List.sum_cons]
    simp only [Function.comp_def, Nat.succ_eq_add_one]
    rw [ih (fun k => b (k + 1)), hscale]
    simp

/-- Bytes with known values read as one range. -/
theorem readBytes_of_values {mem : List Host.Cell} {a n : Nat} {b : Nat → Byte}
    (h : ∀ k < n, readByte mem (a + k) = some (b k)) : readBytes mem a n = some ((List.range n).map b) :=
  readBytes_of_forall (by simp) fun k hk => by simp [h k hk, hk]

theorem memRead_of_values {mem : List Host.Cell} {a n : Nat} {b : Nat → Byte}
    (h : ∀ k < n, readByte mem (a + k) = some (b k)) :
    memRead mem a n = some (((List.range n).map fun k => (b k).toNat * 2 ^ (8 * k)).sum) := by
  rw [memRead, readBytes_of_values h, Option.map_some, natOfBytes_map_range]

/-- Four bytes read as a word, the byte at the highest offset most significant (R61, R64). -/
theorem memRead_word {mem : List Host.Cell} {a : Nat} {b0 b1 b2 b3 : Byte} (h0 : readByte mem a = some b0)
    (h1 : readByte mem (a + 1) = some b1) (h2 : readByte mem (a + 2) = some b2) (h3 : readByte mem (a + 3) = some b3) :
    (memRead mem a 4).map (BitVec.ofNat 32) = some (b3 ++ b2 ++ b1 ++ b0 : BitVec 32) := by
  have hread : memRead mem a 4 = some (b0.toNat + 256 * (b1.toNat + 256 * (b2.toNat + 256 * b3.toNat))) := by
    simp [memRead, readBytes, h0, h1, h2, h3, natOfBytes, Nat.add_assoc]
  rw [hread, Option.map_some]
  congr 1
  apply BitVec.eq_of_toNat_eq
  simp only [BitVec.toNat_append, BitVec.toNat_ofNat]
  rw [← Nat.shiftLeft_add_eq_or_of_lt (by omega), ← Nat.shiftLeft_add_eq_or_of_lt (by omega),
    ← Nat.shiftLeft_add_eq_or_of_lt (by omega)]
  simp only [Nat.shiftLeft_eq]
  omega

/-! ## The DMEM aperture while IDLE -/

section Idle

variable {s : State}

theorem hostReadDmem_of_idle {a v : Nat} (hidle : s.busy = false) (hread : memRead s.mem a 4 = some v) :
    hostReadDmem a s = .next { s with hostData := BitVec.ofNat 32 v } := by
  simp [hostReadDmem, hidle, hread]

theorem hostWriteDmem_of_idle (a : Nat) (v : Word) (hidle : s.busy = false) :
    hostWriteDmem a v s = .next { s with mem := memWrite s.mem a 4 v.toNat } := by
  simp [hostWriteDmem, hidle]

theorem whenIdle_of_idle (store : State → State) (hidle : s.busy = false) : whenIdle store s = .next (store s) := by
  simp [whenIdle, hidle]

/-- A word of the host that was written reads back (R63, R64). -/
theorem hostReadDmem_memWrite (a : Nat) (v : Word) (hidle : s.busy = false) :
    hostReadDmem a { s with mem := memWrite s.mem a 4 v.toNat } =
      .next { s with mem := memWrite s.mem a 4 v.toNat, hostData := v } := by
  have hv : v.toNat % 256 ^ 4 = v.toNat := Nat.mod_eq_of_lt v.isLt
  have hread := memRead_memWrite s.mem a 4 v.toNat
  rw [hv] at hread
  rw [hostReadDmem_of_idle (s := { s with mem := memWrite s.mem a 4 v.toNat }) hidle hread, BitVec.ofNat_toNat,
    BitVec.setWidth_eq]

end Idle

/-! ## The register map -/

theorem regAt_eq_none {off : Nat} (h : off = 0x00C ∨ (0x030 ≤ off ∧ off ≤ 0x03C) ∨ off = 0x064 ∨ 0x078 ≤ off) :
    regAt off = none := by
  have hfind : registerMap.find? (fun e => e.1 == off) = none := by
    simp only [registerMap, List.find?_eq_none, List.mem_cons, List.not_mem_nil, or_false, beq_iff_eq]
    rintro e (rfl | rfl | rfl | rfl | rfl | rfl | rfl | rfl | rfl | rfl | rfl | rfl | rfl | rfl | rfl | rfl | rfl | rfl |
      rfl | rfl | rfl | rfl | rfl | rfl) <;> omega
  rw [regAt, hfind, Option.map_none]

/-- A word is its two halves (R49, R50). -/
theorem append_halves (x : F64) : (x.extractLsb' 32 32 ++ x.extractLsb' 0 32 : BitVec 64) = x := by
  apply BitVec.eq_of_toNat_eq
  simp only [BitVec.toNat_append, BitVec.extractLsb'_toNat]
  rw [← Nat.shiftLeft_add_eq_or_of_lt (by omega)]
  simp only [Nat.shiftLeft_eq, Nat.shiftRight_eq_div_pow]
  omega

/-! ## What an access cannot reach while BUSY -/

/-- What R65 keeps from the host while BUSY. -/
def RunIsolated (s t : State) : Prop :=
  t.mem = s.mem ∧ t.cpc = s.cpc ∧ SameConfig s t ∧ t.cmdCount = s.cmdCount ∧ t.result = s.result ∧
    t.errCode = s.errCode ∧ t.errInfo = s.errInfo ∧ t.busy = true

section BusyHost

variable {s t : State}

theorem RunIsolated.refl (hbusy : s.busy = true) : RunIsolated s s :=
  ⟨rfl, rfl, ⟨rfl, rfl, rfl, rfl, rfl, rfl⟩, rfl, rfl, rfl, rfl, hbusy⟩

theorem violation_isolated (hbusy : s.busy = true) : RunIsolated s (violation s) :=
  ⟨rfl, rfl, ⟨rfl, rfl, rfl, rfl, rfl, rfl⟩, rfl, rfl, rfl, rfl, by simpa [busy_eq] using hbusy⟩

/-- A write to a register while BUSY is dropped or touches STATUS 4:1, IRQ_EN or TW_INDEX alone; CTRL can only ask for
an abort, but for a soft reset (R35, R65). -/
theorem writeReg_isolated {r : Reg} {v : Word} (hbusy : s.busy = true) (hsoft : r = .ctrl → v.getLsbD 2 = false)
    (h : writeReg r v s = .next t) : RunIsolated s t := by
  by_cases hr : r ∈ idleOnlyRegs
  · rw [writeReg_idleOnly_of_busy v hr hbusy] at h
    cases h
    exact violation_isolated hbusy
  · cases r with
    | ctrl =>
      rw [writeReg, writeCtrl_of_busy v hbusy, hsoft rfl] at h
      cases h
      rw [if_neg (by decide)]
      split <;> exact RunIsolated.refl hbusy
    | status =>
      cases h
      refine ⟨rfl, rfl, ⟨rfl, rfl, rfl, rfl, rfl, rfl⟩, rfl, rfl, rfl, rfl, ?_⟩
      exact (flag_statusAfterWrite s v .busy).trans (by simpa [busy_eq] using hbusy)
    | irqEn | twIndex | id | version | param | errCode | errInfo | cmdCount | result | twCosLo | twCosHi | twSinLo
    | twSinHi => cases h; exact RunIsolated.refl hbusy
    | _ => exact absurd (by decide) hr

theorem regAt_ctrl {off : Nat} (h : regAt off = some .ctrl) : off = 0x010 := by
  obtain ⟨e, hfind, he⟩ := Option.map_eq_some_iff.mp h
  have hoff := List.find?_some hfind
  have hmem := List.mem_of_find?_eq_some hfind
  simp only [registerMap, List.mem_cons, List.not_mem_nil, or_false] at hmem
  obtain ⟨o, r⟩ := e
  simp_all

theorem hostAccess_isolated {a : HostAccess} (hbusy : s.busy = true) (h : hostAccess a s = .next t)
    (hsoft : ∀ w v, a = .write w v → busTarget s.params w = .register 0x010 → v.getLsbD 2 = false) :
    RunIsolated s t := by
  cases a with
  | read w =>
    simp only [hostAccess] at h
    split at h
    · cases h; exact RunIsolated.refl hbusy
    · rw [hostReadDmem_of_busy _ hbusy] at h
      cases h
      exact violation_isolated hbusy
    · cases h; exact RunIsolated.refl hbusy
  | write w v =>
    simp only [hostAccess] at h
    split at h
    · next off htarget =>
      unfold writeRegister at h
      split at h
      · next r hr =>
        refine writeReg_isolated hbusy (fun hctrl => hsoft w v rfl ?_) h
        rw [htarget, regAt_ctrl (off := off) (hctrl ▸ hr)]
      · cases h; exact RunIsolated.refl hbusy
    · rw [hostWriteDmem_of_busy _ _ hbusy] at h
      cases h
      exact violation_isolated hbusy
    · cases h; exact RunIsolated.refl hbusy

end BusyHost

end Sys2Proof.Machine

namespace Sys2Proof.Claims

open Sys2Proof.Machine

/-- Settles O42. -/
theorem memoryIsLittleEndian : Obligations.MemoryIsLittleEndian :=
  fun mem a n => ⟨fun _ => memRead_of_values, fun v _ => readByte_memWrite_inside mem a v,
    memWrite_sameOutside mem a n⟩

/-- Settles O43: the registers are read off the reset state, and an IDLE turn does nothing. -/
theorem resetStateIsAsSpecified : Obligations.ResetStateIsAsSpecified := by
  refine ⟨rfl, rfl, rfl, append_halves _, append_halves _, fun _ => rfl, rfl, rfl, rfl, ?_⟩
  rw [step_of_turns_nil rfl]
  rfl

/-- Settles O45: the register map has no entry at these offsets. -/
theorem reservedOffsetsReadZero : Obligations.ReservedOffsetsReadZero := by
  intro s off v hoff
  have hnone := regAt_eq_none hoff
  simp only [readRegister, writeRegister, hnone, and_self]

/-- Settles O47. -/
theorem statusIsWriteOneToClear : Obligations.StatusIsWriteOneToClear := by
  intro s v
  refine ⟨_, writeRegister_status v s, rfl, fun k => ?_⟩
  have hmask : ∀ k, (0x1E : Word).getLsbD k = decide (1 ≤ k ∧ k ≤ 4) := by
    intro k
    by_cases hk : k < 32
    · interval_cases k <;> rfl
    · rw [BitVec.getLsbD_of_ge _ _ (by omega), decide_eq_false (by omega)]
  by_cases hk : k < 32
  · simp only [BitVec.getLsbD_and, BitVec.getLsbD_not, hmask, hk, decide_true, Bool.true_and, Bool.and_comm]
  · simp only [BitVec.getLsbD_of_ge _ _ (Nat.le_of_not_lt hk), Bool.false_and]

/-- Settles O48: the register map is evaluated offset by offset. -/
theorem hardwiredBitsAndRomPort : Obligations.HardwiredBitsAndRomPort := by
  intro s v
  refine ⟨rfl, rfl, fun hidle => ?_, fun off hoff => ?_, rfl,
    whenIdle_of_idle fun s => { s with cpc := v &&& cpcMask },
    ⟨_, writeRegister_twIndex v s, rfl, twIndex_toNat s.params v⟩, append_halves _, append_halves _⟩
  · have stored : ∀ store : State → State, whenIdle store s = .next (store s) := fun _ => whenIdle_of_idle _ hidle
    exact ⟨stored fun s => { s with cfgWindow := v }, stored fun s => { s with cfgStep := v },
      stored fun s => { s with cfgFirSize := v }, stored fun s => { s with cfgConvFft := v },
      stored fun s => { s with cfgCutoffLo := v }, stored fun s => { s with cfgCutoffHi := v },
      stored fun s => { s with cfgFsLo := v }, stored fun s => { s with cfgFsHi := v }⟩
  · simp only [List.mem_cons, List.not_mem_nil, or_false] at hoff
    rcases hoff with rfl | rfl | rfl | rfl | rfl | rfl | rfl | rfl | rfl | rfl | rfl <;> rfl

/-- Settles O50: the two regions of `busTarget`, and the two directions of an access of the aperture. -/
theorem idleHostWordsReadBack : Obligations.IdleHostWordsReadBack := by
  refine ⟨fun p a w ha => ⟨fun hblock => ?_, fun hsize hout => ?_, fun hblock haperture => ?_⟩,
    fun s w off v => ⟨fun htarget => ?_, fun htarget => ?_, fun htarget hidle => ⟨?_, ?_⟩⟩⟩
  · rw [busTarget, if_pos (by omega), Nat.add_sub_cancel_left, Nat.mul_div_cancel' (Nat.dvd_of_mod_eq_zero ha)]
  · rw [busTarget, if_neg (by omega), if_pos (by omega), Nat.add_sub_cancel_left,
      Nat.mul_div_cancel' (Nat.dvd_of_mod_eq_zero ha)]
  · have hsize := dmemSize_mod p
    rw [busTarget, if_neg (by omega), if_neg (by omega)]
  · simp only [hostAccess, htarget, and_self]
  · exact ⟨hostAccess_read_register htarget, hostAccess_write_register v htarget⟩
  · intro b0 b1 b2 b3 h0 h1 h2 h3
    obtain ⟨n, hn, hword⟩ := Option.map_eq_some_iff.mp (memRead_word h0 h1 h2 h3)
    rw [hostAccess_read_dmem htarget, hostReadDmem_of_idle hidle hn, hword]
  · refine ⟨memWrite s.mem off 4 v.toNat, ?_, fun k hk => ?_, memWrite_sameOutside _ _ _ _, ?_⟩
    · rw [hostAccess_write_dmem v htarget, hostWriteDmem_of_idle off v hidle]
    · rw [readByte_memWrite_inside _ _ _ hk, ← Nat.shiftRight_eq_div_pow]
      rfl
    · rw [hostAccess_read_dmem (s := { s with mem := memWrite s.mem off 4 v.toNat }) htarget,
        hostReadDmem_memWrite off v hidle]

/-- Settles O60. -/
theorem busyRunIsIsolatedFromHost : Obligations.BusyRunIsIsolatedFromHost :=
  fun _ _ _ hbusy h hsoft => hostAccess_isolated hbusy h hsoft

end Sys2Proof.Claims
end

section
/-! SUPPORT. What a data command reads: its source arrays and nothing else (spec/20_memory.md R67, R79), and with it
abort and soft reset (spec/60_exceptions.md R214, R215, spec/70_reset_and_hazards.md R241): the proofs of the
obligations O12, O52, O53 and O54. -/

namespace Sys2Proof.Machine

open Sys2Proof.Claims (Available commandAt abortedFrom errorEntered SameOutside SameConfig)

/-! ## Readers -/

/-- `f` reads bytes of DMEM at the offsets `P` alone: it has an answer where these all have values, and its answer
depends on them alone. -/
structure ReadsWithin {α : Type} (P : Nat → Prop) (f : List Host.Cell → Option α) : Prop where
  unwritten : ∀ mem, f mem = none → ∃ a, P a ∧ readByte mem a = none
  congr : ∀ mem mem', (∀ a, P a → readByte mem' a = readByte mem a) → f mem' = f mem

section Readers

variable {α β γ : Type} {P : Nat → Prop}

theorem readsWithin_const (x : α) : ReadsWithin P fun _ => some x :=
  ⟨fun _ h => (Option.some_ne_none x h).elim, fun _ _ _ => rfl⟩

theorem readsWithin_readBytes {a n : Nat} (h : ∀ k < n, P (a + k)) : ReadsWithin P fun mem => readBytes mem a n where
  unwritten mem hnone := by
    obtain ⟨k, hk, hbyte⟩ := readBytes_eq_none_iff.mp hnone
    exact ⟨a + k, h k hk, hbyte⟩
  congr mem mem' hsame := readBytes_congr fun x h1 h2 => by
    obtain ⟨k, rfl⟩ := Nat.exists_eq_add_of_le h1
    exact hsame _ (h k (by omega))

theorem ReadsWithin.map {f : List Host.Cell → Option α} (h : ReadsWithin P f) (g : α → β) :
    ReadsWithin P fun mem => (f mem).map g where
  unwritten mem hnone := h.unwritten mem (Option.map_eq_none_iff.mp hnone)
  congr mem mem' hsame := congrArg (Option.map g) (h.congr mem mem' hsame)

/-- Two reads, one after the other. -/
theorem ReadsWithin.pair {f : List Host.Cell → Option α} {g : List Host.Cell → Option β}
    {r : List Host.Cell → Option γ} (hf : ReadsWithin P f) (hg : ReadsWithin P g) (c : α → β → γ)
    (hr : ∀ mem, r mem = (f mem).bind fun x => (g mem).map (c x)) : ReadsWithin P r where
  unwritten mem hnone := by
    rw [hr] at hnone
    cases hx : f mem with
    | none => exact hf.unwritten mem hx
    | some x =>
      rw [hx, Option.bind_some, Option.map_eq_none_iff] at hnone
      exact hg.unwritten mem hnone
  congr mem mem' hsame := by rw [hr, hr, hf.congr mem mem' hsame, hg.congr mem mem' hsame]

theorem rdC_eq_bind (mem : List Host.Cell) (a : Nat) :
    rdC mem a = (rdF mem a).bind fun re => (rdF mem (a + 8)).map (C64.mk re) := by
  unfold rdC
  cases rdF mem a <;> cases rdF mem (a + 8) <;> rfl

theorem collect_cons_eq_bind (read : Nat → Option α) (i : Nat) (is : List Nat) :
    collect read (i :: is) = (read i).bind fun x => (collect read is).map (List.cons x) := by
  simp only [collect]
  cases read i <;> cases collect read is <;> rfl

theorem readsWithin_rdF {a : Nat} (h : ∀ k < 8, P (a + k)) : ReadsWithin P fun mem => rdF mem a :=
  ((readsWithin_readBytes h).map natOfBytes).map (BitVec.ofNat 64)

theorem readsWithin_rdC {a : Nat} (h : ∀ k < 16, P (a + k)) : ReadsWithin P fun mem => rdC mem a := by
  refine (readsWithin_rdF fun k hk => h k (by omega)).pair (readsWithin_rdF (a := a + 8) fun k hk => ?_) C64.mk
    fun mem => rdC_eq_bind mem a
  rw [Nat.add_assoc]
  exact h (8 + k) (by omega)

theorem readsWithin_collect {read : List Host.Cell → Nat → Option α} {is : List Nat}
    (h : ∀ i ∈ is, ReadsWithin P fun mem => read mem i) : ReadsWithin P fun mem => collect (read mem) is := by
  induction is with
  | nil => exact readsWithin_const _
  | cons i is ih =>
    exact (h i (by simp)).pair (ih fun k hk => h k (by simp [hk])) List.cons
      fun mem => collect_cons_eq_bind (read mem) i is

theorem readsWithin_readReals {base n : Nat} (h : ∀ k < 8 * n, P (base + k)) :
    ReadsWithin P fun mem => readReals mem base n := by
  refine readsWithin_collect fun i hi => readsWithin_rdF fun k hk => ?_
  have hi := List.mem_range.mp hi
  rw [Nat.add_assoc]
  exact h _ (by omega)

theorem readsWithin_readComplexes {base n : Nat} (h : ∀ k < 16 * n, P (base + k)) :
    ReadsWithin P fun mem => readComplexes mem base n := by
  refine readsWithin_collect fun i hi => readsWithin_rdC fun k hk => ?_
  have hi := List.mem_range.mp hi
  rw [Nat.add_assoc]
  exact h _ (by omega)

theorem readsWithin_readPromoted {base n : Nat} (c : Bool) (h : ∀ k < n * (if c then 16 else 8), P (base + k)) :
    ReadsWithin P fun mem => readPromoted mem base n c := by
  cases c
  · exact (readsWithin_readReals fun k hk => h k (by simp; omega)).map _
  · exact readsWithin_readComplexes fun k hk => h k (by simp; omega)

end Readers

/-! ## The sources of each data command -/

/-- An offset of one of the source arrays of a data command. -/
def InSources (j : Job) (a : Nat) : Prop := ∃ src ∈ j.srcs, src.base ≤ a ∧ a < src.base + src.bytes

/-- A data command whose checks pass reads its source arrays alone. -/
def ReadsSources (j : Job) : Prop := ∀ n, j.error n = none → ReadsWithin (InSources j) j.output

theorem inSources_of_lt {j : Job} {src : ArrayRef} (hsrc : src ∈ j.srcs) {k : Nat} (hk : k < src.bytes) :
    InSources j (src.base + k) := ⟨src, hsrc, by omega, by omega⟩

theorem fftJob_reads (c : Bool) (dst src len : Word) (s : State) : ReadsSources (fftJob c dst src len s) := by
  intro n _
  exact (readsWithin_readPromoted c fun k hk => inSources_of_lt (src := arrayRef 2 src len.toNat c) (by simp [fftJob]) hk).map _

theorem ifftJob_reads (r : Bool) (dst src len : Word) (s : State) : ReadsSources (ifftJob r dst src len s) := by
  intro n _
  refine (readsWithin_readComplexes fun k hk => ?_).map _
  exact inSources_of_lt (src := arrayRef 2 src len.toNat true) (by simp [ifftJob])
    (by simp [arrayRef, ArrayRef.bytes]; omega)

/-- The frames of an STFT lie within its samples (R148). -/
theorem stftFrame_inside {len n step i k : Nat} (hi : i < stftFrames len n step) (hk : k < n) : i * step + k < len := by
  unfold stftFrames at hi
  have hle := Nat.div_mul_le_self (len - n) step
  have hnext : (i + 1) * step ≤ (len - n) / step * step := Nat.mul_le_mul_right step hi
  have hpos : 0 < len - n := by
    rcases Nat.eq_zero_or_pos (len - n) with hzero | hpos
    · simp [hzero] at hi
    · exact hpos
  rw [Nat.add_mul] at hnext
  omega

theorem stftJob_reads (dst src len : Word) (s : State) : ReadsSources (stftJob dst src len s) := by
  intro n _
  refine (readsWithin_collect fun i hi => readsWithin_collect fun k hk => (readsWithin_rdF fun b hb => ?_).map _).map _
  have hin := stftFrame_inside (List.mem_range.mp hi) (List.mem_range.mp hk)
  rw [Nat.add_assoc]
  exact inSources_of_lt (src := arrayRef 2 src len.toNat false) (by simp [stftJob])
    (by simp [arrayRef, ArrayRef.bytes]; omega)

/-- Complex value `k` of frame `i` is one of `frames * n` values (R151). -/
theorem frame_index_lt {frames n i k : Nat} (hi : i < frames) (hk : k < n) : i * n + k < frames * n := by
  have := Nat.mul_le_mul_right n (Nat.succ_le_of_lt hi)
  rw [Nat.succ_mul] at this
  omega

theorem istftJob_reads (dst src frames bins outlen : Word) (s : State) :
    ReadsSources (istftJob dst src frames bins outlen s) := by
  intro n hpass
  have hbins : bins.toNat = s.cfgWindow.toNat := by
    obtain ⟨hdims, -⟩ := job_error_eq_none.mp hpass
    simpa using hdims (require (decide (bins.toNat = s.cfgWindow.toNat)) ⟨.dimensionMismatch, 1⟩) (by simp [istftJob])
  refine (readsWithin_collect fun i hi => readsWithin_collect fun k hk => readsWithin_rdC fun b hb => ?_).map _
  have hin := frame_index_lt (List.mem_range.mp hi) (List.mem_range.mp hk)
  rw [Nat.add_assoc, Nat.add_assoc]
  exact inSources_of_lt (src := arrayRef 2 src (frames.toNat * bins.toNat) true) (by simp [istftJob])
    (by simp [arrayRef, ArrayRef.bytes, hbins]; omega)

theorem firgenJob_reads (k : F64 → F64 → Int → F64) (dst : Word) (s : State) : ReadsSources (firgenJob k dst s) :=
  fun _ _ => readsWithin_const _

/-- X and F of a convolution, read as promoted elements. -/
theorem convSources_reads {j : Job} {xc fc : Bool} {x n f m : Word} (h : j.srcs = convSources xc fc x n f m) :
    ReadsWithin (InSources j) (fun mem => readPromoted mem x.toNat n.toNat xc) ∧
    ReadsWithin (InSources j) (fun mem => readPromoted mem f.toNat m.toNat fc) := by
  constructor
  · exact readsWithin_readPromoted xc fun k hk =>
      inSources_of_lt (src := arrayRef 2 x n.toNat xc) (by simp [h, convSources]) hk
  · exact readsWithin_readPromoted fc fun k hk =>
      inSources_of_lt (src := arrayRef 4 f m.toNat fc) (by simp [h, convSources]) hk

theorem convOutput_eq_bind_complex {xc fc : Bool} (re : Bool) (x n f m : Nat) (hc : convCplx xc fc = true)
    (mem : List Host.Cell) : convOutput xc fc re x n f m mem = (readPromoted mem x n xc).bind fun xs =>
      (readPromoted mem f m fc).map fun fs => outputParts re (convComplex xs fs) := by
  rw [convOutput, if_pos hc]
  cases readPromoted mem x n xc <;> cases readPromoted mem f m fc <;> rfl

theorem convOutput_eq_bind_real {xc fc : Bool} (re : Bool) (x n f m : Nat) (hc : convCplx xc fc = false)
    (mem : List Host.Cell) : convOutput xc fc re x n f m mem = (readReals mem x n).bind fun xs =>
      (readReals mem f m).map fun fs => convReal xs fs := by
  rw [convOutput, hc, if_neg (by decide)]
  cases readReals mem x n <;> cases readReals mem f m <;> rfl

theorem convFastOutput_eq_bind (g p : Nat) (xc fc re : Bool) (x n f m : Nat) (mem : List Host.Cell) :
    convFastOutput g p xc fc re x n f m mem = (readPromoted mem x n xc).bind fun xs =>
      (readPromoted mem f m fc).map fun fs =>
        outputParts (!convDstCplx xc fc re) (convOverlapAdd g (Nat.log2 p) xs fs) := by
  rw [convFastOutput]
  cases readPromoted mem x n xc <;> cases readPromoted mem f m fc <;> rfl

theorem convJob_reads (xc fc re : Bool) (dst x n f m : Word) : ReadsSources (convJob xc fc re dst x n f m) := by
  intro _ _
  obtain ⟨hx, hf⟩ := convSources_reads (j := convJob xc fc re dst x n f m) (xc := xc) (fc := fc) rfl
  cases hc : convCplx xc fc
  · obtain ⟨rfl, rfl⟩ : xc = false ∧ fc = false := by simpa [convCplx] using hc
    refine ReadsWithin.pair (f := fun mem => readReals mem x.toNat n.toNat)
      (g := fun mem => readReals mem f.toNat m.toNat) (readsWithin_readReals fun k hk => ?_)
      (readsWithin_readReals fun k hk => ?_) convReal (convOutput_eq_bind_real re _ _ _ _ hc)
    · exact inSources_of_lt (src := arrayRef 2 x n.toNat false) (by simp [convJob, convSources])
        (by simp [arrayRef, ArrayRef.bytes]; omega)
    · exact inSources_of_lt (src := arrayRef 4 f m.toNat false) (by simp [convJob, convSources])
        (by simp [arrayRef, ArrayRef.bytes]; omega)
  · exact hx.pair hf _ (convOutput_eq_bind_complex re _ _ _ _ hc)

theorem convFastJob_reads (xc fc re : Bool) (dst x n f m : Word) (s : State) :
    ReadsSources (convFastJob xc fc re dst x n f m s) := by
  intro _ _
  obtain ⟨hx, hf⟩ := convSources_reads (j := convFastJob xc fc re dst x n f m s) (xc := xc) (fc := fc) rfl
  exact hx.pair hf _ (convFastOutput_eq_bind _ _ xc fc re _ _ _ _)

/-- The data command of a term reads its source arrays alone. -/
theorem jobOf_reads {i : Instr} {s : State} {j : Job} (h : jobOf i s = some j) : ReadsSources j := by
  cases i <;> cases h
  · exact stftJob_reads _ _ _ _
  · exact istftJob_reads _ _ _ _ _ _
  · exact fftJob_reads _ _ _ _ _
  · exact ifftJob_reads _ _ _ _ _
  · exact firgenJob_reads _ _ _
  · exact firgenJob_reads _ _ _
  · exact convJob_reads _ _ _ _ _ _ _ _
  · exact convFastJob_reads _ _ _ _ _ _ _ _ _

/-! ## A data command as its job -/

/-- A data command that exists on the engine is its job (R88 (5), R206). -/
theorem exec_of_jobOf {i : Instr} {s : State} {j : Job} (h : jobOf i s = some j)
    (havail : Available s.params.hasFastConv i) : exec i s = runJob j s := by
  cases i <;> cases h
  case convFast => exact if_pos havail
  all_goals rfl

/-- A term without a job is END, NOP or SETCFG. -/
theorem jobOf_eq_none {i : Instr} {s : State} (h : jobOf i s = none) :
    i = .endList ∨ i = .nop ∨ ∃ r lo hi, i = .setcfg r lo hi := by
  cases i with
  | endList => exact .inl rfl
  | nop => exact .inr (.inl rfl)
  | setcfg r lo hi => exact .inr (.inr ⟨r, lo, hi, rfl⟩)
  | _ => cases h

/-- What a descriptor decodes to exists on the engine (R88 (5)). -/
theorem available_of_decodeBytes {hasFast : Bool} {bs : List Byte} {i : Instr} (h : decodeBytes hasFast bs = .ok i) :
    Available hasFast i := by
  unfold decodeBytes at h
  split at h
  · exact (Claims.decodedDescriptorIsEncoding hasFast _ i h).2.2
  · cases h

/-- The operands and the configuration of a command are all that its job takes from the state (R104). -/
theorem jobOf_congr (i : Instr) {s t : State} (hparams : t.params = s.params) (hwindow : t.cfgWindow = s.cfgWindow)
    (hstep : t.cfgStep = s.cfgStep) (hfir : t.cfgFirSize = s.cfgFirSize) (hfft : t.cfgConvFft = s.cfgConvFft)
    (hcutoff : t.cutoff = s.cutoff) (hfs : t.fs = s.fs) : jobOf i t = jobOf i s := by
  cases i <;> simp only [jobOf, stftJob, istftJob, fftJob, ifftJob, firgenJob, convFastJob, frameChecks, hparams,
    hwindow, hstep, hfir, hfft, hcutoff, hfs]

theorem runJob_stops {j : Job} {s : State} (h : ReadsSources j) :
    (∃ t, runJob j s = .next t) ∨ (runJob j s = .fault .unwrittenByte ∧ ∃ src a, src ∈ j.srcs ∧
      src.base ≤ a ∧ a < src.base + src.bytes ∧ readByte s.mem a = none) := by
  cases herr : j.error s.params.dmemSize with
  | some e => exact .inl ⟨_, runJob_of_error herr⟩
  | none =>
    cases hout : j.output s.mem with
    | some xs => exact .inl ⟨_, runJob_of_pass herr hout⟩
    | none =>
      obtain ⟨a, ⟨src, hsrc, hlo, hhi⟩, hbyte⟩ := (h _ herr).unwritten s.mem hout
      refine .inr ⟨?_, src, a, hsrc, hlo, hhi, hbyte⟩
      simp only [runJob, herr, hout]

/-! ## A cut command, run again -/

theorem wrFs_eq_writeBytes (mem : List Host.Cell) (a : Nat) (xs : List F64) :
    wrFs mem a xs = writeBytes mem a (xs.flatMap fun x => bytesOfNat x.toNat 8) := by
  induction xs generalizing mem a with
  | nil => rfl
  | cons x xs ih =>
    have happend : ∀ (bs cs : List Byte) (mem : List Host.Cell) (a : Nat),
        writeBytes mem a (bs ++ cs) = writeBytes (writeBytes mem a bs) (a + bs.length) cs := by
      intro bs
      induction bs with
      | nil => intro cs mem a; rfl
      | cons b bs ihb =>
        intro cs mem a
        rw [List.cons_append, writeBytes, writeBytes, ihb, List.length_cons, Nat.add_assoc, Nat.add_comm 1]
    rw [List.flatMap_cons, happend, bytesOfNat_length, wrFs, ih, wrF, memWrite]

theorem flatMap_bytes_length (xs : List F64) : (xs.flatMap fun x => bytesOfNat x.toNat 8).length = 8 * xs.length := by
  induction xs with
  | nil => rfl
  | cons x xs ih => rw [List.flatMap_cons, List.length_append, ih, bytesOfNat_length, List.length_cons]; omega

/-- Inside the array that was written, DMEM holds the array whatever was there before. -/
theorem readByte_wrFs_inside (mem mem' : List Host.Cell) {a x : Nat} {xs : List F64}
    (h : a ≤ x ∧ x < a + 8 * xs.length) : readByte (wrFs mem' a xs) x = readByte (wrFs mem a xs) x := by
  rw [wrFs_eq_writeBytes, wrFs_eq_writeBytes, readByte_writeBytes, readByte_writeBytes, flatMap_bytes_length, if_pos h,
    if_pos h]

/-- The destination of an accepted data command meets none of its sources (R67). -/
theorem outside_of_inSources {j : Job} {n a : Nat} (hpass : j.error n = none) (ha : InSources j a) :
    a < j.dst.base ∨ j.dst.base + j.dst.bytes ≤ a := by
  obtain ⟨src, hsrc, hlo, hhi⟩ := ha
  obtain ⟨-, -, -, hover⟩ := job_error_eq_none.mp hpass
  have hapart := overlapError_eq_none.mp (hover src hsrc)
  simp only [overlaps, decide_eq_false_iff_not] at hapart
  omega

/-- A data command cut in its middle leaves its destination unspecified (R214). -/
theorem cutCommand_of_pass {i : Instr} {s : State} {j : Job} (done : Bool) (hj : jobOf i s = some j)
    (hpass : j.error s.params.dmemSize = none) :
    cutCommand i done s = endAborted { s with mem := scramble s.draws s.mem j.dst.base j.dst.bytes } := by
  simp only [cutCommand, hj, hpass]

/-- What a start request keeps (R101). -/
theorem startRequest_keeps (s : State) : (startRequest s).params = s.params ∧ (startRequest s).mem = s.mem ∧
    (startRequest s).cpc = s.cpc ∧ SameConfig s (startRequest s) := by
  unfold startRequest
  split
  · exact ⟨rfl, rfl, rfl, rfl, rfl, rfl, rfl, rfl, rfl⟩
  · exact ⟨rfl, rfl, rfl, rfl, rfl, rfl, rfl, rfl, rfl⟩

/-! ## Soft reset -/

theorem softReset_mem_of_busy {s : State} (h : s.busy = true) :
    (softReset s).mem = stoppedMem (Config.abortPoint s.draws) (nextDraw s) := by
  rw [softReset, if_pos h]; rfl

theorem softReset_of_idle {s : State} (h : s.busy = false) : softReset s = resetRegisters s := by
  rw [softReset, h]; rfl

/-- Where no data command with passing checks is in progress, a soft reset keeps DMEM whole (R241). -/
theorem softReset_mem_eq {s : State}
    (h : ∀ j, jobInProgress (nextDraw s) = some j → j.error s.params.dmemSize ≠ none) : (softReset s).mem = s.mem := by
  cases hbusy : s.busy
  · rw [softReset_of_idle hbusy]; rfl
  · rw [softReset_mem_of_busy hbusy]
    rcases stoppedMem_cases (Config.abortPoint s.draws) (nextDraw s) with hmem | ⟨j, hj, hpass, -⟩
    · exact hmem
    · exact absurd hpass (h j hj)

theorem jobInProgress_of_beyond {s : State} (h : s.params.dmemSize < s.cpc.toNat + 32) : jobInProgress s = none :=
  if_pos h

/-! ## Abort -/

theorem fetch_eq_words {s : State} {bs : List Byte} (h : fetch s = .words bs) :
    s.cpc.toNat + 32 ≤ s.params.dmemSize ∧ readBytes s.mem s.cpc.toNat 32 = some bs := by
  unfold fetch at h
  split at h
  · cases h
  · split at h
    · next hbytes => cases h; exact ⟨by omega, hbytes⟩
    · cases h

/-- An interruption in the middle of the command at CPC: the error of the fetch or of the decoder, or a cut of the
command that the round of the run loop would have executed (R214). -/
theorem interruptAt_cut_cases {done : Bool} {u t : State} (h : interruptAt (.cut done) u = .next t) :
    (∃ e, runCommand u = .next (raise e u) ∧ t = raise e u) ∨
    ∃ i, commandAt u = some i ∧ Available u.params.hasFastConv i ∧ runCommand u = exec i u ∧
      t = cutCommand i done u := by
  rw [interruptAt] at h
  split at h
  · next hf =>
    cases h
    exact .inl ⟨fetchErrorReport, by simp only [runCommand, hf], rfl⟩
  · cases h
  · next bs hf =>
    obtain ⟨hfit, hbytes⟩ := fetch_eq_words hf
    split at h
    · next e he =>
      cases h
      exact .inl ⟨illegalReport e, by simp only [runCommand, hf, he], rfl⟩
    · next i hi =>
      cases h
      refine .inr ⟨i, ?_, available_of_decodeBytes hi, runCommand_of_decodes hfit hbytes hi, rfl⟩
      simp only [commandAt, hbytes, hi, Option.bind_some, Except.toOption]

end Sys2Proof.Machine

namespace Sys2Proof.Claims

open Sys2Proof.Machine

/-- Settles O12: a command without sources answers always, a data command reads its sources alone. -/
theorem commandsStopOnlyOnUnwrittenSources : Obligations.CommandsStopOnlyOnUnwrittenSources := by
  intro i s
  cases hj : jobOf i s with
  | none =>
    rcases jobOf_eq_none hj with rfl | rfl | ⟨r, lo, hi, rfl⟩
    · exact .inl ⟨_, rfl⟩
    · exact .inl ⟨_, rfl⟩
    · exact .inl ⟨_, rfl⟩
  | some j =>
    by_cases havail : Available s.params.hasFastConv i
    · rw [exec_of_jobOf hj havail]
      refine (runJob_stops (jobOf_reads hj)).imp_right fun ⟨hfault, src, a, hsrc, hread⟩ => ?_
      exact ⟨hfault, j, src, a, rfl, hsrc, hread⟩
    · cases i with
      | convFast xc fc re dst x n f m => exact .inl ⟨_, if_neg havail⟩
      | _ => exact absurd trivial havail

/-- Settles O53: the second execution reads the same sources, which the cut left alone, and fills the destination
that the cut left unspecified. -/
theorem abortedCommandReruns : Obligations.AbortedCommandReruns := by
  intro i s t j done hj havail hpass hexec
  have hcut := cutCommand_of_pass done hj hpass
  obtain ⟨hparams, hmem, hcpc, hw, hst, hfir, hfft, hcut', hfs⟩ := startRequest_keeps (cutCommand i done s)
  generalize startRequest (cutCommand i done s) = u at *
  rw [hcut] at hparams hmem hcpc hw hst hfir hfft hcut' hfs
  have hju : jobOf i u = some j := (jobOf_congr i hparams hw hst hfir hfft hcut' hfs).trans hj
  rw [exec_of_jobOf hj havail] at hexec
  rcases runJob_cases hexec with ⟨e, herr, -⟩ | ⟨-, xs, hxs, rfl⟩
  · rw [hpass] at herr; cases herr
  have hlen : 8 * xs.length = j.dst.bytes := jobOf_fills hj _ _ _ hpass hxs
  have houtside : ∀ a, a < j.dst.base ∨ j.dst.base + j.dst.bytes ≤ a → readByte u.mem a = readByte s.mem a := by
    intro a ha
    rw [hmem]
    exact readByte_scramble_outside _ _ ha
  have hxs' : j.output u.mem = some xs := by
    rw [← hxs]
    exact (jobOf_reads hj _ hpass).congr _ _ fun a ha => houtside a (outside_of_inSources hpass ha)
  have hpass' : j.error u.params.dmemSize = none := by rw [hparams]; exact hpass
  refine ⟨j.finish xs u, ?_, fun a => ?_, rfl, ?_⟩
  · rw [exec_of_jobOf hju (by rw [hparams]; exact havail), runJob_of_pass hpass' hxs']
  · by_cases ha : j.dst.base ≤ a ∧ a < j.dst.base + 8 * xs.length
    · exact readByte_wrFs_inside s.mem u.mem ha
    · rw [finish_readByte_outside _ _ _ (by omega), finish_readByte_outside _ _ _ (by omega), houtside a (by omega)]
  · rw [finish_cpc, finish_cpc, hcpc]; rfl

/-- Settles O54: the descriptor is the one the engine holds, and only the job it decodes to can be cut. -/
theorem softResetResetsRegisters : Obligations.SoftResetResetsRegisters := by
  intro s
  refine ⟨fun v hv => ?_, softReset_eq s, fun hidle => ?_, fun hbusy => ?_, fun hbeyond => ?_,
    heldDescriptor (nextDraw s), by simp, fun k b hk hb => heldDescriptor_of_written (s := nextDraw s) hk hb, ?_⟩
  · rw [writeRegister_ctrl, writeCtrl, if_pos hv]
  · rw [softReset_of_idle hidle]
    exact ⟨rfl, rfl⟩
  · rw [softReset, if_pos hbusy]; rfl
  · refine softReset_mem_eq fun j hj => ?_
    rw [jobInProgress_of_beyond (s := nextDraw s) hbeyond] at hj
    cases hj
  · have hheld : ∀ j, jobInProgress (nextDraw s) = some j →
        (decodeBytes s.params.hasFastConv (heldDescriptor (nextDraw s))).toOption.bind (jobOf · s) = some j := by
      intro j hj
      simpa using (jobInProgress_eq_some hj).2
    split
    · next j hj =>
      have honly : ∀ j', jobInProgress (nextDraw s) = some j' → j' = j := fun j' hj' =>
        Option.some.inj ((hheld j' hj').symm.trans hj)
      refine ⟨fun a ha => softReset_readByte_outside s fun j' hj' => honly j' hj' ▸ ha, fun herr => ?_⟩
      exact softReset_mem_eq fun j' hj' => honly j' hj' ▸ herr
    · next hnone =>
      refine softReset_mem_eq fun j' hj' => ?_
      cases hnone.symm.trans (hheld j' hj')

/-- The third and the fourth outcome of R214, for an interruption in the middle of the command at CPC. -/
theorem abortOutcomes_cut {s t : State} {done : Bool} (h : interruptAt (.cut done) (nextDraw s) = .next t) :
    (∃ code info, runCommand (nextDraw s) = .next t ∧ t = errorEntered (nextDraw s) code info) ∨
    ∃ i w, commandAt s = some i ∧ t = abortedFrom w ∧ w.cpc = s.cpc ∧ w.cmdCount = s.cmdCount ∧
      w.result = s.result ∧ w.errCode = s.errCode ∧ w.errInfo = s.errInfo ∧ w.status = s.status ∧
      match jobOf i s with
      | some j => SameConfig s w ∧ SameOutside s.mem w.mem j.dst.base j.dst.bytes
      | none => w = nextDraw s ∨ ∃ r lo hi, i = .setcfg r lo hi ∧ w = writeCfg r lo hi (nextDraw s) := by
  rcases interruptAt_cut_cases h with ⟨e, hrun, rfl⟩ | ⟨i, hat, havail, hrun, rfl⟩
  · exact .inl ⟨_, _, hrun, raise_eq e _⟩
  cases hj : jobOf i s with
  | some j =>
    have hju : jobOf i (nextDraw s) = some j := (jobOf_nextDraw i s).trans hj
    cases herr : j.error (nextDraw s).params.dmemSize with
    | some e =>
      have hcut : cutCommand i done (nextDraw s) = raise e (nextDraw s) := by
        simp only [cutCommand, hju, herr]
      rw [hcut, hrun, exec_of_jobOf hju havail, runJob_of_error herr]
      exact .inl ⟨_, _, rfl, raise_eq e _⟩
    | none =>
      refine .inr ⟨i, _, hat, (cutCommand_of_pass done hju herr).trans (endAborted_eq _), rfl, rfl, rfl, rfl, rfl, rfl, ?_⟩
      rw [hj]
      exact ⟨⟨rfl, rfl, rfl, rfl, rfl, rfl⟩, fun a ha => readByte_scramble_outside _ _ ha⟩
  | none =>
    rcases jobOf_eq_none hj with rfl | rfl | ⟨r, lo, hi, rfl⟩
    · exact .inr ⟨_, nextDraw s, hat, rfl, rfl, rfl, rfl, rfl, rfl, rfl, .inl rfl⟩
    · exact .inr ⟨_, nextDraw s, hat, rfl, rfl, rfl, rfl, rfl, rfl, rfl, .inl rfl⟩
    · cases done
      · exact .inr ⟨_, nextDraw s, hat, rfl, rfl, rfl, rfl, rfl, rfl, rfl, .inl rfl⟩
      · exact .inr ⟨_, writeCfg r lo hi (nextDraw s), hat, rfl, by simp, by simp, by simp, by simp, by simp, by simp,
          .inr ⟨r, lo, hi, rfl, rfl⟩⟩

/-- Settles O52, along the three points of an interruption. -/
theorem abortOutcomes : Obligations.AbortOutcomes := by
  intro s t hbusy hpending hturns hstep
  rw [step_of_turns_nil hturns, engineTurn, if_pos hbusy, if_pos hpending, abortTurn] at hstep
  cases hp : Config.abortPoint s.draws with
  | before =>
    rw [hp] at hstep
    cases hstep
    exact .inl rfl
  | after =>
    rw [hp, interruptAt] at hstep
    split at hstep
    · next v hv =>
      cases hstep
      exact .inr (.inl ⟨v, hv, fun hb => if_pos hb, fun hb => by rw [hb]; rfl⟩)
    · cases hstep
    · cases hstep
  | cut done =>
    rw [hp] at hstep
    exact .inr (.inr (abortOutcomes_cut hstep))

end Sys2Proof.Claims
end

section
/-! SUPPORT. The checks of the data commands in their order (spec/60_exceptions.md R205, R206): the proofs of the
obligations O21, O22, O23, O30 and O36. -/

namespace Sys2Proof.Machine

open Sys2Proof.Claims (TakesFirst addressRows Apart PowerOfTwo errorEntered esize)

/-- The first error of the checks `cs`, if there is one, is what `out` answers from `s`. -/
def Decides (out : Result) (s : State) (cs : List (Option ErrorReport)) : Prop :=
  ∀ e, firstError cs = some e → out = .next (raise e s)

section Rows

variable {out : Result} {s : State} {cs : List (Option ErrorReport)} {rows : List (Prop × Word × Word)}

/-- A row of an error table is one check (R205). -/
theorem takesFirst_cons {bad : Prop} {c : Option ErrorReport} (e : ErrorReport) (hbad : bad → c = some e)
    (hgood : ¬bad → c = none) (hrest : Decides out s cs → TakesFirst out s rows) (h : Decides out s (c :: cs)) :
    TakesFirst out s ((bad, e.code.number, e.info) :: rows) := by
  refine ⟨fun hb => ?_, fun hg => hrest fun e' he' => ?_⟩
  · exact h e (by rw [firstError_cons, hbad hb])
  · exact h e' (by rw [firstError_cons, hgood hg]; exact he')

theorem takesFirst_require {bad : Prop} {ok : Bool} (e : ErrorReport) (hok : ok = true ↔ ¬bad)
    (hrest : Decides out s cs → TakesFirst out s rows) (h : Decides out s (require ok e :: cs)) :
    TakesFirst out s ((bad, e.code.number, e.info) :: rows) := by
  refine takesFirst_cons e (fun hb => ?_) (fun hg => require_eq_none.mpr (hok.mpr hg)) hrest h
  rw [require, if_neg (fun hp => hok.mp hp hb)]

/-- The two rows of an array are its check of R66, alignment first. -/
theorem takesFirst_array (a : ArrayRef) {w : Word} {n : Nat} (hw : w = BitVec.ofNat 32 a.word) (hn : a.bytes = n)
    (hrest : Decides out s cs → TakesFirst out s rows) (h : Decides out s (arrayError s.params.dmemSize a :: cs)) :
    TakesFirst out s (addressRows s w a.base n ++ rows) := by
  subst hn
  refine ⟨fun hmis => ?_, fun haligned => ⟨fun hbeyond => ?_, fun hinside => hrest fun e' he' => ?_⟩⟩
  · refine (h ⟨.addressError, BitVec.ofNat 32 (a.word + 256)⟩ ?_).trans ?_
    · rw [firstError_cons, arrayError, if_pos hmis]
    · rw [raise_eq, hw, BitVec.ofNat_add]; rfl
  · refine (h ⟨.addressError, BitVec.ofNat 32 a.word⟩ ?_).trans ?_
    · rw [firstError_cons, arrayError, if_neg haligned, if_pos hbeyond]
    · rw [raise_eq, hw]; rfl
  · refine h e' ?_
    rw [firstError_cons, arrayError, if_neg haligned, if_neg hinside]
    exact he'

theorem overlaps_iff (d a : ArrayRef) : overlaps d a = true ↔ ¬Apart d.base d.bytes a.base a.bytes := by
  simp only [overlaps, decide_eq_true_iff, Apart]
  omega

/-- The row of a destination against one source is its check of R67. -/
theorem takesFirst_overlap (d a : ArrayRef) {info : Word} {n m : Nat} (hinfo : info = BitVec.ofNat 32 (d.word + 256 * a.word))
    (hn : d.bytes = n) (hm : a.bytes = m) (hrest : Decides out s cs → TakesFirst out s rows)
    (h : Decides out s (overlapError d a :: cs)) :
    TakesFirst out s ((¬Apart d.base n a.base m, 0x07, info) :: rows) := by
  subst hn hm hinfo
  refine takesFirst_cons ⟨.overlapError, BitVec.ofNat 32 (d.word + 256 * a.word)⟩ (fun hb => ?_) (fun hg => ?_) hrest h
  · rw [overlapError, if_pos ((overlaps_iff d a).mpr hb)]
  · exact overlapError_eq_none.mpr (by rw [← Bool.not_eq_true, overlaps_iff]; exact hg)

end Rows

/-- The checks of a data command decide what it answers (R204, R206). -/
theorem runJob_decides (j : Job) (s : State) : Decides (runJob j s) s (j.checks s.params.dmemSize) :=
  fun _ he => runJob_of_error he

theorem arrayRef_bytes (word : Nat) (base : Word) (count : Nat) (cplx : Bool) :
    (arrayRef word base count cplx).bytes = esize cplx * count := Nat.mul_comm _ _

theorem bytes_eq_esize (c : Bool) (n : Nat) : n * (if c then 16 else 8) = esize c * n := Nat.mul_comm _ _

/-- The length and window checks: a power of two within two bounds (R140, R147, R184). -/
theorem pow2Check_iff (n lo hi : Nat) :
    (isPow2 n && decide (lo ≤ n ∧ n ≤ hi)) = true ↔ ¬¬(PowerOfTwo n ∧ lo ≤ n ∧ n ≤ hi) := by
  rw [not_not, Bool.and_eq_true, isPow2_iff, decide_eq_true_iff, PowerOfTwo]

theorem lenCheck_iff (p : Params) (n : Nat) :
    (isPow2 n && decide (n ≤ p.nmax)) = true ↔ ¬¬(PowerOfTwo n ∧ n ≤ p.nmax) := by
  rw [not_not, Bool.and_eq_true, isPow2_iff, decide_eq_true_iff, PowerOfTwo]

section Transform

variable {s : State} {dst src len : Word}

/-- The table shared by FFT and IFFT, for either element size of their arrays (R140, R142). -/
theorem transform_takesFirst {j : Job} {dc sc : Bool} (hdims : j.dims = [lenCheck s.params len.toNat])
    (hdst : j.dst = arrayRef 1 dst len.toNat dc) (hsrcs : j.srcs = [arrayRef 2 src len.toNat sc]) :
    TakesFirst (runJob j s) s
      ((¬(PowerOfTwo len.toNat ∧ len.toNat ≤ s.params.nmax), (0x02 : Word), (5 : Word)) ::
        addressRows s 1 dst.toNat (esize dc * len.toNat) ++ addressRows s 2 src.toNat (esize sc * len.toNat) ++
        [(¬Apart dst.toNat (esize dc * len.toNat) src.toNat (esize sc * len.toNat), 0x07, 0x201)]) := by
  have hdecides := runJob_decides j s
  simp only [Job.checks, hdims, hdst, hsrcs, List.map_cons, List.map_nil, List.cons_append, List.nil_append] at hdecides
  simp only [List.append_assoc, List.cons_append]
  refine takesFirst_require (dimensionError 5) (lenCheck_iff _ _) ?_ hdecides
  refine takesFirst_array (arrayRef 1 dst len.toNat dc) rfl (arrayRef_bytes _ _ _ _) ?_
  refine takesFirst_array (arrayRef 2 src len.toNat sc) rfl (arrayRef_bytes _ _ _ _) ?_
  exact takesFirst_overlap (arrayRef 1 dst len.toNat dc) (arrayRef 2 src len.toNat sc) rfl (arrayRef_bytes _ _ _ _)
    (arrayRef_bytes _ _ _ _) fun _ => trivial

end Transform

end Sys2Proof.Machine

namespace Sys2Proof.Claims

open Sys2Proof.Machine

/-- Settles O21: both commands have the table of `transform_takesFirst`. -/
theorem fftErrorsInOrder : Obligations.FftErrorsInOrder :=
  fun _ _ _ _ => ⟨fun _ => transform_takesFirst (dc := true) rfl rfl rfl,
    fun _ => transform_takesFirst (sc := true) rfl rfl rfl⟩

/-- Settles O22, check by check. -/
theorem stftErrorsInOrder : Obligations.StftErrorsInOrder := by
  intro s dst src len
  refine takesFirst_require (dimensionError 1) (pow2Check_iff _ _ _) ?_ (runJob_decides (stftJob dst src len s) s)
  refine takesFirst_require (dimensionError 2) (by rw [decide_eq_true_iff]; omega) ?_
  refine takesFirst_require (dimensionError 3) (by rw [decide_eq_true_iff]; omega) ?_
  refine takesFirst_array (stftJob dst src len s).dst rfl (arrayRef_bytes _ _ _ _) ?_
  refine takesFirst_array (arrayRef 2 src len.toNat false) rfl (arrayRef_bytes _ _ _ _) ?_
  exact takesFirst_overlap (stftJob dst src len s).dst (arrayRef 2 src len.toNat false) rfl (arrayRef_bytes _ _ _ _)
    (arrayRef_bytes _ _ _ _) fun _ => trivial

/-- Settles O23, check by check. -/
theorem istftErrorsInOrder : Obligations.IstftErrorsInOrder := by
  intro s dst src frames bins outlen
  refine takesFirst_require (dimensionError 1) (pow2Check_iff _ _ _) ?_
    (runJob_decides (istftJob dst src frames bins outlen s) s)
  refine takesFirst_require (dimensionError 2) (by rw [decide_eq_true_iff]; omega) ?_
  refine takesFirst_require ⟨.dimensionMismatch, 1⟩ (by rw [decide_eq_true_iff]; omega) ?_
  refine takesFirst_require (dimensionError 6) (by rw [decide_eq_true_iff]; omega) ?_
  refine takesFirst_array (arrayRef 1 dst outlen.toNat false) rfl (arrayRef_bytes _ _ _ _) ?_
  refine takesFirst_array (arrayRef 2 src (frames.toNat * bins.toNat) true) rfl (arrayRef_bytes _ _ _ _) ?_
  exact takesFirst_overlap (arrayRef 1 dst outlen.toNat false) (arrayRef 2 src (frames.toNat * bins.toNat) true) rfl
    (arrayRef_bytes _ _ _ _) (arrayRef_bytes _ _ _ _) fun _ => trivial

/-- Settles O30, check by check, for either kernel. -/
theorem firgenErrorsInOrder : Obligations.FirgenErrorsInOrder := by
  have table : ∀ (kernel : F64 → F64 → Int → F64) (s : State) (dst : Word),
      let M := s.cfgFirSize.toNat
      TakesFirst (runJob (firgenJob kernel dst s) s) s
        ([(M % 2 = 1 ∨ M = 0, 0x02, 4), (isFinite s.cutoff = false ∨ isFinite s.fs = false, 0x03, 1),
          (units s.cutoff ≤ 0, 0x03, 2), (units s.fs ≤ 2 * units s.cutoff, 0x03, 3)] ++
          addressRows s 1 dst.toNat (8 * M)) := by
    intro kernel s dst
    refine takesFirst_require (dimensionError 4) (by rw [decide_eq_true_iff]; omega) ?_
      (runJob_decides (firgenJob kernel dst s) s)
    refine takesFirst_require ⟨.invalidCutoff, 1⟩ (by simp) ?_
    refine takesFirst_require ⟨.invalidCutoff, 2⟩ ?_ ?_
    · rw [exactLt, decide_eq_true_iff, not_le]
      rfl
    refine takesFirst_require ⟨.invalidCutoff, 3⟩ (by rw [decide_eq_true_iff, not_le]) ?_
    exact takesFirst_array (arrayRef 1 dst s.cfgFirSize.toNat false) (rows := []) rfl (arrayRef_bytes _ _ _ _)
      fun _ => trivial
  intro s hp dst
  cases hp
  · exact table lpc s dst
  · exact table hpc s dst

/-- Settles O36: the tables of the two commands differ in the checks of the fast engine. -/
theorem convErrorsInOrder : Obligations.ConvErrorsInOrder := by
  intro s xc fc re dst x n f m P dbytes xbytes fbytes size arrays
  have harrays : ∀ out, Decides out s
      (arrayError s.params.dmemSize (convJob xc fc re dst x n f m).dst ::
        arrayError s.params.dmemSize (arrayRef 2 x n.toNat xc) :: arrayError s.params.dmemSize (arrayRef 4 f m.toNat fc) ::
        overlapError (convJob xc fc re dst x n f m).dst (arrayRef 2 x n.toNat xc) ::
        [overlapError (convJob xc fc re dst x n f m).dst (arrayRef 4 f m.toNat fc)]) →
      TakesFirst out s arrays := by
    intro out
    refine takesFirst_array (convJob xc fc re dst x n f m).dst rfl (arrayRef_bytes _ _ _ _) ?_
    refine takesFirst_array (arrayRef 2 x n.toNat xc) rfl (arrayRef_bytes _ _ _ _) ?_
    refine takesFirst_array (arrayRef 4 f m.toNat fc) rfl (arrayRef_bytes _ _ _ _) ?_
    refine takesFirst_overlap _ (arrayRef 2 x n.toNat xc) rfl (arrayRef_bytes _ _ _ _) (arrayRef_bytes _ _ _ _) ?_
    exact takesFirst_overlap _ (arrayRef 4 f m.toNat fc) rfl (arrayRef_bytes _ _ _ _) (arrayRef_bytes _ _ _ _)
      fun _ => trivial
  constructor
  · refine takesFirst_require (dimensionError 7) (by rw [decide_eq_true_iff]; omega) ?_
      (runJob_decides (convJob xc fc re dst x n f m) s)
    exact takesFirst_require (dimensionError 8) (by rw [decide_eq_true_iff]; omega) (harrays _)
  · refine ⟨fun habsent => ?_, fun hpresent => ?_⟩
    · rw [exec, execConvFast, habsent]; rfl
    · have hfast : s.params.hasFastConv = true := by simpa using hpresent
      rw [exec_of_jobOf (i := .convFast xc fc re dst x n f m) (j := convFastJob xc fc re dst x n f m s) rfl hfast]
      refine takesFirst_require (dimensionError 7) (by rw [decide_eq_true_iff]; omega) ?_ (runJob_decides _ s)
      refine takesFirst_require (dimensionError 8) (by rw [decide_eq_true_iff]; omega) ?_
      refine takesFirst_require (dimensionError 9) (pow2Check_iff _ _ _) ?_
      exact takesFirst_require (dimensionError 10) (by rw [decide_eq_true_iff]; omega) (harrays _)

end Sys2Proof.Claims
end

section
/-! SUPPORT. The accumulations of the datapaths element by element: the direct convolution (spec/43_conv.md R185), the
overlap-add of ISTFT (spec/41_transform.md R151) and of CONV.FAST (R187): the proof of the obligation O37. -/

namespace Sys2Proof.Machine

open Sys2Proof.Claims (fastElement)

/-! ## Loops over places of a list -/

section Loops

variable {α β : Type}

/-- A loop that combines places `at0` to `at0 + n - 1` of its accumulator, each once, with a value of its index. -/
theorem foldl_set_getElem? (zero : α) (g : α → Nat → α) (at0 : Nat) (acc : List α) (p n : Nat) :
    ((List.range n).foldl (fun acc j => acc.set (at0 + j) (g (acc.getD (at0 + j) zero) j)) acc)[p]? =
      acc[p]?.map fun v => if at0 ≤ p ∧ p < at0 + n then g v (p - at0) else v := by
  induction n with
  | zero => simp [show ¬(at0 ≤ p ∧ p < at0) by omega]
  | succ n ih =>
    rw [List.range_succ, List.foldl_append, List.foldl_cons, List.foldl_nil, List.getElem?_set]
    generalize (List.range n).foldl (fun acc j => acc.set (at0 + j) (g (acc.getD (at0 + j) zero) j)) acc = A at ih ⊢
    by_cases hp : at0 + n = p
    · subst hp
      rw [if_pos rfl]
      have hold : A[at0 + n]? = acc[at0 + n]? := by rw [ih]; simp
      have hlen : at0 + n < A.length ↔ at0 + n < acc.length := by
        rw [← not_iff_not, not_lt, not_lt, ← List.getElem?_eq_none_iff, ← List.getElem?_eq_none_iff, hold]
      rw [List.getD_eq_getElem?_getD, hold]
      by_cases hin : at0 + n < acc.length
      · simp [hlen.mpr hin, hin]
      · simp [hlen.not.mpr hin, hin]
    · rw [if_neg hp, ih]
      congr 1
      funext v
      by_cases hin : at0 ≤ p ∧ p < at0 + n
      · rw [if_pos hin, if_pos (by omega)]
      · rw [if_neg hin, if_neg (by omega)]

/-- A loop whose body changes place `p` by a function of that place alone. -/
theorem foldl_getElem? {F : List α → β → List α} {f : α → β → α} {p : Nat}
    (h : ∀ A b, (F A b)[p]? = A[p]?.map (f · b)) (bs : List β) (A : List α) :
    (bs.foldl F A)[p]? = A[p]?.map (bs.foldl f) := by
  induction bs generalizing A with
  | nil => simp
  | cons b bs ih => simp [List.foldl_cons, ih, h, Function.comp_def]

end Loops

/-! ## Direct convolution -/

/-- Element k of the loops of R185: over the input samples in ascending order, those whose kernel reaches k. -/
theorem convAcc_getElem? {α : Type} (add mul : α → α → α) (zero : α) (xs fs : List α) {k : Nat}
    (hk : k < xs.length + fs.length - 1) : (convAcc add mul zero xs fs)[k]? =
      some ((List.range xs.length).foldl (fun acc i =>
        if i ≤ k ∧ k < i + fs.length then add acc (mul (xs.getD i zero) (fs.getD (k - i) zero)) else acc) zero) := by
  rw [convAcc, foldl_getElem? (f := fun acc i =>
    if i ≤ k ∧ k < i + fs.length then add acc (mul (xs.getD i zero) (fs.getD (k - i) zero)) else acc)
    fun A i => foldl_set_getElem? zero (fun v j => add v (mul (xs.getD i zero) (fs.getD j zero))) i A k fs.length]
  simp [hk]

/-! ## Overlap-add -/

/-- One inverse frame adds its real part to each place it covers (R151). -/
theorem overlapAdd_getElem? (acc : List F64) (at0 : Nat) (y : List C64) (p : Nat) :
    (overlapAdd acc at0 y)[p]? =
      acc[p]?.map fun v => if at0 ≤ p ∧ p < at0 + y.length then fadd v (y.getD (p - at0) czero).re else v :=
  foldl_set_getElem? posZero (fun v k => fadd v (y.getD k czero).re) at0 acc p y.length

theorem foldl_overlapAdd_getElem? (at0 : Nat → Nat) (y : Nat → List C64) (p : Nat) (is : List Nat) (acc : List F64) :
    (is.foldl (fun acc i => overlapAdd acc (at0 i) (y i)) acc)[p]? = acc[p]?.map (is.foldl fun v i =>
      if at0 i ≤ p ∧ p < at0 i + (y i).length then fadd v ((y i).getD (p - at0 i) czero).re else v) :=
  foldl_getElem? (fun A i => overlapAdd_getElem? A (at0 i) (y i) p) is acc

/-- Element p of an ISTFT (R151). -/
theorem istftSum_getElem? (g m step outlen : Nat) (spectra : List (List C64)) {p : Nat} (hp : p < outlen) :
    (istftSum g (2 ^ m) step outlen spectra)[p]? =
      some ((List.range spectra.length).foldl (fun acc i =>
        if i * step ≤ p ∧ p < i * step + 2 ^ m then
          fadd acc ((fftCore g m .inv (spectra.getD i [])).getD (p - i * step) czero).re else acc) posZero) := by
  rw [istftSum, Nat.log2_two_pow, foldl_overlapAdd_getElem?]
  simp [hp]

/-- One segment adds its element to each place it covers within the output (R187). -/
theorem segmentAdd_getElem? (acc : List C64) (at0 : Nat) (y : List C64) (p : Nat) :
    (segmentAdd acc at0 y)[p]? =
      acc[p]?.map fun v => if at0 ≤ p ∧ p < at0 + y.length then cadd v (y.getD (p - at0) czero) else v := by
  have hbody : (fun (acc : List C64) n =>
      if at0 + n < acc.length then acc.set (at0 + n) (cadd (acc.getD (at0 + n) czero) (y.getD n czero)) else acc) =
      fun acc n => acc.set (at0 + n) (cadd (acc.getD (at0 + n) czero) (y.getD n czero)) := by
    funext acc n
    split
    · rfl
    · next h => exact (List.set_eq_of_length_le (by omega)).symm
  rw [segmentAdd, hbody]
  exact foldl_set_getElem? czero (fun v n => cadd v (y.getD n czero)) at0 acc p y.length

theorem foldl_segmentAdd_getElem? (at0 : Nat → Nat) (y : Nat → List C64) (p : Nat) (bs : List Nat) (acc : List C64) :
    (bs.foldl (fun acc b => segmentAdd acc (at0 b) (y b)) acc)[p]? = acc[p]?.map (bs.foldl fun v b =>
      if at0 b ≤ p ∧ p < at0 b + (y b).length then cadd v ((y b).getD (p - at0 b) czero) else v) :=
  foldl_getElem? (fun A b => segmentAdd_getElem? A (at0 b) (y b) p) bs acc

theorem getD_map_range {α : Type} (f : Nat → α) (n k : Nat) (zero : α) :
    ((List.range n).map f).getD k zero = if k < n then f k else zero := by
  rw [List.getD_eq_getElem?_getD, List.getElem?_map]
  split
  · next h => rw [List.getElem?_range h]; rfl
  · next h => rw [List.getElem?_eq_none (by simpa using h)]; rfl

/-- Element k of CONV.FAST, on arrays given by their elements (R187). -/
theorem convOverlapAdd_getElem? (g p N M : Nat) (x f : Nat → C64) {k : Nat} (hk : k < N + M - 1) :
    (convOverlapAdd g p ((List.range N).map x) ((List.range M).map f))[k]? = some (fastElement g p x f N M k) := by
  have hfilter : (List.range (2 ^ p)).map (fun j => ((List.range M).map f).getD j czero) =
      (List.range (2 ^ p)).map fun j => if j < M then f j else czero := by
    simp only [getD_map_range]
  have hsegment : ∀ S b, segment ((List.range N).map x) S (2 ^ p) b =
      (List.range (2 ^ p)).map fun n => if n < S ∧ b * S + n < N then x (b * S + n) else czero := by
    intro S b
    simp only [segment, getD_map_range, List.length_map, List.length_range]
    refine List.map_congr_left fun n _ => ?_
    split
    · next h => rw [if_pos h.2]
    · rfl
  simp only [convOverlapAdd, List.length_map, List.length_range]
  rw [foldl_segmentAdd_getElem?, hfilter]
  simp only [hsegment, fftCore_length, fastElement]
  simp [hk]

end Sys2Proof.Machine

namespace Sys2Proof.Claims

open Sys2Proof.Machine

/-- Settles O37. -/
theorem convElementIsAscendingSum : Obligations.ConvElementIsAscendingSum :=
  ⟨fun xs fs _ => convAcc_getElem? fadd fmul posZero xs fs, fun xs fs _ => convAcc_getElem? cadd cmul czero xs fs⟩

end Sys2Proof.Claims
end

section
/-! SUPPORT. A data command whose checks pass and whose sources are written completes with its output (spec/41_transform.md
R140 to R151, spec/42_firgen.md R161 to R167, spec/43_conv.md R181 to R187): the proofs of the obligations O17 to O20, O29
and O33 to O35. -/

namespace Sys2Proof.Machine

open Sys2Proof.Claims (Available Apart Fits PowerOfTwo SameOutside completed element esize fastElement)

/-! ## Arrays -/

section Arrays

variable {s : State}

theorem arrayError_of_fits {a : ArrayRef} {n : Nat} (hn : a.bytes = n) (h : Fits s a.base n) :
    arrayError s.params.dmemSize a = none :=
  arrayError_eq_none.mpr (hn ▸ h)

theorem overlapError_of_apart {d a : ArrayRef} {n m : Nat} (hn : d.bytes = n) (hm : a.bytes = m)
    (h : Apart d.base n a.base m) : overlapError d a = none := by
  subst hn hm
  rw [overlapError_eq_none, ← Bool.not_eq_true, overlaps_iff]
  exact not_not_intro h

/-- A data command with one source is accepted (R206). -/
theorem job_pass_one {j : Job} {src : ArrayRef} {n m : Nat} (hdims : ∀ c ∈ j.dims, c = none) (hsrcs : j.srcs = [src])
    (hn : j.dst.bytes = n) (hm : src.bytes = m) (hdst : Fits s j.dst.base n) (hsrc : Fits s src.base m)
    (hapart : Apart j.dst.base n src.base m) : j.error s.params.dmemSize = none := by
  refine job_error_eq_none.mpr ⟨hdims, arrayError_of_fits hn hdst, ?_, ?_⟩ <;> rw [hsrcs] <;>
    simp only [List.mem_singleton, forall_eq]
  · exact arrayError_of_fits hm hsrc
  · exact overlapError_of_apart hn hm hapart

/-- A data command with two sources is accepted (R206). -/
theorem job_pass_two {j : Job} {src src' : ArrayRef} {n m m' : Nat} (hdims : ∀ c ∈ j.dims, c = none)
    (hsrcs : j.srcs = [src, src']) (hn : j.dst.bytes = n) (hm : src.bytes = m) (hm' : src'.bytes = m')
    (hdst : Fits s j.dst.base n) (hsrc : Fits s src.base m) (hsrc' : Fits s src'.base m')
    (hapart : Apart j.dst.base n src.base m) (hapart' : Apart j.dst.base n src'.base m') :
    j.error s.params.dmemSize = none := by
  refine job_error_eq_none.mpr ⟨hdims, arrayError_of_fits hn hdst, ?_, ?_⟩ <;> rw [hsrcs] <;>
    simp only [List.mem_cons, List.not_mem_nil, or_false, forall_eq_or_imp, forall_eq]
  · exact ⟨arrayError_of_fits hm hsrc, arrayError_of_fits hm' hsrc'⟩
  · exact ⟨overlapError_of_apart hn hm hapart, overlapError_of_apart hn hm' hapart'⟩

/-- An accepted data command with an output completes, and changes no byte outside its destination (R103, R204). -/
theorem exec_completes {i : Instr} {j : Job} {xs : List F64} {n : Nat} {result : Word} (hj : jobOf i s = some j)
    (havail : Available s.params.hasFastConv i) (hpass : j.error s.params.dmemSize = none)
    (hout : j.output s.mem = some xs) (hn : j.dst.bytes = n) (hresult : BitVec.ofNat 32 j.result = result) :
    exec i s = .next (completed s (wrFs s.mem j.dst.base xs) result) ∧
      SameOutside s.mem (wrFs s.mem j.dst.base xs) j.dst.base n := by
  subst hn hresult
  refine ⟨?_, fun a ha => readByte_wrFs_outside s.mem ?_⟩
  · rw [exec_of_jobOf hj havail, runJob_of_pass hpass hout, finish_eq]
  · rw [jobOf_fills hj _ _ _ hpass hout]
    exact ha

end Arrays

/-! ## Elements read and written -/

/-- An array whose elements have values reads as promoted elements (R14, R68, R182). -/
theorem readPromoted_of_elements {mem : List Host.Cell} {base n : Nat} {c : Bool} {z : Nat → C64}
    (h : ∀ k < n, element c mem base k = some (z k)) : readPromoted mem base n c = some ((List.range n).map z) := by
  cases c with
  | true => exact readComplexes_of_forall h
  | false =>
    have hreal : ∀ k < n, rdF mem (base + 8 * k) = some ((rdF mem (base + 8 * k)).getD posZero) := fun k hk => by
      obtain ⟨x, hx, -⟩ := Option.map_eq_some_iff.mp (h k hk)
      rw [hx, Option.getD_some]
    rw [readPromoted, if_neg (by decide), readReals_of_forall hreal, Option.map_some, List.map_map]
    refine congrArg some (List.map_congr_left fun k hk => ?_)
    obtain ⟨x, hx, hz⟩ := Option.map_eq_some_iff.mp (h k (List.mem_range.mp hk))
    rw [Function.comp_apply, hx, Option.getD_some, hz]

theorem rdC_wrFs_parts_getElem? (mem : List Host.Cell) (a : Nat) {xs : List C64} {k : Nat} (hk : k < xs.length) :
    rdC (wrFs mem a (parts xs)) (a + 16 * k) = xs[k]? := by
  rw [rdC_wrFs_parts mem hk, List.getElem?_eq_getElem hk]

theorem rdF_wrFs_getElem? (mem : List Host.Cell) (a : Nat) {xs : List F64} {k : Nat} (hk : k < xs.length) :
    rdF (wrFs mem a xs) (a + 8 * k) = xs[k]? := by
  rw [rdF_wrFs mem hk, List.getElem?_eq_getElem hk]

theorem rdF_wrFs_re (mem : List Host.Cell) (a : Nat) {xs : List C64} {k : Nat} (hk : k < xs.length) :
    rdF (wrFs mem a (outputParts true xs)) (a + 8 * k) = xs[k]?.map C64.re := by
  rw [outputParts, if_pos rfl, rdF_wrFs_getElem? mem a (by simpa using hk), List.getElem?_map]

/-! ## FFT and IFFT -/

theorem lenCheck_of_pow2 {p : Params} {n m : Nat} (hn : n = 2 ^ m) (hmax : 2 ^ m ≤ p.nmax) : lenCheck p n = none := by
  subst hn
  exact require_eq_none.mpr (by simp [isPow2_iff, hmax])

theorem frameChecks_of_legal {s : State} {m : Nat} (hn : s.cfgWindow.toNat = 2 ^ m) (hm : 1 ≤ m)
    (hmax : 2 ^ m ≤ s.params.nmax) (hstep : 1 ≤ s.cfgStep.toNat) : ∀ c ∈ frameChecks s, c = none := by
  have htwo : 2 ^ 1 ≤ 2 ^ m := Nat.pow_le_pow_right (by omega) hm
  have hwindow : (isPow2 s.cfgWindow.toNat && decide (2 ≤ s.cfgWindow.toNat ∧ s.cfgWindow.toNat ≤ s.params.nmax)) = true := by
    rw [pow2Check_iff, not_not, hn]
    exact ⟨⟨m, rfl⟩, by simpa using htwo, hmax⟩
  simp only [frameChecks, List.mem_cons, List.not_mem_nil, or_false, forall_eq_or_imp, forall_eq]
  exact ⟨require_eq_none.mpr hwindow, require_eq_none.mpr (decide_eq_true hstep)⟩

/-! ## STFT -/

theorem flatMap_parts {α : Type} (f : α → List C64) (l : List α) :
    (l.flatMap fun a => parts (f a)) = parts (l.flatMap f) := by
  simp only [parts, List.flatMap_assoc]

/-- Place `i * n + k` of rows of equal length laid one after the other. -/
theorem flatMap_getElem? {α β : Type} {f : α → List β} {n : Nat} (hf : ∀ a, (f a).length = n) (l : List α) (i k : Nat)
    (hk : k < n) : (l.flatMap f)[i * n + k]? = l[i]?.bind fun a => (f a)[k]? := by
  induction l generalizing i with
  | nil => simp
  | cons a l ih =>
    rw [List.flatMap_cons]
    cases i with
    | zero => rw [Nat.zero_mul, Nat.zero_add, List.getElem?_append_left (by rw [hf]; exact hk)]; rfl
    | succ i =>
      rw [List.getElem?_append_right (by rw [hf, Nat.succ_mul]; omega), hf, Nat.succ_mul,
        show i * n + n + k - n = i * n + k by omega, ih, List.getElem?_cons_succ]

theorem flatMap_length_const {α β : Type} {f : α → List β} {n : Nat} (hf : ∀ a, (f a).length = n) (l : List α) :
    (l.flatMap f).length = l.length * n := by
  simp [List.length_flatMap, hf]

end Sys2Proof.Machine

namespace Sys2Proof.Claims

open Sys2Proof.Machine

/-- Settles O17. -/
theorem fftCompletes : Obligations.FftCompletes := by
  intro s c dst src len m z hlen hmax hdst hsrc hapart hread
  have hbytes : (fftJob c dst src len s).dst.bytes = 16 * 2 ^ m := by rw [← hlen]; exact arrayRef_bytes 1 dst _ true
  have hpass : (fftJob c dst src len s).error s.params.dmemSize = none :=
    job_pass_one (src := arrayRef 2 src len.toNat c) (by simp [fftJob, lenCheck_of_pow2 hlen hmax]) rfl hbytes
      (by rw [arrayRef_bytes, hlen]) hdst hsrc hapart
  have hout : (fftJob c dst src len s).output s.mem =
      some (parts (fftCore s.params.log2Nmax m .fwd ((List.range (2 ^ m)).map z))) := by
    simp only [fftJob, hlen, readPromoted_of_elements hread, Option.map_some, Nat.log2_two_pow]
  obtain ⟨hexec, houtside⟩ := exec_completes (i := .fft c dst src len) (result := len) rfl trivial hpass hout hbytes
    (by simp [fftJob])
  exact ⟨_, hexec, fun k hk => rdC_wrFs_parts_getElem? s.mem dst.toNat (by simpa using hk), houtside⟩

/-- Settles O18. -/
theorem ifftCompletes : Obligations.IfftCompletes := by
  intro s re dst src len m z hlen hmax hdst hsrc hapart hread
  have hbytes : (ifftJob re dst src len s).dst.bytes = esize (!re) * 2 ^ m := by
    rw [← hlen]; exact arrayRef_bytes 1 dst _ (!re)
  have hpass : (ifftJob re dst src len s).error s.params.dmemSize = none :=
    job_pass_one (src := arrayRef 2 src len.toNat true) (by simp [ifftJob, lenCheck_of_pow2 hlen hmax]) rfl hbytes
      (by rw [arrayRef_bytes, hlen]; rfl) hdst hsrc hapart
  have hout : (ifftJob re dst src len s).output s.mem =
      some (outputParts re (fftCore s.params.log2Nmax m .inv ((List.range (2 ^ m)).map z))) := by
    simp only [ifftJob, hlen, readComplexes_of_forall hread, Option.map_some, Nat.log2_two_pow]
  obtain ⟨hexec, houtside⟩ := exec_completes (i := .ifft re dst src len) (result := len) rfl trivial hpass hout hbytes
    (by simp [ifftJob])
  refine ⟨_, hexec, fun k hk => ?_, houtside⟩
  cases re
  · exact rdC_wrFs_parts_getElem? s.mem dst.toNat (by simpa using hk)
  · exact rdF_wrFs_re s.mem dst.toNat (by simpa using hk)

/-- Settles O19. -/
theorem stftCompletes : Obligations.StftCompletes := by
  intro s dst src len m F x hn hm hmax hstep hlen hF hdst hsrc hapart hread
  have hframes : stftFrames len.toNat s.cfgWindow.toNat s.cfgStep.toNat = F := by rw [hF, hn]; rfl
  have hbytes : (stftJob dst src len s).dst.bytes = 16 * (F * 2 ^ m) := by
    rw [← hn, ← hframes]; exact arrayRef_bytes 1 dst _ true
  have hdims : ∀ c ∈ (stftJob dst src len s).dims, c = none := by
    intro c hc
    rcases List.mem_append.mp hc with hc | hc
    · exact frameChecks_of_legal hn hm hmax hstep c hc
    · rw [List.mem_singleton.mp hc]
      exact require_eq_none.mpr (decide_eq_true (hn ▸ hlen))
  have hpass : (stftJob dst src len s).error s.params.dmemSize = none :=
    job_pass_one (src := arrayRef 2 src len.toNat false) hdims rfl hbytes (arrayRef_bytes 2 src _ false) hdst hsrc hapart
  have hframe : ∀ i ∈ List.range F, stftFrame s.mem src.toNat (2 ^ m) s.cfgStep.toNat i =
      some ((List.range (2 ^ m)).map fun n => promote (fmul (x (i * s.cfgStep.toNat + n)) (hamW n (2 ^ m)))) := by
    intro i hi
    refine collect_of_forall fun n hk => ?_
    rw [hread i n (List.mem_range.mp hi) (List.mem_range.mp hk), Option.map_some]
  have hout : (stftJob dst src len s).output s.mem = some (parts (((List.range F).map fun i =>
      (List.range (2 ^ m)).map fun n => promote (fmul (x (i * s.cfgStep.toNat + n)) (hamW n (2 ^ m)))).flatMap
        (fftCore s.params.log2Nmax m .fwd))) := by
    simp only [stftJob, hframes]
    rw [hn, collect_of_forall hframe, Option.map_some, Nat.log2_two_pow, flatMap_parts]
  obtain ⟨hexec, houtside⟩ := exec_completes (i := .stft dst src len) (result := BitVec.ofNat 32 F) rfl trivial hpass hout
    hbytes (by simp only [stftJob, hframes])
  refine ⟨_, hexec, fun i k hi hk => ?_, houtside⟩
  have hcore : ∀ a, (fftCore s.params.log2Nmax m .fwd a).length = 2 ^ m := fftCore_length _ _ _
  have hplace : i * 2 ^ m + k < F * 2 ^ m := frame_index_lt hi hk
  refine (rdC_wrFs_parts_getElem? s.mem dst.toNat ?_).trans ?_
  · rw [flatMap_length_const hcore, List.length_map, List.length_range]
    exact hplace
  · rw [flatMap_getElem? hcore _ i k hk, List.getElem?_map, List.getElem?_range hi]
    rfl

/-- Settles O20. -/
theorem istftCompletes : Obligations.IstftCompletes := by
  intro s dst src frames bins outlen m z hn hm hmax hstep hbins hoverrun hdst hsrc hapart hread
  have hbytes : (istftJob dst src frames bins outlen s).dst.bytes = 8 * outlen.toNat := arrayRef_bytes 1 dst _ false
  have hdims : ∀ c ∈ (istftJob dst src frames bins outlen s).dims, c = none := by
    intro c hc
    rcases List.mem_append.mp hc with hc | hc
    · exact frameChecks_of_legal hn hm hmax hstep c hc
    · simp only [List.mem_cons, List.not_mem_nil, or_false] at hc
      rcases hc with rfl | rfl
      · exact require_eq_none.mpr (decide_eq_true (hbins.trans hn.symm))
      · exact require_eq_none.mpr (decide_eq_true (by rw [hn]; exact hoverrun))
  have hpass : (istftJob dst src frames bins outlen s).error s.params.dmemSize = none :=
    job_pass_one (src := arrayRef 2 src (frames.toNat * bins.toNat) true) hdims rfl hbytes
      (by rw [arrayRef_bytes, hbins]; rfl) hdst hsrc hapart
  have hframe : ∀ i ∈ List.range frames.toNat, readComplexes s.mem (src.toNat + 16 * (i * 2 ^ m)) (2 ^ m) =
      some ((List.range (2 ^ m)).map fun k => z (i * 2 ^ m + k)) := by
    intro i hi
    refine readComplexes_of_forall fun k hk => ?_
    rw [Nat.add_assoc, ← Nat.mul_add]
    exact hread _ (frame_index_lt (List.mem_range.mp hi) hk)
  have hout : (istftJob dst src frames bins outlen s).output s.mem =
      some (istftSum s.params.log2Nmax (2 ^ m) s.cfgStep.toNat outlen.toNat ((List.range frames.toNat).map fun i =>
        (List.range (2 ^ m)).map fun k => z (i * 2 ^ m + k))) := by
    simp only [istftJob, hn]
    rw [collect_of_forall hframe, Option.map_some]
  obtain ⟨hexec, houtside⟩ := exec_completes (i := .istft dst src frames bins outlen) (result := outlen) rfl trivial hpass
    hout hbytes (by simp [istftJob])
  refine ⟨_, hexec, fun p hp => (rdF_wrFs_getElem? s.mem dst.toNat (by simpa using hp)).trans ?_, houtside⟩
  rw [istftSum_getElem? _ _ _ _ _ hp, List.length_map, List.length_range]
  refine congrArg some (List.foldl_ext _ _ _ fun acc i hi => ?_)
  rw [getD_map_range, if_pos (List.mem_range.mp hi)]

/-- Settles O29, for either kernel. -/
theorem firgenCompletes : Obligations.FirgenCompletes := by
  intro s hp dst M heven hM hcut hfs hpos hbelow hdst
  have hcompletes : ∀ (i : Instr) (kernel : F64 → F64 → Int → F64), jobOf i s = some (firgenJob kernel dst s) →
      Available s.params.hasFastConv i → ∃ mem', exec i s = .next (completed s mem' s.cfgFirSize) ∧
        (∀ j, j < M → rdF mem' (dst.toNat + 8 * j) = some (firElement (kernel s.cutoff s.fs) M j)) ∧
        SameOutside s.mem mem' dst.toNat (8 * M) := by
    intro i kernel hj havail
    have hdims : ∀ c ∈ (firgenJob kernel dst s).dims, c = none := by
      simp only [firgenJob, firSizeCheck, cutoffChecks, List.mem_cons, List.not_mem_nil, or_false, forall_eq_or_imp,
        forall_eq, require_eq_none, decide_eq_true_iff, exactLt, hcut, hfs, Bool.and_self]
      exact ⟨⟨heven, hM⟩, trivial, hpos, hbelow⟩
    have hbytes : (firgenJob kernel dst s).dst.bytes = 8 * M := arrayRef_bytes 1 dst _ false
    have hpass : (firgenJob kernel dst s).error s.params.dmemSize = none :=
      job_error_eq_none.mpr ⟨hdims, arrayError_of_fits hbytes hdst, by simp [firgenJob], by simp [firgenJob]⟩
    obtain ⟨hexec, houtside⟩ := exec_completes (result := s.cfgFirSize) hj havail hpass rfl hbytes (by simp [firgenJob])
    refine ⟨_, hexec, fun j hjM => ?_, houtside⟩
    refine (rdF_wrFs_getElem? s.mem dst.toNat (by simpa using hjM)).trans ?_
    rw [List.getElem?_map, List.getElem?_range hjM, Option.map_some]
  cases hp
  · obtain ⟨mem', hexec, hread, houtside⟩ := hcompletes (.firgenLp dst) lpc rfl trivial
    refine ⟨mem', hexec, fun j hj => (hread j hj).trans ?_, houtside⟩
    simp only [firElement, lpc, sincArg, Bool.false_eq_true, if_false]
  · obtain ⟨mem', hexec, hread, houtside⟩ := hcompletes (.firgenHp dst) hpc rfl trivial
    refine ⟨mem', hexec, fun j hj => (hread j hj).trans ?_, houtside⟩
    simp only [firElement, hpc, lpc, sincArg, if_true]

/-- The checks N >= 1 and M >= 1 of a convolution (R183). -/
theorem convChecks_of_pos {n m : Nat} (hn : 1 ≤ n) (hm : 1 ≤ m) : ∀ c ∈ convChecks n m, c = none := by
  simp [convChecks, hn, hm]

/-- Settles O33. -/
theorem convRealCompletes : Obligations.ConvRealCompletes := by
  intro s re dst x n f m xs fs L hn hm hdst hx hf hapartX hapartF hreadX hreadF
  have hbytes : (convJob false false re dst x n f m).dst.bytes = 8 * L := arrayRef_bytes 1 dst _ false
  have hpass : (convJob false false re dst x n f m).error s.params.dmemSize = none :=
    job_pass_two (src := arrayRef 2 x n.toNat false) (src' := arrayRef 4 f m.toNat false) (convChecks_of_pos hn hm) rfl
      hbytes (arrayRef_bytes _ _ _ _) (arrayRef_bytes _ _ _ _) hdst hx hf hapartX hapartF
  have hout : (convJob false false re dst x n f m).output s.mem =
      some (convReal ((List.range n.toNat).map xs) ((List.range m.toNat).map fs)) := by
    simp only [convJob, convOutput_eq_bind_real re _ _ _ _ (show convCplx false false = false from rfl),
      readReals_of_forall hreadX, readReals_of_forall hreadF, Option.bind_some, Option.map_some]
  obtain ⟨hexec, houtside⟩ := exec_completes (i := .conv false false re dst x n f m) (result := BitVec.ofNat 32 L) rfl
    trivial hpass hout hbytes rfl
  refine ⟨_, hexec, fun k hk => rdF_wrFs_getElem? s.mem dst.toNat ?_, houtside⟩
  simpa [convReal] using hk

/-- Settles O34. -/
theorem convComplexCompletes : Obligations.ConvComplexCompletes := by
  intro s xc fc re dst x n f m xs fs L hc hn hm hdst hx hf hapartX hapartF hreadX hreadF
  have hbytes : (convJob xc fc re dst x n f m).dst.bytes = esize (!re) * L := by
    refine (arrayRef_bytes 1 dst _ _).trans ?_
    rw [convDstCplx, convCplx, hc, Bool.true_and]
  have hpass : (convJob xc fc re dst x n f m).error s.params.dmemSize = none :=
    job_pass_two (src := arrayRef 2 x n.toNat xc) (src' := arrayRef 4 f m.toNat fc) (convChecks_of_pos hn hm) rfl
      hbytes (arrayRef_bytes _ _ _ _) (arrayRef_bytes _ _ _ _) hdst hx hf hapartX hapartF
  have hout : (convJob xc fc re dst x n f m).output s.mem =
      some (outputParts re (convComplex ((List.range n.toNat).map xs) ((List.range m.toNat).map fs))) := by
    simp only [convJob, convOutput_eq_bind_complex re _ _ _ _ (show convCplx xc fc = true from hc),
      readPromoted_of_elements hreadX, readPromoted_of_elements hreadF, Option.bind_some, Option.map_some]
  obtain ⟨hexec, houtside⟩ := exec_completes (i := .conv xc fc re dst x n f m) (result := BitVec.ofNat 32 L) rfl
    trivial hpass hout hbytes rfl
  have hlen : ∀ k < L, k < (convComplex ((List.range n.toNat).map xs) ((List.range m.toNat).map fs)).length := by
    intro k hk
    simpa [convComplex] using hk
  refine ⟨_, hexec, fun k hk => ?_, houtside⟩
  cases re
  · exact rdC_wrFs_parts_getElem? s.mem dst.toNat (hlen k hk)
  · exact rdF_wrFs_re s.mem dst.toNat (hlen k hk)

/-- Settles O35. -/
theorem convFastCompletes : Obligations.ConvFastCompletes := by
  intro s xc fc re dst x n f m p xs fs L dc hfast hn hm hP hp hmax hmP hdst hx hf hapartX hapartF hreadX hreadF
  have hbytes : (convFastJob xc fc re dst x n f m s).dst.bytes = esize dc * L := arrayRef_bytes 1 dst _ _
  have hdims : ∀ c ∈ (convFastJob xc fc re dst x n f m s).dims, c = none := by
    intro c hc
    rcases List.mem_append.mp hc with hc | hc
    · exact convChecks_of_pos hn hm c hc
    · have htwo : 2 ^ 1 ≤ 2 ^ p := Nat.pow_le_pow_right (by omega) hp
      simp only [fastChecks, List.mem_cons, List.not_mem_nil, or_false] at hc
      rcases hc with rfl | rfl
      · rw [require_eq_none, pow2Check_iff, not_not, hP]
        exact ⟨⟨p, rfl⟩, by simpa using htwo, hmax⟩
      · exact require_eq_none.mpr (decide_eq_true (hP ▸ hmP))
  have hpass : (convFastJob xc fc re dst x n f m s).error s.params.dmemSize = none :=
    job_pass_two (src := arrayRef 2 x n.toNat xc) (src' := arrayRef 4 f m.toNat fc) hdims rfl
      hbytes (arrayRef_bytes _ _ _ _) (arrayRef_bytes _ _ _ _) hdst hx hf hapartX hapartF
  have hout : (convFastJob xc fc re dst x n f m s).output s.mem = some (outputParts (!dc)
      (convOverlapAdd s.params.log2Nmax p ((List.range n.toNat).map xs) ((List.range m.toNat).map fs))) := by
    simp only [convFastJob, convFastOutput_eq_bind, readPromoted_of_elements hreadX, readPromoted_of_elements hreadF,
      Option.bind_some, Option.map_some, hP, Nat.log2_two_pow]
    rfl
  obtain ⟨hexec, houtside⟩ := exec_completes (i := .convFast xc fc re dst x n f m) (result := BitVec.ofNat 32 L) rfl
    hfast hpass hout hbytes rfl
  have hlen : ∀ k < L, k < (convOverlapAdd s.params.log2Nmax p ((List.range n.toNat).map xs)
      ((List.range m.toNat).map fs)).length := by
    intro k hk
    simpa using hk
  refine ⟨_, hexec, fun k hk => ?_, houtside⟩
  have helement := convOverlapAdd_getElem? s.params.log2Nmax p n.toNat m.toNat xs fs hk
  cases dc
  · exact (rdF_wrFs_re s.mem dst.toNat (hlen k hk)).trans (by rw [helement]; rfl)
  · exact (rdC_wrFs_parts_getElem? s.mem dst.toNat (hlen k hk)).trans helement

end Sys2Proof.Claims
end

section
/-! SUPPORT. The stages of the FFT core (spec/41_transform.md R125 to R131): the butterflies of a stage touch disjoint
places, and stage by stage the array holds the transforms of ever longer decimated sequences: the proofs of the
obligations O24 and O25. -/

namespace Sys2Proof.Machine

open Sys2Proof.Claims (fftRec)

/-! ## One butterfly -/

section Butterfly

variable (w : C64) {p q k : Nat} (A : List C64)

theorem butterfly_getD_other (hp : k ≠ p) (hq : k ≠ q) : (butterfly w p q A).getD k czero = A.getD k czero := by
  simp [butterfly, List.getD_eq_getElem?_getD, hp.symm, hq.symm]

theorem butterfly_getD_first (hpq : p ≠ q) (hp : p < A.length) :
    (butterfly w p q A).getD p czero = cadd (A.getD p czero) (cmul w (A.getD q czero)) := by
  simp [butterfly, List.getD_eq_getElem?_getD, hpq.symm, hp]

theorem butterfly_getD_second (hq : q < A.length) :
    (butterfly w p q A).getD q czero = csub (A.getD p czero) (cmul w (A.getD q czero)) := by
  simp [butterfly, List.getD_eq_getElem?_getD, hq]

/-- Butterflies on disjoint places commute: neither reads what the other writes (R131). -/
theorem butterfly_comm (w' : C64) {p' q' : Nat} (hpp : p ≠ p') (hpq : p ≠ q') (hqp : q ≠ p') (hqq : q ≠ q') :
    butterfly w p q (butterfly w' p' q' A) = butterfly w' p' q' (butterfly w p q A) := by
  have hread : ∀ (u : C64) {a b c : Nat}, c ≠ a → c ≠ b → (butterfly u a b A).getD c czero = A.getD c czero :=
    fun u _ _ _ h1 h2 => butterfly_getD_other u A h1 h2
  unfold butterfly at hread ⊢
  simp only [hread w' hpp hpq, hread w' hqp hqq, hread w hpp.symm hqp.symm, hread w hpq.symm hqq.symm]
  rw [List.set_comm _ _ hpq.symm, List.set_comm _ _ hqq.symm, List.set_comm _ _ hpp.symm, List.set_comm _ _ hqp.symm]

end Butterfly

/-! ## The places of a stage -/

theorem mem_stagePairs {L s : Nat} {x : Nat × Nat} :
    x ∈ stagePairs L s ↔ ∃ b < L / 2 ^ s, ∃ j < 2 ^ (s - 1), x = (b * 2 ^ s, j) := by
  simp only [stagePairs, List.mem_flatMap, List.mem_map, List.mem_range, eq_comm]

/-- A place is in one block, at one offset. -/
theorem block_unique {D b b' r r' : Nat} (hr : r < D) (hr' : r' < D) (h : b * D + r = b' * D + r') :
    b = b' ∧ r = r' := by
  have hD : 0 < D := by omega
  have hdiv := congrArg (· / D) h
  have hmod := congrArg (· % D) h
  simp only [Nat.mul_comm _ D, Nat.mul_add_div hD, Nat.mul_add_mod, Nat.div_eq_of_lt hr, Nat.div_eq_of_lt hr',
    Nat.mod_eq_of_lt hr, Nat.mod_eq_of_lt hr', Nat.add_zero] at hdiv hmod
  exact ⟨hdiv, hmod⟩

theorem two_pow_half {s : Nat} (hs : 1 ≤ s) : 2 ^ s = 2 ^ (s - 1) + 2 ^ (s - 1) := by
  obtain ⟨t, rfl⟩ := Nat.exists_eq_add_of_le' hs
  rw [Nat.add_sub_cancel, pow_succ]
  omega

/-- Two butterflies of a stage that share a place are the same (R131). -/
theorem stagePairs_disjoint {L s : Nat} (hs : 1 ≤ s) {x y : Nat × Nat} (hx : x ∈ stagePairs L s)
    (hy : y ∈ stagePairs L s) (hxy : x ≠ y) :
    x.1 + x.2 ≠ y.1 + y.2 ∧ x.1 + x.2 ≠ y.1 + y.2 + 2 ^ (s - 1) ∧ x.1 + x.2 + 2 ^ (s - 1) ≠ y.1 + y.2 := by
  obtain ⟨b, -, j, hj, rfl⟩ := mem_stagePairs.mp hx
  obtain ⟨b', -, j', hj', rfl⟩ := mem_stagePairs.mp hy
  have htwo := two_pow_half hs
  refine ⟨fun h => ?_, fun h => ?_, fun h => ?_⟩
  · obtain ⟨rfl, rfl⟩ := block_unique (by omega) (by omega) h
    exact hxy rfl
  · rw [Nat.add_assoc (b' * 2 ^ s)] at h
    obtain ⟨-, hsame⟩ := block_unique (by omega) (by omega) h
    omega
  · rw [Nat.add_assoc (b * 2 ^ s)] at h
    obtain ⟨-, hsame⟩ := block_unique (by omega) (by omega) h
    omega

theorem stageButterfly_comm (g : Nat) (dir : Dir) {L s : Nat} (hs : 1 ≤ s) {x y : Nat × Nat} (hx : x ∈ stagePairs L s)
    (hy : y ∈ stagePairs L s) (A : List C64) :
    stageButterfly g dir s (stageButterfly g dir s A x) y = stageButterfly g dir s (stageButterfly g dir s A y) x := by
  by_cases hxy : x = y
  · rw [hxy]
  · obtain ⟨h1, h2, h3⟩ := stagePairs_disjoint hs hy hx (Ne.symm hxy)
    exact butterfly_comm _ A _ h1 h2 h3 fun h => h1 (by omega)

/-! ## One stage -/

/-- Butterflies away from place `k` leave it. -/
theorem foldl_stageButterfly_getD (g : Nat) (dir : Dir) (s k : Nat) {ps : List (Nat × Nat)}
    (hk : ∀ x ∈ ps, k ≠ x.1 + x.2 ∧ k ≠ x.1 + x.2 + 2 ^ (s - 1)) (A : List C64) :
    (ps.foldl (stageButterfly g dir s) A).getD k czero = A.getD k czero := by
  induction ps generalizing A with
  | nil => rfl
  | cons x ps ih =>
    obtain ⟨hp, hq⟩ := hk x (by simp)
    rw [List.foldl_cons, ih fun y hy => hk y (by simp [hy])]
    exact butterfly_getD_other _ A hp hq

theorem foldl_stageButterfly_length (g : Nat) (dir : Dir) (s : Nat) (ps : List (Nat × Nat)) (A : List C64) :
    (ps.foldl (stageButterfly g dir s) A).length = A.length :=
  foldl_length (fun _ _ => butterfly_length _ _ _ _) _ _

theorem stagePairs_nodup (L s : Nat) : (stagePairs L s).Nodup := by
  refine List.nodup_flatMap.mpr ⟨fun b _ => ?_, ?_⟩
  · exact List.nodup_range.map fun j j' h => (Prod.mk.inj h).2
  · refine List.nodup_range.imp fun {b b'} hne => ?_
    rw [Function.onFun, List.disjoint_left]
    intro x hx hx'
    obtain ⟨j, -, rfl⟩ := List.mem_map.mp hx
    obtain ⟨j', -, h⟩ := List.mem_map.mp hx'
    exact hne (Nat.eq_of_mul_eq_mul_right (by positivity) (Prod.mk.inj h).1.symm)

/-- The other butterflies of a stage leave both places of a butterfly alone. -/
theorem foldl_others_getD (g : Nat) (dir : Dir) {L s : Nat} (hs : 1 ≤ s) {x : Nat × Nat} (hx : x ∈ stagePairs L s)
    {l : List (Nat × Nat)} (hl : ∀ y ∈ l, y ∈ stagePairs L s) (hxl : x ∉ l) (A : List C64) :
    (l.foldl (stageButterfly g dir s) A).getD (x.1 + x.2) czero = A.getD (x.1 + x.2) czero ∧
    (l.foldl (stageButterfly g dir s) A).getD (x.1 + x.2 + 2 ^ (s - 1)) czero =
      A.getD (x.1 + x.2 + 2 ^ (s - 1)) czero := by
  have haway := fun {y} (hy : y ∈ l) => stagePairs_disjoint hs hx (hl y hy) fun h => hxl (h ▸ hy)
  refine ⟨foldl_stageButterfly_getD g dir s _ (fun y hy => ?_) A,
    foldl_stageButterfly_getD g dir s _ (fun y hy => ?_) A⟩ <;> obtain ⟨h1, h2, h3⟩ := haway hy
  · exact ⟨h1, h2⟩
  · exact ⟨h3, fun h => h1 (by omega)⟩

/-- What stage `s` leaves at the two places of each of its butterflies, from what it found there (R126). -/
theorem fftStage_getD (g : Nat) (dir : Dir) {L s : Nat} (hs : 1 ≤ s) {b j : Nat} (hb : b < L / 2 ^ s)
    (hj : j < 2 ^ (s - 1)) {A : List C64} (hA : A.length = L) :
    let p := b * 2 ^ s + j
    let q := b * 2 ^ s + j + 2 ^ (s - 1)
    let t := cmul (twiddle g dir (j * (2 ^ g / 2 ^ s))) (A.getD q czero)
    (fftStage g dir L s A).getD p czero = cadd (A.getD p czero) t ∧
    (fftStage g dir L s A).getD q czero = csub (A.getD p czero) t := by
  have hx : (b * 2 ^ s, j) ∈ stagePairs L s := mem_stagePairs.mpr ⟨b, hb, j, hj, rfl⟩
  have htwo := two_pow_half hs
  have hin : b * 2 ^ s + 2 ^ s ≤ L := by
    have := (Nat.le_div_iff_mul_le (by positivity)).mp (Nat.succ_le_of_lt hb)
    rwa [Nat.succ_mul] at this
  obtain ⟨l₁, l₂, hsplit⟩ := List.append_of_mem hx
  have hnodup := stagePairs_nodup L s
  rw [hsplit, List.nodup_middle, List.nodup_cons, List.mem_append, not_or] at hnodup
  obtain ⟨⟨hnot₁, hnot₂⟩, -⟩ := hnodup
  have hbefore := foldl_others_getD g dir hs hx (l := l₁) (fun y hy => hsplit ▸ by simp [hy]) hnot₁ A
  have hafter := foldl_others_getD g dir hs hx (l := l₂) (fun y hy => hsplit ▸ by simp [hy]) hnot₂
  have hlen := foldl_stageButterfly_length g dir s l₁ A
  obtain ⟨hp, hq⟩ := hbefore
  rw [fftStage, hsplit, List.foldl_append, List.foldl_cons]
  constructor
  · rw [(hafter _).1, stageButterfly, butterfly_getD_first _ _ (by omega) (by omega), hp, hq]
  · rw [(hafter _).2, stageButterfly, butterfly_getD_second _ _ (by omega), hp, hq]

/-! ## All stages -/

/-- The elements of `a` that bit reversal of length 2^(n + s) puts in block `b` of length 2^s, in their order. -/
def decimated (a : List C64) (n b i : Nat) : C64 := a.getD (i * 2 ^ n + bitrev n b) czero

/-- The even and the odd elements of a decimated sequence are those of the two halves of its block. -/
theorem decimated_even (a : List C64) (n b i : Nat) : decimated a n b (2 * i) = decimated a (n + 1) (2 * b) i := by
  simp only [decimated, bitrev, Nat.mul_mod_right, Nat.zero_mul, Nat.zero_add, Nat.mul_div_cancel_left _ two_pos, pow_succ]
  congr 2
  ring

theorem decimated_odd (a : List C64) (n b i : Nat) :
    decimated a n b (2 * i + 1) = decimated a (n + 1) (2 * b + 1) i := by
  have hdiv : (2 * b + 1) / 2 = b := by omega
  have hmod : (2 * b + 1) % 2 = 1 := by omega
  simp only [decimated, bitrev, hdiv, hmod, pow_succ]
  congr 1
  ring

/-- One level of the recursion, in the two halves of its output (R126, R127). -/
theorem fftRec_succ (g : Nat) (dir : Dir) (m : Nat) (a : Nat → C64) {j : Nat} (hj : j < 2 ^ m) :
    let u := fftRec g dir m (fun i => a (2 * i)) j
    let t := cmul (twiddle g dir (j * (2 ^ g / 2 ^ (m + 1)))) (fftRec g dir m (fun i => a (2 * i + 1)) j)
    fftRec g dir (m + 1) a j = cadd u t ∧ fftRec g dir (m + 1) a (j + 2 ^ m) = csub u t := by
  have hmod : (j + 2 ^ m) % 2 ^ m = j := by rw [Nat.add_mod_right, Nat.mod_eq_of_lt hj]
  constructor
  · simp only [fftRec, Nat.mod_eq_of_lt hj, if_pos hj]
    cases dir <;> rfl
  · simp only [fftRec, hmod, if_neg (show ¬j + 2 ^ m < 2 ^ m by omega)]
    cases dir <;> rfl

/-- The array after the first `s` stages of a transform of length 2^m (R126). -/
def afterStages (g m : Nat) (dir : Dir) (a : List C64) (s : Nat) : List C64 :=
  (List.range s).foldl (fun A i => fftStage g dir (2 ^ m) (i + 1) A) (bitReversed a m)

@[simp] theorem afterStages_length (g m : Nat) (dir : Dir) (a : List C64) (s : Nat) :
    (afterStages g m dir a s).length = 2 ^ m := by
  rw [afterStages, foldl_length fun A i => fftStage_length g dir (2 ^ m) (i + 1) A, bitReversed_length]

theorem afterStages_succ (g m : Nat) (dir : Dir) (a : List C64) (s : Nat) :
    afterStages g m dir a (s + 1) = fftStage g dir (2 ^ m) (s + 1) (afterStages g m dir a s) := by
  rw [afterStages, List.range_succ, List.foldl_append]; rfl

/-- After `s` stages each block of length 2^s holds the transform of the elements that bit reversal put in it. -/
theorem afterStages_getD (g n s : Nat) (dir : Dir) (a : List C64) {b k : Nat} (hb : b < 2 ^ n) (hk : k < 2 ^ s) :
    (afterStages g (n + s) dir a s).getD (b * 2 ^ s + k) czero = fftRec g dir s (decimated a n b) k := by
  induction s generalizing n b k with
  | zero =>
    obtain rfl : k = 0 := by omega
    simp only [afterStages, List.range_zero, List.foldl_nil, pow_zero, Nat.mul_one, Nat.add_zero, bitReversed,
      getD_map_range, if_pos hb, fftRec, decimated, Nat.zero_mul, Nat.zero_add]
  | succ s ih =>
    have hsize : 2 ^ (s + 1) = 2 ^ s + 2 ^ s := by rw [pow_succ]; omega
    have hnext : 2 ^ (n + 1) = 2 ^ n + 2 ^ n := by rw [pow_succ]; omega
    have hblocks : b < 2 ^ (n + (s + 1)) / 2 ^ (s + 1) := by
      rw [pow_add, Nat.mul_div_cancel _ (by positivity)]
      exact hb
    have key : ∀ j < 2 ^ s,
        (afterStages g (n + (s + 1)) dir a (s + 1)).getD (b * 2 ^ (s + 1) + j) czero =
          fftRec g dir (s + 1) (decimated a n b) j ∧
        (afterStages g (n + (s + 1)) dir a (s + 1)).getD (b * 2 ^ (s + 1) + j + 2 ^ s) czero =
          fftRec g dir (s + 1) (decimated a n b) (j + 2 ^ s) := by
      intro j hj
      have heven := ih (n + 1) (b := 2 * b) (by omega) hj
      have hodd := ih (n + 1) (b := 2 * b + 1) (by omega) hj
      rw [show n + 1 + s = n + (s + 1) by omega, show 2 * b * 2 ^ s + j = b * 2 ^ (s + 1) + j by rw [pow_succ]; ring] at heven
      rw [show n + 1 + s = n + (s + 1) by omega,
        show (2 * b + 1) * 2 ^ s + j = b * 2 ^ (s + 1) + j + 2 ^ s by rw [pow_succ]; ring] at hodd
      obtain ⟨hfirst, hsecond⟩ := fftStage_getD g dir (s := s + 1) (by omega) hblocks hj
        (afterStages_length g (n + (s + 1)) dir a s)
      obtain ⟨hrec, hrec'⟩ := fftRec_succ g dir s (decimated a n b) hj
      simp only [decimated_even, decimated_odd] at hrec hrec'
      rw [Nat.add_sub_cancel, heven, hodd] at hfirst hsecond
      rw [afterStages_succ]
      exact ⟨hfirst.trans hrec.symm, hsecond.trans hrec'.symm⟩
    by_cases hlow : k < 2 ^ s
    · exact (key k hlow).1
    · obtain ⟨j, rfl⟩ := Nat.exists_eq_add_of_le' (Nat.le_of_not_lt hlow)
      rw [← Nat.add_assoc (b * 2 ^ (s + 1))]
      exact (key j (by omega)).2

/-- The scaling of the inverse transform is the power of two itself, for every length of R6. -/
theorem invPow2_eq {m : Nat} (hm : m ≤ 16) : invPow2 m = BitVec.ofNat 64 ((1023 - m) * 2 ^ 52) := by
  have hall : ∀ m : Fin 17, invPow2 m = BitVec.ofNat 64 ((1023 - m) * 2 ^ 52) := by decide +kernel
  exact hall ⟨m, by omega⟩

/-- Element k of all the stages of a transform is that of the recursion. -/
theorem afterStages_all (g m : Nat) (dir : Dir) (a : List C64) {k : Nat} (hk : k < 2 ^ m) :
    (afterStages g m dir a m)[k]? = some (fftRec g dir m (a.getD · czero) k) := by
  have hblock := afterStages_getD g 0 m dir a (b := 0) (by simp) hk
  have hseq : decimated a 0 0 = (a.getD · czero) := by
    funext i
    simp [decimated, bitrev]
  rw [Nat.zero_mul, Nat.zero_add, Nat.zero_add, hseq] at hblock
  rw [← hblock, List.getD_eq_getElem?_getD, List.getElem?_eq_getElem (by simpa using hk), Option.getD_some]

end Sys2Proof.Machine

namespace Sys2Proof.Claims

open Sys2Proof.Machine

/-- Settles O24: the butterflies of a stage commute. -/
theorem fftStageOrderIrrelevant : Obligations.FftStageOrderIrrelevant := by
  intro g L st dir A ps hst hperm
  refine hperm.foldl_eq' (fun x hx y hy A => ?_) A
  exact stageButterfly_comm g dir hst (hperm.mem_iff.mp hx) (hperm.mem_iff.mp hy) A

/-- Settles O25: the invariant of the stages, at the last of them. -/
theorem fftCoreSplitsIntoEvenAndOdd : Obligations.FftCoreSplitsIntoEvenAndOdd := by
  intro g m k a hg hm _ hk
  have hscale := invPow2_eq (hm.trans hg)
  refine ⟨afterStages_all g m .fwd a hk, ?_⟩
  show ((afterStages g m .inv a m).map fun x => cscale x (invPow2 m))[k]? = _
  rw [List.getElem?_map, afterStages_all g m .inv a hk, hscale]
  rfl

end Sys2Proof.Claims
end

section
/-! SUPPORT. Cos2pi, Sin2pi and the twiddle ROM round the real cosine and sine faithfully (spec/00_scope.md R18 to R21),
and the Hamming coefficients that do not depend on the choice (spec/41_transform.md R120, R121): the proofs of the
obligations O26, O27 and O28. -/

namespace Sys2Proof.Machine

open Sys2Proof.Claims (IsFaithful)

/-! ## Faithful values -/

/-- A binary64 that is the exact value is a faithful rounding of it (R19). -/
theorem isFaithful_of_exact {y : F64} {v : ℝ} (hfin : isFinite y = true) (hval : (units y : ℝ) = v * 2 ^ 1074)
    (hzero : v = 0 → y = posZero) : IsFaithful y v := by
  refine ⟨hfin, hzero, fun z _ => ⟨fun h => ?_, fun h => ?_, fun _ => hval⟩⟩ <;> rw [hval] at h
  · exact lt_asymm h.1 h.2
  · exact lt_asymm h.1 h.2

/-- No finite binary64 has a magnitude strictly between an encoding and the next. -/
theorem units_outside_gap {z : F64} (hz : isFinite z = true) (f : Nat) :
    (units z ≤ magValue f ∨ (magValue (f + 1) : ℤ) ≤ units z) ∧
    (-units z ≤ magValue f ∨ (magValue (f + 1) : ℤ) ≤ -units z) := by
  obtain ⟨m, hm, hzm⟩ := exists_ofSignMag hz
  have hval := units_ofSignMag (neg := signBit z) (lt_trans hm (by decide))
  rw [← hzm] at hval
  have hgap : magValue m ≤ magValue f ∨ magValue (f + 1) ≤ magValue m :=
    (Nat.lt_or_ge f m).symm.imp (magValue_strictMono.monotone ·) (magValue_strictMono.monotone ·)
  rw [hval]
  split <;> omega

/-- Either neighbour of a value that is no binary64 is a faithful rounding of it (R19). -/
theorem isFaithful_of_neighbour {y : F64} {v S : ℝ} {f m : Nat} (neg : Bool) (hlo : (magValue f : ℝ) < S)
    (hhi : S < (magValue (f + 1) : ℝ)) (hm : m = f ∨ m = f + 1) (hfin : isFinite y = true)
    (hy : units y = if neg then -(magValue m : Int) else magValue m)
    (hv : v * 2 ^ 1074 = if neg then -S else S) : IsFaithful y v := by
  have hf : (0 : ℝ) ≤ magValue f := Nat.cast_nonneg _
  have hnear : (magValue m : ℝ) = magValue f ∨ (magValue m : ℝ) = magValue (f + 1) := by
    rcases hm with rfl | rfl
    · exact .inl rfl
    · exact .inr rfl
  refine ⟨hfin, fun hzero => ?_, fun z hz => ?_⟩
  · rw [hzero, zero_mul] at hv
    split at hv <;> linarith
  · obtain ⟨h1, h2⟩ := units_outside_gap hz f
    have h1' : (units z : ℝ) ≤ magValue f ∨ (magValue (f + 1) : ℝ) ≤ units z := by exact_mod_cast h1
    have h2' : -(units z : ℝ) ≤ magValue f ∨ (magValue (f + 1) : ℝ) ≤ -units z := by exact_mod_cast h2
    rw [hy, hv]
    cases neg
    · simp only [Bool.false_eq_true, if_false, Int.cast_natCast]
      refine ⟨fun h => ?_, fun h => ?_, fun h => ?_⟩ <;> rcases h1' with h1' | h1' <;> rcases hnear with hn | hn <;>
        linarith
    · simp only [if_true, Int.cast_neg, Int.cast_natCast]
      refine ⟨fun h => ?_, fun h => ?_, fun h => ?_⟩ <;> rcases h2' with h2' | h2' <;> rcases hnear with hn | hn <;>
        linarith

/-! ## The neighbours the model finds -/

theorem magValue_zero : magValue 0 = 0 := by decide

/-- The sign of a zero does not matter to the value (R13). -/
theorem units_ofSignMag_free {neg zeroNeg : Bool} {m : Nat} (h : m < 2 ^ 63) :
    units (ofSignMag (if m = 0 then zeroNeg else neg) m) = if neg then -(magValue m : Int) else magValue m := by
  rw [units_ofSignMag h]
  by_cases hm : m = 0
  · subst hm
    rw [magValue_zero]
    simp
  · rw [if_neg hm]

/-- The value 1 is encoding 1023 * 2^52 (R13). -/
theorem magValue_one : magValue (1023 * 2 ^ 52) = 2 ^ 1074 := by decide +kernel

/-- A sine is below every encoding above that of 1. -/
theorem floor_lt_one {f : Nat} {x : ℝ} (h : (magValue f : ℝ) < Real.sin x * (2 ^ 1074 : ℕ)) : f < 1023 * 2 ^ 52 := by
  by_contra hge
  have hmono : magValue (1023 * 2 ^ 52) ≤ magValue f := magValue_strictMono.monotone (Nat.le_of_not_lt hge)
  rw [magValue_one] at hmono
  have hmono' : ((2 ^ 1074 : ℕ) : ℝ) ≤ magValue f := by exact_mod_cast hmono
  have hsin := Real.sin_le_one x
  have hW : (0 : ℝ) < ((2 ^ 1074 : ℕ) : ℝ) := by positivity
  generalize ((2 ^ 1074 : ℕ) : ℝ) = W at *
  nlinarith

/-- What `faithful` answers is a faithful rounding, whatever the free choice is (R19). -/
theorem faithful_isFaithful (neg : Bool) {a b : Nat} (c : FaithfulChoice) {v : ℝ} (hb : 0 < b) (hab : a ≤ b)
    (hne : NotBinary64 a b) (hv : v = if neg then -Real.sin (quadrantAngle a b) else Real.sin (quadrantAngle a b)) :
    IsFaithful (faithful neg a b c) v := by
  obtain ⟨hlo, hhi⟩ := quadrantFloor_encloses hb hab hne
  have hone := floor_lt_one hlo
  have hinf : quadrantFloor a b + 1 < infMag := by unfold infMag; omega
  have hm : max (quadrantFloor a b) (min (quadrantFloor a b + 1) c.pick) = quadrantFloor a b ∨
      max (quadrantFloor a b) (min (quadrantFloor a b + 1) c.pick) = quadrantFloor a b + 1 := by omega
  have hmlt : max (quadrantFloor a b) (min (quadrantFloor a b + 1) c.pick) < infMag := by omega
  refine isFaithful_of_neighbour neg hlo hhi hm (isFinite_ofSignMag hmlt)
    (units_ofSignMag_free (lt_trans hmlt (by decide))) ?_
  rw [hv, Nat.cast_pow, Nat.cast_ofNat]
  split
  · rw [neg_mul]
  · rfl

/-- The sine of q right angles and a part of one, in the quadrant it lies in. -/
theorem sin_quadrant (q : Nat) {a b : Nat} (hb : 0 < b) (hab : a ≤ b) :
    Real.sin (q * (Real.pi / 2) + quadrantAngle a b) =
      if q % 4 = 0 then Real.sin (quadrantAngle a b)
      else if q % 4 = 1 then Real.sin (quadrantAngle (b - a) b)
      else if q % 4 = 2 then -Real.sin (quadrantAngle a b)
      else -Real.sin (quadrantAngle (b - a) b) := by
  have hcompl : Real.sin (quadrantAngle (b - a) b) = Real.cos (quadrantAngle a b) := by
    rw [quadrantAngle_complement hb hab, Real.sin_pi_div_two_sub]
  have hturn : Real.sin (q * (Real.pi / 2) + quadrantAngle a b) =
      Real.sin ((q % 4 : ℕ) * (Real.pi / 2) + quadrantAngle a b) := by
    have hq : (q : ℝ) = 4 * ((q / 4 : ℕ) : ℝ) + ((q % 4 : ℕ) : ℝ) := by exact_mod_cast (Nat.div_add_mod q 4).symm
    rw [hq, show (4 * ((q / 4 : ℕ) : ℝ) + ((q % 4 : ℕ) : ℝ)) * (Real.pi / 2) + quadrantAngle a b =
      ((q % 4 : ℕ) : ℝ) * (Real.pi / 2) + quadrantAngle a b + ((q / 4 : ℕ) : ℝ) * (2 * Real.pi) by ring,
      Real.sin_add_nat_mul_two_pi]
  have hlt := Nat.mod_lt q (show 0 < 4 by omega)
  rw [hturn, hcompl]
  generalize quadrantAngle a b = θ
  interval_cases q % 4
  · simp
  · rw [Nat.cast_one, one_mul, add_comm, Real.sin_add_pi_div_two]; rfl
  · rw [Nat.cast_ofNat, mul_div_cancel₀ _ two_ne_zero, add_comm, Real.sin_add_pi]; rfl
  · rw [Nat.cast_ofNat, show 3 * (Real.pi / 2) + θ = θ + Real.pi / 2 + Real.pi by ring, Real.sin_add_pi,
      Real.sin_add_pi_div_two]
    rfl

/-- What `faithfulSin` answers is a faithful rounding where the sine is irrational. -/
theorem faithfulSin_isFaithful (q : Nat) {a b : Nat} (c : FaithfulChoice) {v : ℝ} (hb : 0 < b) (hab : a ≤ b)
    (hv : v = Real.sin (q * (Real.pi / 2) + quadrantAngle a b)) (hirr : Irrational v) :
    IsFaithful (faithfulSin q a b c) v := by
  rw [hv, sin_quadrant q hb hab] at hirr
  rw [sin_quadrant q hb hab] at hv
  unfold faithfulSin
  split at hv
  · next h => rw [if_pos h] at hirr ⊢; exact faithful_isFaithful false c hb hab (notBinary64_of_irrational hirr) hv
  · next h0 =>
    rw [if_neg h0] at hirr ⊢
    split at hv
    · next h =>
      rw [if_pos h] at hirr ⊢
      exact faithful_isFaithful false c hb (Nat.sub_le b a) (notBinary64_of_irrational hirr) hv
    · next h1 =>
      rw [if_neg h1] at hirr ⊢
      split at hv
      · next h =>
        rw [if_pos h] at hirr ⊢
        exact faithful_isFaithful true c hb hab (notBinary64_of_irrational hirr.of_neg) hv
      · next h =>
        rw [if_neg h] at hirr ⊢
        exact faithful_isFaithful true c hb (Nat.sub_le b a) (notBinary64_of_irrational hirr.of_neg) hv

/-! ## Arguments modulo one turn -/

theorem turnNum_lt (x : ℚ) : turnNum x < x.den := by
  have hpos : (0 : ℤ) < x.den := by exact_mod_cast x.den_pos
  have := Int.emod_lt_of_pos x.num hpos
  have := Int.emod_nonneg x.num hpos.ne'
  unfold turnNum
  omega

theorem turnNum_coprime (x : ℚ) : Nat.Coprime (turnNum x) x.den := by
  have hpos : (0 : ℤ) < x.den := by exact_mod_cast x.den_pos
  have hcast : ((turnNum x : ℕ) : ℤ) = x.num % x.den := Int.toNat_of_nonneg (Int.emod_nonneg _ hpos.ne')
  have hgcd : Int.gcd (turnNum x : ℤ) (x.den : ℤ) = 1 := by
    rw [hcast, Int.gcd_emod]
    exact x.reduced
  simpa using hgcd

/-- A rational is a whole number of turns and its part of one. -/
theorem rat_eq_turns (x : ℚ) : ∃ k : ℤ, (x : ℝ) = k + (turnNum x : ℝ) / x.den := by
  refine ⟨x.num / x.den, ?_⟩
  have hpos : (0 : ℤ) < x.den := by exact_mod_cast x.den_pos
  have hcast : ((turnNum x : ℕ) : ℤ) = x.num % x.den := Int.toNat_of_nonneg (Int.emod_nonneg _ hpos.ne')
  have hden : (x.den : ℝ) ≠ 0 := by exact_mod_cast x.den_ne_zero
  have hsplit : (x.num : ℤ) = x.den * (x.num / x.den) + turnNum x := by rw [hcast, Int.mul_ediv_add_emod]
  have hsplit' : (x.num : ℝ) = x.den * ((x.num / x.den : ℤ) : ℝ) + turnNum x := by exact_mod_cast hsplit
  rw [Rat.cast_def, hsplit']
  field_simp

theorem cos_eq_turnNum (x : ℚ) : Real.cos (2 * Real.pi * x) = Real.cos (2 * Real.pi * ((turnNum x : ℝ) / x.den)) := by
  obtain ⟨k, hk⟩ := rat_eq_turns x
  rw [hk, show 2 * Real.pi * (k + (turnNum x : ℝ) / x.den) =
    2 * Real.pi * ((turnNum x : ℝ) / x.den) + k * (2 * Real.pi) by ring, Real.cos_add_int_mul_two_pi]

theorem sin_eq_turnNum (x : ℚ) : Real.sin (2 * Real.pi * x) = Real.sin (2 * Real.pi * ((turnNum x : ℝ) / x.den)) := by
  obtain ⟨k, hk⟩ := rat_eq_turns x
  rw [hk, show 2 * Real.pi * (k + (turnNum x : ℝ) / x.den) =
    2 * Real.pi * ((turnNum x : ℝ) / x.den) + k * (2 * Real.pi) by ring, Real.sin_add_int_mul_two_pi]

/-- The angle of a part of a turn, in right angles and a part of one. -/
theorem angle_eq_quadrant (x : ℚ) : 2 * Real.pi * ((turnNum x : ℝ) / x.den) =
    (4 * turnNum x / x.den : ℕ) * (Real.pi / 2) + quadrantAngle (4 * turnNum x % x.den) x.den := by
  have hden : (x.den : ℝ) ≠ 0 := by exact_mod_cast x.den_ne_zero
  have hsplit : (4 * turnNum x : ℝ) = x.den * ((4 * turnNum x / x.den : ℕ) : ℝ) + (4 * turnNum x % x.den : ℕ) := by
    exact_mod_cast (Nat.div_add_mod (4 * turnNum x) x.den).symm
  rw [show 2 * Real.pi * ((turnNum x : ℝ) / x.den) = Real.pi / 2 * ((4 * turnNum x : ℝ) / x.den) by ring, hsplit,
    quadrantAngle]
  field_simp

/-! ## The values that are binary64 -/

theorem two_pow_1074 : (2 : ℝ) ^ 1074 = 2 ^ 1073 * 2 := pow_succ 2 1073

theorem isFaithful_one : IsFaithful f64One 1 := by
  have hunits : units f64One = 2 ^ 1074 := by decide +kernel
  refine isFaithful_of_exact (by decide) ?_ fun h => absurd h one_ne_zero
  rw [hunits, Int.cast_pow, Int.cast_ofNat, one_mul]

theorem isFaithful_neg_one : IsFaithful (fneg f64One) (-1) := by
  have hunits : units (fneg f64One) = -2 ^ 1074 := by decide +kernel
  refine isFaithful_of_exact (by decide) ?_ fun h => absurd h (by norm_num)
  rw [hunits, Int.cast_neg, Int.cast_pow, Int.cast_ofNat, neg_one_mul]

theorem isFaithful_half : IsFaithful f64Half (1 / 2) := by
  have hunits : units f64Half = 2 ^ 1073 := by decide +kernel
  refine isFaithful_of_exact (by decide) ?_ fun h => absurd h (by norm_num)
  rw [hunits, Int.cast_pow, Int.cast_ofNat, two_pow_1074]
  generalize (2 : ℝ) ^ 1073 = W
  ring

theorem isFaithful_neg_half : IsFaithful (fneg f64Half) (-(1 / 2)) := by
  have hunits : units (fneg f64Half) = -2 ^ 1073 := by decide +kernel
  refine isFaithful_of_exact (by decide) ?_ fun h => absurd h (by norm_num)
  rw [hunits, Int.cast_neg, Int.cast_pow, Int.cast_ofNat, two_pow_1074]
  generalize (2 : ℝ) ^ 1073 = W
  ring

theorem isFaithful_zero : IsFaithful posZero 0 := by
  have hunits : units posZero = 0 := by decide
  refine isFaithful_of_exact (by decide) ?_ fun _ => rfl
  rw [hunits, Int.cast_zero, zero_mul]

/-- The reduced numerators of the parts of a turn that occur in R20. -/
theorem coprime_numerators {t : Nat} :
    (t < 2 → Nat.Coprime t 2 → t = 1) ∧ (t < 3 → Nat.Coprime t 3 → t = 1 ∨ t = 2) ∧
    (t < 4 → Nat.Coprime t 4 → t = 1 ∨ t = 3) ∧ (t < 6 → Nat.Coprime t 6 → t = 1 ∨ t = 5) ∧
    (t < 12 → Nat.Coprime t 12 → t = 1 ∨ t = 5 ∨ t = 7 ∨ t = 11) := by
  refine ⟨?_, ?_, ?_, ?_, ?_⟩ <;> (intro ht; revert t; decide)

/-- The cosine at the parts of a turn of denominator 1, 2, 3, 4 and 6 (R20). -/
theorem cos_turn {t d : Nat} (ht : t < d) (hcoprime : Nat.Coprime t d) :
    (d = 1 → Real.cos (2 * Real.pi * ((t : ℝ) / d)) = 1) ∧
    (d = 2 → Real.cos (2 * Real.pi * ((t : ℝ) / d)) = -1) ∧
    (d = 3 → Real.cos (2 * Real.pi * ((t : ℝ) / d)) = -(1 / 2)) ∧
    (d = 4 → Real.cos (2 * Real.pi * ((t : ℝ) / d)) = 0) ∧
    (d = 6 → Real.cos (2 * Real.pi * ((t : ℝ) / d)) = 1 / 2) := by
  refine ⟨?_, ?_, ?_, ?_, ?_⟩ <;> rintro rfl
  · obtain rfl : t = 0 := by omega
    simp
  · obtain rfl := coprime_numerators.1 ht hcoprime
    rw [show 2 * Real.pi * (((1 : ℕ) : ℝ) / (2 : ℕ)) = Real.pi by push_cast; ring, Real.cos_pi]
  · rcases coprime_numerators.2.1 ht hcoprime with rfl | rfl
    · rw [show 2 * Real.pi * (((1 : ℕ) : ℝ) / (3 : ℕ)) = Real.pi - Real.pi / 3 by push_cast; ring, Real.cos_pi_sub,
        Real.cos_pi_div_three]
    · rw [show 2 * Real.pi * (((2 : ℕ) : ℝ) / (3 : ℕ)) = Real.pi / 3 + Real.pi by push_cast; ring, Real.cos_add_pi,
        Real.cos_pi_div_three]
  · rcases coprime_numerators.2.2.1 ht hcoprime with rfl | rfl
    · rw [show 2 * Real.pi * (((1 : ℕ) : ℝ) / (4 : ℕ)) = Real.pi / 2 by push_cast; ring, Real.cos_pi_div_two]
    · rw [show 2 * Real.pi * (((3 : ℕ) : ℝ) / (4 : ℕ)) = Real.pi / 2 + Real.pi by push_cast; ring, Real.cos_add_pi,
        Real.cos_pi_div_two, neg_zero]
  · rcases coprime_numerators.2.2.2.1 ht hcoprime with rfl | rfl
    · rw [show 2 * Real.pi * (((1 : ℕ) : ℝ) / (6 : ℕ)) = Real.pi / 3 by push_cast; ring, Real.cos_pi_div_three]
    · rw [show 2 * Real.pi * (((5 : ℕ) : ℝ) / (6 : ℕ)) = 2 * Real.pi - Real.pi / 3 by push_cast; ring,
        Real.cos_two_pi_sub, Real.cos_pi_div_three]

/-- The sine at the parts of a turn of denominator 1, 2, 4 and 12 (R20). -/
theorem sin_turn {t d : Nat} (ht : t < d) (hcoprime : Nat.Coprime t d) :
    (d = 1 ∨ d = 2 → Real.sin (2 * Real.pi * ((t : ℝ) / d)) = 0) ∧
    (d = 4 → Real.sin (2 * Real.pi * ((t : ℝ) / d)) = if t = 1 then 1 else -1) ∧
    (d = 12 → Real.sin (2 * Real.pi * ((t : ℝ) / d)) = if t < 6 then 1 / 2 else -(1 / 2)) := by
  refine ⟨?_, ?_, ?_⟩
  · rintro (rfl | rfl)
    · obtain rfl : t = 0 := by omega
      simp
    · obtain rfl := coprime_numerators.1 ht hcoprime
      rw [show 2 * Real.pi * (((1 : ℕ) : ℝ) / (2 : ℕ)) = Real.pi by push_cast; ring, Real.sin_pi]
  · rintro rfl
    rcases coprime_numerators.2.2.1 ht hcoprime with rfl | rfl
    · rw [show 2 * Real.pi * (((1 : ℕ) : ℝ) / (4 : ℕ)) = Real.pi / 2 by push_cast; ring, Real.sin_pi_div_two, if_pos rfl]
    · rw [show 2 * Real.pi * (((3 : ℕ) : ℝ) / (4 : ℕ)) = Real.pi / 2 + Real.pi by push_cast; ring, Real.sin_add_pi,
        Real.sin_pi_div_two, if_neg (by decide)]
  · rintro rfl
    rcases coprime_numerators.2.2.2.2 ht hcoprime with rfl | rfl | rfl | rfl
    · rw [show 2 * Real.pi * (((1 : ℕ) : ℝ) / (12 : ℕ)) = Real.pi / 6 by push_cast; ring, Real.sin_pi_div_six,
        if_pos (by decide)]
    · rw [show 2 * Real.pi * (((5 : ℕ) : ℝ) / (12 : ℕ)) = Real.pi - Real.pi / 6 by push_cast; ring, Real.sin_pi_sub,
        Real.sin_pi_div_six, if_pos (by decide)]
    · rw [show 2 * Real.pi * (((7 : ℕ) : ℝ) / (12 : ℕ)) = Real.pi / 6 + Real.pi by push_cast; ring, Real.sin_add_pi,
        Real.sin_pi_div_six, if_neg (by decide)]
    · rw [show 2 * Real.pi * (((11 : ℕ) : ℝ) / (12 : ℕ)) = 2 * Real.pi - Real.pi / 6 by push_cast; ring,
        Real.sin_two_pi_sub, Real.sin_pi_div_six, if_neg (by decide)]

/-- Where the model takes cos(2 pi x) as a binary64 it is that one (R20). -/
theorem exactCos2pi_isFaithful {x : ℚ} {y : F64} (h : exactCos2pi x = some y) :
    IsFaithful y (Real.cos (2 * Real.pi * x)) := by
  obtain ⟨h1, h2, h3, h4, h6⟩ := cos_turn (turnNum_lt x) (turnNum_coprime x)
  rw [cos_eq_turnNum]
  unfold exactCos2pi at h
  split at h
  · next hd => cases h; rw [h1 hd]; exact isFaithful_one
  split at h
  · next hd => cases h; rw [h2 hd]; exact isFaithful_neg_one
  split at h
  · next hd => cases h; rw [h3 hd]; exact isFaithful_neg_half
  split at h
  · next hd => cases h; rw [h4 hd]; exact isFaithful_zero
  split at h
  · next hd => cases h; rw [h6 hd]; exact isFaithful_half
  · cases h

/-- Where the model takes sin(2 pi x) as a binary64 it is that one (R20). -/
theorem exactSin2pi_isFaithful {x : ℚ} {y : F64} (h : exactSin2pi x = some y) :
    IsFaithful y (Real.sin (2 * Real.pi * x)) := by
  obtain ⟨h1, h4, h12⟩ := sin_turn (turnNum_lt x) (turnNum_coprime x)
  rw [sin_eq_turnNum]
  unfold exactSin2pi at h
  split at h
  · next hd => cases h; rw [h1 hd]; exact isFaithful_zero
  split at h
  · next hd =>
    cases h
    rw [h4 hd]
    split
    · exact isFaithful_one
    · exact isFaithful_neg_one
  split at h
  · next hd =>
    cases h
    rw [h12 hd]
    split
    · exact isFaithful_half
    · exact isFaithful_neg_half
  · cases h

/-! ## Cos2pi, Sin2pi and the ROM -/

theorem roundedCos2pi_isFaithful (x : ℚ) (c : FaithfulChoice) :
    IsFaithful (roundedCos2pi x c) (Real.cos (2 * Real.pi * x)) := by
  unfold roundedCos2pi
  split
  · next v hv => exact exactCos2pi_isFaithful hv
  · next hnone =>
    refine faithfulSin_isFaithful _ c x.den_pos (Nat.mod_lt _ x.den_pos).le ?_ (irrational_cos2pi hnone)
    rw [cos_eq_turnNum, angle_eq_quadrant, ← Real.sin_add_pi_div_two]
    congr 1
    push_cast
    ring

theorem roundedSin2pi_isFaithful (x : ℚ) (c : FaithfulChoice) :
    IsFaithful (roundedSin2pi x c) (Real.sin (2 * Real.pi * x)) := by
  unfold roundedSin2pi
  split
  · next v hv => exact exactSin2pi_isFaithful hv
  · next hnone =>
    refine faithfulSin_isFaithful _ c x.den_pos (Nat.mod_lt _ x.den_pos).le ?_ (irrational_sin2pi hnone)
    rw [sin_eq_turnNum, angle_eq_quadrant]

/-- The argument of ROM entry r (R21). -/
theorem romArg_eq (g r : Nat) : 2 * Real.pi * ((mkRat r (2 ^ g) : ℚ) : ℝ) = 2 * Real.pi * r / 2 ^ g := by
  rw [Rat.mkRat_eq_div]
  push_cast
  ring

theorem cos2pi_of_exact {x : ℚ} {v : F64} (h : exactCos2pi x = some v) : cos2pi x = v := by
  simp only [cos2pi, roundedCos2pi, h]

/-- A coefficient of a window at a part of a turn whose cosine is a binary64 (R121). -/
theorem hamW_of_exact {n N : Nat} {v : F64} (h : exactCos2pi (mkRat n (N - 1)) = some v) :
    hamW n N = fsub c054 (fmul c046 v) := by
  rw [hamW, cos2pi_of_exact h]

end Sys2Proof.Machine

namespace Sys2Proof.Claims

open Sys2Proof.Machine

/-- Settles O26: the formula is the definition's, and the fixed values are those at 0, 1, 1/3 and 2/3. -/
theorem hammingWindowFixedValues : Obligations.HammingWindowFixedValues := by
  intro n N hN hn
  have hN1 : ((N - 1 : ℕ) : ℚ) ≠ 0 := Nat.cast_ne_zero.mpr (by omega)
  have harg : mkRat n (N - 1) = (n : ℚ) / ((N - 1 : ℕ) : ℚ) := Rat.mkRat_eq_div n (N - 1)
  refine ⟨?_, ?_, ?_⟩
  · rw [hamW, harg, Nat.cast_sub (by omega), Nat.cast_one]
    rfl
  · intro hend
    have hone : exactCos2pi (mkRat n (N - 1)) = some f64One := by
      rw [harg]
      rcases hend with rfl | rfl
      · rw [Nat.cast_zero, zero_div]; rfl
      · rw [div_self hN1]; rfl
    rw [hamW_of_exact hone]
    decide +kernel
  · intro hthird
    have hhalf : exactCos2pi (mkRat n (N - 1)) = some (fneg f64Half) := by
      rw [harg]
      rcases hthird with h | h
      · rw [show (n : ℚ) / ((N - 1 : ℕ) : ℚ) = 1 / 3 by rw [div_eq_div_iff hN1 (by norm_num)]; exact_mod_cast by omega]
        decide +kernel
      · rw [show (n : ℚ) / ((N - 1 : ℕ) : ℚ) = 2 / 3 by rw [div_eq_div_iff hN1 (by norm_num)]; exact_mod_cast by omega]
        decide +kernel
    rw [hamW_of_exact hhalf]
    decide +kernel

/-- Settles O27: the entries at 0 and at a quarter of a turn are exact. -/
theorem twiddleRomFixedEntries : Obligations.TwiddleRomFixedEntries := by
  intro g hg
  have hquarter : mkRat ((2 ^ (g - 2) : ℕ) : ℤ) (2 ^ g) = 1 / 4 := by
    obtain ⟨k, rfl⟩ := Nat.exists_eq_add_of_le' hg
    rw [Rat.mkRat_eq_div, Nat.add_sub_cancel, pow_add]
    push_cast
    have : (2 : ℚ) ^ k ≠ 0 := by positivity
    field_simp
  have hzero : mkRat ((0 : ℕ) : ℤ) (2 ^ g) = 0 := Rat.zero_mkRat _
  refine ⟨?_, ?_, ?_, ?_⟩
  · rw [romCos, hzero]; rfl
  · rw [romSin, hzero]; rfl
  · have hcos : exactCos2pi (1 / 4) = some posZero := by decide +kernel
    simp only [romCos, hquarter, roundedCos2pi, hcos]
    rfl
  · have hsin : exactSin2pi (1 / 4) = some f64One := by decide +kernel
    simp only [romSin, hquarter, roundedSin2pi, hsin]
    rfl

/-- Settles O28: where the value is no binary64 it is irrational, and the search ends with its two neighbours. -/
theorem trigIsFaithful : Obligations.TrigIsFaithful := by
  refine ⟨fun x => ⟨roundedCos2pi_isFaithful x _, roundedSin2pi_isFaithful x _⟩, fun g r => ?_⟩
  rw [← romArg_eq]
  exact ⟨roundedCos2pi_isFaithful _ _, roundedSin2pi_isFaithful _ _⟩

end Sys2Proof.Claims
end

section
/-! SUPPORT. Rounding of a ratio of naturals to nearest, ties to even, and the classes, signs and values of encodings
(spec/00_scope.md R13 to R15). -/

namespace Sys2Proof.Machine

/-! ## The nearest encoding -/

/-- The encoding, sign bit aside, nearest to `n / d` units, ties to even, without the bound of infinity. -/
def nearestMag (n d : Nat) : Nat :=
  if 2 * n < (magValue (floorMag n d) + magValue (floorMag n d + 1)) * d then floorMag n d
  else if 2 * n = (magValue (floorMag n d) + magValue (floorMag n d + 1)) * d then
    floorMag n d + floorMag n d % 2
  else floorMag n d + 1

/-- The midpoint of the encodings around a ratio lies half a quantum above the lower one. -/
theorem floorMag_midpoint (n d : Nat) :
    (magValue (floorMag n d) + magValue (floorMag n d + 1)) * d =
      (2 * (n / (d * 2 ^ quantumShift (n / d))) + 1) * (d * 2 ^ quantumShift (n / d)) := by
  obtain ⟨hlt, hge⟩ := quantum_significand (n / d)
  unfold floorMag
  simp only
  generalize quantumShift (n / d) = k at *
  rw [Nat.div_div_eq_div_mul] at hlt hge
  rw [Nat.add_assoc, magValue_quantum hlt.le hge, magValue_quantum (by omega) (by omega)]
  ring

/-- Rounding the significand to an integer is rounding to the nearest encoding. -/
theorem roundMag_eq_nearestMag (n d : Nat) : roundMag n d = min (nearestMag n d) infMag := by
  have hmid := floorMag_midpoint n d
  unfold roundMag rneDiv nearestMag
  rw [hmid]
  unfold floorMag
  simp only
  generalize quantumShift (n / d) = k
  have hsplit := Nat.div_add_mod n (d * 2 ^ k)
  have hmid' : (2 * (n / (d * 2 ^ k)) + 1) * (d * 2 ^ k) = 2 * (d * 2 ^ k * (n / (d * 2 ^ k))) + d * 2 ^ k := by ring
  rw [hmid']
  generalize d * 2 ^ k = D at *
  generalize D * (n / D) = P at *
  congr 1
  by_cases hlt : 2 * (n % D) < D
  · rw [if_pos hlt, if_pos (by omega)]
  · by_cases heq : 2 * (n % D) = D
    · rw [if_neg hlt, if_pos heq, if_neg (by omega), if_pos (by omega)]
      omega
    · rw [if_neg hlt, if_neg heq, if_neg (by omega), if_neg (by omega)]
      omega

theorem roundMag_le (n d : Nat) : roundMag n d ≤ infMag := by
  rw [roundMag_eq_nearestMag]
  exact min_le_right _ _

/-- The encodings on either side of a ratio determine its floor. -/
theorem floorMag_unique {n d m : Nat} (hd : 0 < d) (hlo : magValue m * d ≤ n) (hhi : n < magValue (m + 1) * d) :
    floorMag n d = m := by
  obtain ⟨hlo', hhi'⟩ := floorMag_bounds n hd
  have h1 := magValue_strictMono.lt_iff_lt.mp (lt_of_mul_lt_mul_right (hlo.trans_lt hhi') (Nat.zero_le d))
  have h2 := magValue_strictMono.lt_iff_lt.mp (lt_of_mul_lt_mul_right (hlo'.trans_lt hhi) (Nat.zero_le d))
  omega

/-- Rounding depends on the exact ratio only (R15). -/
theorem roundMag_ratio {n d n' d' : Nat} (hd : 0 < d) (hd' : 0 < d') (h : n * d' = n' * d) :
    roundMag n d = roundMag n' d' := by
  have scale : ∀ v : Nat, (v * d ≤ n ↔ v * d' ≤ n') := fun v => by
    rw [← Nat.mul_le_mul_right_iff hd', h, Nat.mul_right_comm, Nat.mul_le_mul_right_iff hd]
  have scale2 : ∀ v : Nat, (2 * n < v * d ↔ 2 * n' < v * d') ∧ (2 * n = v * d ↔ 2 * n' = v * d') := fun v => by
    have e1 : 2 * n * d' = 2 * n' * d := by rw [Nat.mul_assoc, h, Nat.mul_assoc]
    have e2 : v * d * d' = v * d' * d := Nat.mul_right_comm _ _ _
    constructor
    · rw [← Nat.mul_lt_mul_right hd', ← Nat.mul_lt_mul_right hd (b := 2 * n'), e1, e2]
    · rw [← Nat.mul_left_inj hd'.ne', ← Nat.mul_left_inj hd.ne' (b := 2 * n'), e1, e2]
  have hfloor : floorMag n d = floorMag n' d' := by
    obtain ⟨hlo, hhi⟩ := floorMag_bounds n' hd'
    exact floorMag_unique hd ((scale _).mpr hlo) (Nat.lt_of_not_le fun hle => hhi.not_ge ((scale _).mp hle))
  rw [roundMag_eq_nearestMag, roundMag_eq_nearestMag]
  unfold nearestMag
  simp only [hfloor, (scale2 _).1, (scale2 _).2]

/-- The value of an encoding rounds to that encoding. -/
theorem roundMag_exact {m d : Nat} (hd : 0 < d) (hm : m < infMag) : roundMag (magValue m * d) d = m := by
  have hnext : magValue m * d < magValue (m + 1) * d :=
    Nat.mul_lt_mul_of_pos_right (magValue_strictMono (Nat.lt_succ_self m)) hd
  have hfloor : floorMag (magValue m * d) d = m := floorMag_unique hd le_rfl hnext
  rw [roundMag_eq_nearestMag, nearestMag, hfloor, if_pos (by rw [add_mul]; omega), min_eq_left hm.le]

@[simp] theorem roundMag_zero (d : Nat) : roundMag 0 d = 0 := by
  simp [roundMag, rneDiv, quantumShift, infMag]
  omega

/-- The distance of an encoding from `n / d`, in units of 1 / d. -/
def magError (n d m : Nat) : Nat := ((magValue m : Int) * d - n).natAbs

/-- No encoding is nearer to a ratio than the one it rounds to, and where another is as near that one is even. -/
theorem magError_nearestMag_le {n d : Nat} (hd : 0 < d) (y : Nat) :
    magError n d (nearestMag n d) ≤ magError n d y ∧
    (magError n d y = magError n d (nearestMag n d) → y ≠ nearestMag n d → nearestMag n d % 2 = 0) := by
  obtain ⟨hlo, hhi⟩ := floorMag_bounds n hd
  have hy : (y < floorMag n d ∧ magValue y * d < magValue (floorMag n d) * d) ∨ y = floorMag n d ∨
      y = floorMag n d + 1 ∨
      (floorMag n d + 1 < y ∧ magValue (floorMag n d + 1) * d < magValue y * d) := by
    rcases (by omega : y < floorMag n d ∨ y = floorMag n d ∨ y = floorMag n d + 1 ∨ floorMag n d + 1 < y) with
      h | h | h | h
    · exact .inl ⟨h, Nat.mul_lt_mul_of_pos_right (magValue_strictMono h) hd⟩
    · exact .inr (.inl h)
    · exact .inr (.inr (.inl h))
    · exact .inr (.inr (.inr ⟨h, Nat.mul_lt_mul_of_pos_right (magValue_strictMono h) hd⟩))
  unfold nearestMag magError
  rw [add_mul]
  generalize floorMag n d = f at *
  simp only [← Nat.cast_mul]
  split
  · rcases hy with h | rfl | rfl | h <;> omega
  · split
    · have hr : f + f % 2 = f ∨ f + f % 2 = f + 1 := by omega
      have heven : (f + f % 2) % 2 = 0 := by omega
      refine ⟨?_, fun _ _ => heven⟩
      rcases hr with hr | hr <;> rw [hr] <;> rcases hy with h | rfl | rfl | h <;> omega
    · rcases hy with h | rfl | rfl | h <;> omega

/-- A ratio rounds to infinity from half a unit in the last place above the largest finite value on (R15). -/
theorem infMag_le_nearestMag {n d : Nat} (hd : 0 < d) :
    infMag ≤ nearestMag n d ↔ (2 ^ 54 - 1) * 2 ^ 2044 * d ≤ n := by
  have hmax : magValue (infMag - 1) = (2 ^ 53 - 1) * 2 ^ 2045 := by
    rw [show infMag - 1 = 2045 * 2 ^ 52 + (2 ^ 53 - 1) by decide]
    exact magValue_quantum (by norm_num) (.inr (by norm_num))
  have hinf : magValue infMag = 2 ^ 53 * 2 ^ 2045 := by
    rw [show infMag = 2045 * 2 ^ 52 + 2 ^ 53 by decide]
    exact magValue_quantum le_rfl (.inr (by norm_num))
  have hmid : (magValue (infMag - 1) + magValue infMag) * d = 2 * ((2 ^ 54 - 1) * 2 ^ 2044 * d) := by
    rw [hmax, hinf, pow_succ 2 2044]
    generalize 2 ^ 2044 = W
    ring_nf
  rw [← Nat.mul_le_mul_left_iff two_pos (n := (2 ^ 54 - 1) * 2 ^ 2044 * d), ← hmid]
  have hodd : (infMag - 1) % 2 = 1 := by decide
  have hpos : 0 < infMag := by decide
  clear hmax hinf hmid
  obtain ⟨hlo, hhi⟩ := floorMag_bounds n hd
  have mono : ∀ {i j : Nat}, i ≤ j → magValue i * d ≤ magValue j * d := fun h =>
    Nat.mul_le_mul_right d (magValue_strictMono.monotone h)
  unfold nearestMag
  generalize floorMag n d = f at *
  generalize infMag = I at *
  rcases Nat.lt_trichotomy (f + 1) I with h | h | h
  · have h1 := mono (show f + 1 ≤ I - 1 by omega)
    have h2 := mono (show I - 1 ≤ I by omega)
    rw [add_mul, add_mul]
    constructor
    · split <;> [skip; split] <;> omega
    · intro; omega
  · subst h
    rw [Nat.add_sub_cancel] at hodd ⊢
    split <;> [skip; split] <;> omega
  · have h1 := mono (show I ≤ f by omega)
    have h2 := mono (show I - 1 ≤ I by omega)
    rw [add_mul, add_mul]
    constructor
    · intro; omega
    · intro; split <;> [skip; split] <;> omega

theorem roundMag_eq_infMag {n d : Nat} (hd : 0 < d) :
    roundMag n d = infMag ↔ (2 ^ 54 - 1) * 2 ^ 2044 * d ≤ n := by
  rw [roundMag_eq_nearestMag, min_eq_right_iff, infMag_le_nearestMag hd]

/-- A ratio that does not round to infinity rounds to the nearest encoding. -/
theorem roundMag_of_lt {n d : Nat} (h : roundMag n d < infMag) : roundMag n d = nearestMag n d := by
  rw [roundMag_eq_nearestMag] at h ⊢
  omega

/-! ## Signs, classes and values of an encoding -/

theorem posZero_eq : posZero = ofSignMag false 0 := rfl

theorem negZero_eq : negZero = ofSignMag true 0 := rfl

theorem zero_eq (neg : Bool) : Sys2Proof.Claims.zero neg = ofSignMag neg 0 := by cases neg <;> rfl

theorem infinity_eq (neg : Bool) : Sys2Proof.Claims.infinity neg = ofSignMag neg infMag := by cases neg <;> rfl

/-- Every encoding is exactly one of a NaN, an infinity and a finite value (R13). -/
theorem class_cases (a : F64) :
    (isNaN a = true ∧ isInf a = false ∧ isFinite a = false) ∨
    (isNaN a = false ∧ isInf a = true ∧ isFinite a = false) ∨
    (isNaN a = false ∧ isInf a = false ∧ isFinite a = true) := by
  unfold isNaN isInf isFinite
  by_cases he : expField a = 2047 <;> by_cases hf : fracField a = 0 <;> simp [he, hf]

theorem isNaN_of_isFinite {a : F64} (h : isFinite a = true) : isNaN a = false := by
  rcases class_cases a with ⟨_, _, hf⟩ | ⟨_, _, hf⟩ | ⟨hn, _, _⟩
  · rw [h] at hf; cases hf
  · rw [h] at hf; cases hf
  · exact hn

theorem isInf_of_isFinite {a : F64} (h : isFinite a = true) : isInf a = false := by
  rcases class_cases a with ⟨_, _, hf⟩ | ⟨_, _, hf⟩ | ⟨_, hi, _⟩
  · rw [h] at hf; cases hf
  · rw [h] at hf; cases hf
  · exact hi

theorem isNaN_of_isInf {a : F64} (h : isInf a = true) : isNaN a = false := by
  rcases class_cases a with ⟨_, hi, _⟩ | ⟨hn, _, _⟩ | ⟨hn, _, _⟩
  · rw [h] at hi; cases hi
  · exact hn
  · exact hn

theorem isInf_ofSignMag_infMag (neg : Bool) : isInf (ofSignMag neg infMag) = true := by cases neg <;> decide

/-- No magnitude up to that of infinity is a NaN. -/
theorem isNaN_ofSignMag {neg : Bool} {m : Nat} (h : m ≤ infMag) : isNaN (ofSignMag neg m) = false := by
  rcases h.lt_or_eq with h | rfl
  · exact isNaN_of_isFinite (isFinite_ofSignMag h)
  · exact isNaN_of_isInf (isInf_ofSignMag_infMag neg)

theorem isNaN_roundUnits (neg : Bool) (n d : Nat) : isNaN (roundUnits neg n d) = false :=
  isNaN_ofSignMag (roundMag_le n d)

theorem natAbs_units (a : F64) : (units a).natAbs = magUnits a := by
  unfold units
  split <;> omega

theorem units_eq_zero {a : F64} : units a = 0 ↔ magUnits a = 0 := by
  rw [← natAbs_units, Int.natAbs_eq_zero]

theorem magUnits_ne_zero_of_isInf {a : F64} (h : isInf a = true) : magUnits a ≠ 0 := by
  obtain ⟨he, hf⟩ := isInf_iff.mp h
  unfold magUnits
  rw [he, hf, if_neg (by omega)]
  exact Nat.mul_ne_zero (by omega) (by positivity)

/-- The two zeros are the finite encodings of value 0 (R13). -/
theorem isZero_iff {a : F64} : Sys2Proof.Claims.IsZero a ↔ isFinite a = true ∧ magUnits a = 0 := by
  constructor
  · rintro (rfl | rfl) <;> decide
  · rintro ⟨hfin, hmag⟩
    obtain ⟨m, hm, ha⟩ := exists_ofSignMag hfin
    rw [ha, magUnits_ofSignMag (lt_trans hm (by decide))] at hmag
    have hm0 : m = 0 := by
      by_contra hne
      have := magValue_strictMono (Nat.pos_of_ne_zero hne)
      omega
    rw [ha, hm0]
    cases signBit a
    · exact .inl rfl
    · exact .inr rfl

/-! ## neg -/

theorem getLsbD_negZero (k : Nat) : negZero.getLsbD k = decide (k = 63) := by
  rw [negZero_eq, ← BitVec.testBit_toNat, ofSignMag_toNat (by decide), if_pos rfl, Nat.add_zero, Nat.testBit_two_pow]
  exact decide_eq_decide.mpr eq_comm

theorem getLsbD_fneg {a : F64} (h : isNaN a = false) (k : Nat) :
    (fneg a).getLsbD k = (a.getLsbD k ^^ decide (k = 63)) := by
  rw [fneg, h, if_neg (by decide), BitVec.getLsbD_xor, getLsbD_negZero]

@[simp] theorem signBit_fneg {a : F64} (h : isNaN a = false) : signBit (fneg a) = !signBit a := by
  unfold signBit
  rw [getLsbD_fneg h]
  simp

theorem extractLsb'_fneg {a : F64} (h : isNaN a = false) {i len : Nat} (hi : i + len ≤ 63) :
    (fneg a).extractLsb' i len = a.extractLsb' i len := by
  ext k hk
  rw [BitVec.getElem_extractLsb', BitVec.getElem_extractLsb', getLsbD_fneg h, decide_eq_false (by omega),
    Bool.xor_false]

theorem expField_fneg {a : F64} (h : isNaN a = false) : expField (fneg a) = expField a := by
  rw [expField, extractLsb'_fneg h (by omega), expField]

theorem fracField_fneg {a : F64} (h : isNaN a = false) : fracField (fneg a) = fracField a := by
  rw [fracField, extractLsb'_fneg h (by omega), fracField]

@[simp] theorem magUnits_fneg {a : F64} (h : isNaN a = false) : magUnits (fneg a) = magUnits a := by
  rw [magUnits, expField_fneg h, fracField_fneg h, magUnits]

@[simp] theorem isInf_fneg {a : F64} (h : isNaN a = false) : isInf (fneg a) = isInf a := by
  rw [isInf, expField_fneg h, fracField_fneg h, isInf]

@[simp] theorem isFinite_fneg {a : F64} (h : isNaN a = false) : isFinite (fneg a) = isFinite a := by
  rw [isFinite, expField_fneg h, isFinite]

@[simp] theorem isNaN_fneg (a : F64) : isNaN (fneg a) = isNaN a := by
  cases h : isNaN a
  · rw [isNaN, expField_fneg h, fracField_fneg h, ← isNaN, h]
  · rw [fneg, h, if_pos rfl]
    decide

theorem units_fneg {a : F64} (h : isNaN a = false) : units (fneg a) = -units a := by
  rw [units, signBit_fneg h, magUnits_fneg h, units]
  cases signBit a <;> simp

end Sys2Proof.Machine
end

section
/-! SUPPORT. The four operations on finite operands round their exact results (spec/00_scope.md R15): the proofs of the
obligations O38 and O41. -/

namespace Sys2Proof.Machine

open Sys2Proof.Claims (IsRN)

/-! ## Rounding an exact value -/

/-- The distance of an encoding's value from the ratio, as a rational. -/
theorem abs_magValue_sub {n d : Nat} (hd : 0 < d) (m : Nat) : |(magValue m : ℚ) - n / d| = magError n d m / d := by
  have hd' : (0 : ℚ) < d := by exact_mod_cast hd
  have hcast : (magError n d m : ℚ) = |(magValue m : ℚ) * d - n| := by
    rw [magError, Nat.cast_natAbs]
    push_cast
    rfl
  rw [hcast, ← abs_of_pos hd', ← abs_div, abs_of_pos hd', sub_div, mul_div_cancel_right₀ _ hd'.ne']

/-- The value of an encoding with a sign. -/
theorem units_ofSignMag_cast {neg : Bool} {m : Nat} (h : m < 2 ^ 63) :
    (units (ofSignMag neg m) : ℚ) = if neg then -(magValue m : ℚ) else magValue m := by
  rw [units_ofSignMag h]
  split
  · rw [Int.cast_neg, Int.cast_natCast]
  · rw [Int.cast_natCast]

/-- Of an encoding with the other sign, +0.0 is at least as near; and as near only if it is itself a zero. -/
theorem abs_neg_magValue_sub {n d m : Nat} (hd : 0 < d) :
    |-(magValue m : ℚ) - n / d| = magValue m + |(magValue 0 : ℚ) - n / d| := by
  have hn : (0 : ℚ) ≤ (n : ℚ) / d := by positivity
  have hm : (0 : ℚ) ≤ magValue m := Nat.cast_nonneg _
  rw [magValue_zero, Nat.cast_zero, zero_sub, abs_neg, abs_of_nonneg hn, abs_of_nonpos (by linarith)]
  ring

/-- The nearest encoding is nearest among all finite binary64 of either sign, ties to even. -/
theorem nearest_of_sign {n d y : Nat} (hd : 0 < d) (other : Bool) :
    |(magValue (nearestMag n d) : ℚ) - n / d| ≤ |(if other then -(magValue y : ℚ) else magValue y) - n / d| ∧
    (|(if other then -(magValue y : ℚ) else magValue y) - n / d| = |(magValue (nearestMag n d) : ℚ) - n / d| →
      (if other then -(magValue y : ℚ) else magValue y) ≠ magValue (nearestMag n d) → nearestMag n d % 2 = 0) := by
  have hd' : (0 : ℚ) < d := by exact_mod_cast hd
  have le : ∀ m, |(magValue (nearestMag n d) : ℚ) - n / d| ≤ |(magValue m : ℚ) - n / d| := fun m => by
    rw [abs_magValue_sub hd, abs_magValue_sub hd, div_le_div_iff_of_pos_right hd', Nat.cast_le]
    exact (magError_nearestMag_le hd m).1
  have tie : ∀ m, |(magValue m : ℚ) - n / d| = |(magValue (nearestMag n d) : ℚ) - n / d| → m ≠ nearestMag n d →
      nearestMag n d % 2 = 0 := fun m h hne => by
    rw [abs_magValue_sub hd, abs_magValue_sub hd, div_left_inj' hd'.ne', Nat.cast_inj] at h
    exact (magError_nearestMag_le hd m).2 h hne
  cases other
  · exact ⟨le y, fun h hne => tie y h fun hy => hne (by rw [hy]; rfl)⟩
  · rw [if_pos rfl, abs_neg_magValue_sub hd]
    have hy : (0 : ℚ) ≤ magValue y := Nat.cast_nonneg _
    have h0 := le 0
    refine ⟨by linarith, fun h hne => tie 0 (by linarith) fun hzero => hne ?_⟩
    rw [← hzero, magValue_zero, Nat.cast_zero]
    linarith

/-- Rounding a signed ratio gives the RN of R15. -/
theorem isRN_roundUnits {neg : Bool} {n d : Nat} {v : ℚ} (hd : 0 < d)
    (hv : v = if neg then -((n : ℚ) / d) else (n : ℚ) / d) : IsRN (roundUnits neg n d) v := by
  have hd' : (0 : ℚ) < d := by exact_mod_cast hd
  have hn : (0 : ℚ) ≤ (n : ℚ) / d := by positivity
  have habs : |v| = (n : ℚ) / d := by
    rw [hv]
    split
    · rw [abs_neg, abs_of_nonneg hn]
    · exact abs_of_nonneg hn
  have hbound : ((2 ^ 54 - 1) * 2 ^ 2044 : ℚ) ≤ |v| ↔ roundMag n d = infMag := by
    rw [habs, le_div_iff₀ hd', roundMag_eq_infMag hd, ← Nat.cast_le (α := ℚ)]
    rw [Nat.cast_mul, Nat.cast_mul, Nat.cast_pow, Nat.cast_ofNat, Nat.cast_sub (by norm_num), Nat.cast_pow,
      Nat.cast_ofNat, Nat.cast_one]
  have h63 : roundMag n d < 2 ^ 63 := (roundMag_le n d).trans_lt (by decide)
  refine ⟨fun hne => ?_, fun h => ?_, fun h => ?_⟩
  · rw [roundUnits, signBit_ofSignMag h63]
    rcases neg with _ | _
    · exact (decide_eq_false (by rw [hv]; exact not_lt.mpr hn)).symm
    · rw [if_pos rfl] at hv
      refine (decide_eq_true (lt_of_le_of_ne ?_ hne)).symm
      rw [hv]
      exact neg_nonpos.mpr hn
  · rw [roundUnits, hbound.mp h]
    exact isInf_ofSignMag_infMag neg
  · have hlt : roundMag n d < infMag := lt_of_le_of_ne (roundMag_le n d) fun he => h.not_ge (hbound.mpr he)
    refine ⟨isFinite_ofSignMag hlt, fun z hz => ?_⟩
    obtain ⟨y, hy, hzy⟩ := exists_ofSignMag hz
    have key := nearest_of_sign (n := n) (y := y) hd (neg != signBit z)
    have hparity : (roundUnits neg n d).toNat % 2 = roundMag n d % 2 := by
      rw [roundUnits, ofSignMag_toNat h63]
      split <;> omega
    have hzv := units_ofSignMag_cast (neg := signBit z) (lt_trans hy (by decide))
    rw [← hzy] at hzv
    rw [hparity, ← (Int.cast_injective (α := ℚ)).ne_iff, roundUnits, units_ofSignMag_cast h63, hzv, hv,
      roundMag_of_lt hlt]
    have flip : ∀ u w : ℚ, |-u - -w| = |u - w| := fun u w => by rw [neg_sub_neg, abs_sub_comm]
    have flip' : ∀ u w : ℚ, |u - -w| = |-u - w| := fun u w => by rw [← abs_neg]; congr 1; ring
    generalize signBit z = zneg at key ⊢
    cases neg <;> cases zneg <;> simp only [Bool.false_bne, Bool.true_bne, Bool.not_true, Bool.not_false, if_true,
      Bool.false_eq_true, if_false, flip, flip'] at key ⊢
    · exact key
    · exact key
    · exact ⟨key.1, fun h hne => key.2 h fun he => hne (by rw [← he, neg_neg])⟩
    · exact ⟨key.1, fun h hne => key.2 h fun he => hne (by rw [he])⟩

/-! ## The operations on finite operands -/

theorem fadd_of_isFinite {a b : F64} (ha : isFinite a = true) (hb : isFinite b = true) :
    fadd a b = if units a + units b = 0 then ofSignMag (signBit a && signBit b) 0
      else roundUnits (decide (units a + units b < 0)) (units a + units b).natAbs 1 := by
  unfold fadd
  simp only [isNaN_of_isFinite ha, isNaN_of_isFinite hb, isInf_of_isFinite ha, isInf_of_isFinite hb, Bool.or_self,
    Bool.false_eq_true, if_false]
  split
  · cases signBit a && signBit b <;> rfl
  · rfl

theorem fmul_of_isFinite {a b : F64} (ha : isFinite a = true) (hb : isFinite b = true) :
    fmul a b = roundUnits (signBit a != signBit b) (magUnits a * magUnits b) (2 ^ 1074) := by
  simp only [fmul, isNaN_of_isFinite ha, isNaN_of_isFinite hb, isInf_of_isFinite ha, isInf_of_isFinite hb, Bool.or_self,
    Bool.false_eq_true, if_false]

theorem fdiv_of_isFinite {a b : F64} (ha : isFinite a = true) (hb : isFinite b = true) (hne : magUnits b ≠ 0) :
    fdiv a b = roundUnits (signBit a != signBit b) (magUnits a * 2 ^ 1074) (magUnits b) := by
  simp only [fdiv, isNaN_of_isFinite ha, isNaN_of_isFinite hb, isInf_of_isFinite ha, isInf_of_isFinite hb, Bool.or_self,
    Bool.false_eq_true, if_false, hne]

/-- An exact zero of either sign rounds to itself. -/
theorem roundUnits_zero (neg : Bool) (d : Nat) : roundUnits neg 0 d = ofSignMag neg 0 := by
  rw [roundUnits, roundMag_zero]

theorem isRN_fadd {a b : F64} (ha : isFinite a = true) (hb : isFinite b = true) :
    IsRN (fadd a b) (units a + units b) := by
  rw [fadd_of_isFinite ha hb, ← Int.cast_add]
  generalize units a + units b = z
  split
  · next hz =>
    rw [← roundUnits_zero _ 1]
    refine isRN_roundUnits one_pos ?_
    simp [hz]
  · refine isRN_roundUnits one_pos ?_
    rw [Nat.cast_one, div_one, Nat.cast_natAbs]
    by_cases hz : z < 0
    · rw [if_pos (decide_eq_true hz), abs_of_neg hz, Int.cast_neg, neg_neg]
    · rw [if_neg (by simpa using hz), abs_of_nonneg (not_lt.mp hz)]

theorem units_cast (a : F64) : (units a : ℚ) = if signBit a then -(magUnits a : ℚ) else magUnits a := by
  unfold units
  split <;> simp

theorem isRN_fmul {a b : F64} (ha : isFinite a = true) (hb : isFinite b = true) :
    IsRN (fmul a b) (units a * units b / 2 ^ 1074) := by
  rw [fmul_of_isFinite ha hb]
  refine isRN_roundUnits (Nat.two_pow_pos 1074) ?_
  rw [units_cast, units_cast, Nat.cast_mul, Nat.cast_pow, Nat.cast_ofNat]
  generalize (2 : ℚ) ^ 1074 = W
  cases signBit a <;> cases signBit b <;> simp [neg_div]

theorem isRN_fdiv {a b : F64} (ha : isFinite a = true) (hb : isFinite b = true) (hne : magUnits b ≠ 0) :
    IsRN (fdiv a b) (units a * 2 ^ 1074 / units b) := by
  rw [fdiv_of_isFinite ha hb hne]
  refine isRN_roundUnits (Nat.pos_of_ne_zero hne) ?_
  rw [units_cast, units_cast, Nat.cast_mul, Nat.cast_pow, Nat.cast_ofNat]
  generalize (2 : ℚ) ^ 1074 = W
  cases signBit a <;> cases signBit b <;> simp [neg_div, div_neg]

/-! ## Exact results -/

/-- A significand of at most 53 bits at any quantum is a binary64 or above them all (R13). -/
theorem exists_magValue (e : Nat) : ∀ {q : Nat}, q ≤ 2 ^ 53 → ∃ m, magValue m = q * 2 ^ e := by
  induction e with
  | zero => exact fun {q} hq => ⟨0 * 2 ^ 52 + q, magValue_quantum hq (.inl rfl)⟩
  | succ e ih =>
    intro q hq
    by_cases hbig : 2 ^ 52 ≤ q
    · exact ⟨(e + 1) * 2 ^ 52 + q, magValue_quantum hq (.inr hbig)⟩
    · obtain ⟨m, hm⟩ := ih (q := 2 * q) (by omega)
      exact ⟨m, by rw [hm, pow_succ]; ring⟩

/-- Every encoding is a significand of at most 53 bits at some quantum. -/
theorem magValue_eq_significand (m : Nat) : ∃ q e, q ≤ 2 ^ 53 ∧ magValue m = q * 2 ^ e := by
  unfold magValue
  split
  · exact ⟨m % 2 ^ 52, 0, by omega, by rw [pow_zero, mul_one]⟩
  · exact ⟨_, _, by omega, rfl⟩

/-- Twice a binary64 is one, or above them all. -/
theorem exists_magValue_double (m : Nat) : ∃ m', magValue m' = 2 * magValue m := by
  obtain ⟨q, e, hq, hm⟩ := magValue_eq_significand m
  obtain ⟨m', hm'⟩ := exists_magValue (e + 1) hq
  exact ⟨m', by rw [hm', hm, pow_succ]; ring⟩

theorem magValue_lt_iff {i j : Nat} : magValue i < magValue j ↔ i < j := magValue_strictMono.lt_iff_lt

theorem magValue_eq_zero {m : Nat} : magValue m = 0 ↔ m = 0 := by
  rw [← magValue_zero, magValue_strictMono.injective.eq_iff, magValue_zero]

/-- Rounding the value of an encoding gives it back (R15). -/
theorem roundUnits_exact {neg : Bool} {m d : Nat} (hd : 0 < d) (hm : m < infMag) :
    roundUnits neg (magValue m * d) d = ofSignMag neg m := by
  rw [roundUnits, roundMag_exact hd hm]

end Sys2Proof.Machine

namespace Sys2Proof.Claims

open Sys2Proof.Machine

/-- Settles O38: each operation rounds its exact ratio, and the rounding finds the nearest encoding. -/
theorem roundingIsNearestEven : Obligations.RoundingIsNearestEven := by
  refine ⟨fun a b ha hb => ⟨isRN_fadd ha hb, ?_, isRN_fmul ha hb, fun hne => isRN_fdiv ha hb (mt units_eq_zero.mpr hne),
    fun h => ?_, fun h => ?_, fun h => ?_, fun h hne => ?_⟩, fun n d y hd hy => ⟨roundMag_eq_infMag hd, roundMag_le n d,
    fun hlt => ?_⟩⟩
  · have hb' := isNaN_of_isFinite hb
    have h := isRN_fadd (b := fneg b) ha (by rwa [isFinite_fneg hb'])
    rwa [units_fneg hb', Int.cast_neg, ← sub_eq_add_neg] at h
  · rw [fadd_of_isFinite ha hb, if_pos h, zero_eq]
  · have hb' := isNaN_of_isFinite hb
    rw [fsub, fadd_of_isFinite ha (by rwa [isFinite_fneg hb']), units_fneg hb', h, if_pos (add_neg_cancel _),
      signBit_fneg hb', zero_eq]
  · have hmag : magUnits a * magUnits b = 0 :=
      Nat.mul_eq_zero.mpr (h.imp units_eq_zero.mp units_eq_zero.mp)
    rw [fmul_of_isFinite ha hb, hmag, roundUnits_zero, zero_eq]
  · rw [fdiv_of_isFinite ha hb (mt units_eq_zero.mpr hne), units_eq_zero.mp h, Nat.zero_mul, roundUnits_zero, zero_eq]
  · have hvalue : ∀ m, m < infMag → ((units (ofSignMag false m)) * d - n : Int).natAbs = magError n d m := fun m hm => by
      rw [units_ofSignMag (lt_trans hm (by decide))]
      rfl
    simp only
    rw [hvalue _ hlt, hvalue _ hy, roundMag_of_lt hlt]
    exact magError_nearestMag_le hd y

/-- Settles O41: an integer of at most 53 bits is a significand at the quantum of 1. -/
theorem smallIntegersConvertExactly : Obligations.SmallIntegersConvertExactly := by
  intro n hn
  obtain ⟨m, hm⟩ := exists_magValue 1074 hn
  have hlt : m < infMag := by
    rw [← magValue_lt_iff, hm, show infMag = 2045 * 2 ^ 52 + 2 ^ 53 by decide,
      magValue_quantum le_rfl (.inr (by norm_num))]
    exact Nat.mul_lt_mul_of_le_of_lt hn (Nat.pow_lt_pow_right one_lt_two (by norm_num)) (Nat.two_pow_pos 53)
  have hround : f64OfInt n = ofSignMag (decide (n < 0)) m := by
    have h := roundUnits_exact (neg := decide (n < 0)) one_pos hlt
    rwa [hm, Nat.mul_one] at h
  refine ⟨hround ▸ isFinite_ofSignMag hlt, ?_, ?_⟩
  · rw [hround, units_ofSignMag (lt_trans hlt (by decide)), hm, Nat.cast_mul, Nat.cast_pow, Nat.cast_ofNat]
    by_cases hneg : n < 0
    · rw [if_pos (decide_eq_true hneg), Int.ofNat_natAbs_of_nonpos hneg.le, neg_mul, neg_neg]
    · rw [if_neg (by simpa using hneg), Int.natAbs_of_nonneg (not_lt.mp hneg)]
  · rintro rfl
    rw [f64OfInt, Int.natAbs_zero, Nat.zero_mul, roundUnits_zero]
    rfl

end Sys2Proof.Claims
end

section
/-! SUPPORT. NaN and infinite operands (spec/00_scope.md R15), and the kernels of FIRGEN (spec/42_firgen.md R163, R164,
R168): the proofs of the obligations O31, O32 and O39. -/

namespace Sys2Proof.Machine

/-! ## NaN and infinite operands -/

theorem fadd_of_isNaN {a b : F64} (h : isNaN a = true ∨ isNaN b = true) : fadd a b = cnan := by
  rw [fadd, if_pos (by simpa using h)]

theorem fmul_of_isNaN {a b : F64} (h : isNaN a = true ∨ isNaN b = true) : fmul a b = cnan := by
  simp only [fmul]
  rw [if_pos (by simpa using h)]

theorem fdiv_of_isNaN {a b : F64} (h : isNaN a = true ∨ isNaN b = true) : fdiv a b = cnan := by
  simp only [fdiv]
  rw [if_pos (by simpa using h)]

theorem fadd_of_isInf {a b : F64} (ha : isInf a = true) (hb : isNaN b = false) :
    fadd a b = if isInf b = true ∧ signBit a ≠ signBit b then cnan else a := by
  simp [fadd, isNaN_of_isInf ha, ha, hb]

/-- An infinity absorbs a finite addend (log 17). -/
theorem fadd_isInf_isFinite {a b : F64} (ha : isInf a = true) (hb : isFinite b = true) : fadd a b = a := by
  rw [fadd_of_isInf ha (isNaN_of_isFinite hb), isInf_of_isFinite hb, if_neg (by simp)]

theorem fmul_of_isInf {a b : F64} (ha : isInf a = true) (hb : isNaN b = false) :
    fmul a b = if magUnits b = 0 then cnan else ofSignMag (signBit a != signBit b) infMag := by
  simp [fmul, isNaN_of_isInf ha, ha, hb, magUnits_ne_zero_of_isInf ha]

theorem fdiv_of_isInf {a b : F64} (ha : isInf a = true) (hb : isNaN b = false) :
    fdiv a b = if isInf b = true then cnan else ofSignMag (signBit a != signBit b) infMag := by
  simp [fdiv, isNaN_of_isInf ha, ha, hb]

theorem fdiv_isFinite_isInf {a b : F64} (ha : isFinite a = true) (hb : isInf b = true) :
    fdiv a b = ofSignMag (signBit a != signBit b) 0 := by
  simp [fdiv, isNaN_of_isFinite ha, isInf_of_isFinite ha, isNaN_of_isInf hb, hb]

theorem fdiv_by_zero {a b : F64} (ha : isFinite a = true) (hb : isFinite b = true) (hzero : magUnits b = 0) :
    fdiv a b = if magUnits a = 0 then cnan else ofSignMag (signBit a != signBit b) infMag := by
  simp [fdiv, isNaN_of_isFinite ha, isInf_of_isFinite ha, isNaN_of_isFinite hb, isInf_of_isFinite hb, hzero]

/-! ## When a result is a NaN -/

theorem isNaN_cnan : isNaN cnan = true := by decide

theorem isNaN_ite_cnan {p : Prop} [Decidable p] {x : F64} (hx : isNaN x = false) :
    isNaN (if p then cnan else x) = true ↔ p := by
  split <;> simp_all [isNaN_cnan]

/-- Infinities of opposite sign have no sum (R15). -/
theorem isNaN_fadd (a b : F64) : isNaN (fadd a b) = true ↔
    (isNaN a = true ∨ isNaN b = true) ∨ (isInf a = true ∧ isInf b = true ∧ signBit a ≠ signBit b) := by
  by_cases hnan : isNaN a = true ∨ isNaN b = true
  · simp only [fadd_of_isNaN hnan, isNaN_cnan, hnan, true_or]
  obtain ⟨hna, hnb⟩ : isNaN a = false ∧ isNaN b = false := by simpa using hnan
  rcases class_cases a with ⟨h, -, -⟩ | ⟨-, ha, -⟩ | ⟨-, ha', ha⟩
  · rw [hna] at h; cases h
  · rw [fadd_of_isInf ha hnb, isNaN_ite_cnan hna]
    simp [hna, hnb, ha]
  · rcases class_cases b with ⟨h, -, -⟩ | ⟨-, hb, -⟩ | ⟨-, -, hb⟩
    · rw [hnb] at h; cases h
    · rw [fadd_comm, fadd_isInf_isFinite hb ha]
      simp [hna, hnb, ha']
    · have hfin : isNaN (fadd a b) = false := by
        rw [fadd_of_isFinite ha hb]
        split
        · exact isNaN_ofSignMag (Nat.zero_le _)
        · exact isNaN_roundUnits _ _ _
      simp [hfin, hna, hnb, ha']

theorem isNaN_fsub (a b : F64) : isNaN (fsub a b) = true ↔
    (isNaN a = true ∨ isNaN b = true) ∨ (isInf a = true ∧ isInf b = true ∧ signBit a = signBit b) := by
  rw [fsub, isNaN_fadd, isNaN_fneg]
  cases hb : isNaN b
  · rw [isInf_fneg hb, signBit_fneg hb]
    cases signBit a <;> cases signBit b <;> simp
  · simp

/-- An infinity times a zero has no value (R15). -/
theorem isNaN_fmul_of_isInf {a b : F64} (ha : isInf a = true) (hb : isNaN b = false) :
    isNaN (fmul a b) = true ↔ magUnits b = 0 := by
  rw [fmul_of_isInf ha hb, isNaN_ite_cnan (isNaN_ofSignMag le_rfl)]

theorem isNaN_fmul (a b : F64) : isNaN (fmul a b) = true ↔ (isNaN a = true ∨ isNaN b = true) ∨
    (isInf a = true ∧ Claims.IsZero b) ∨ (Claims.IsZero a ∧ isInf b = true) := by
  by_cases hnan : isNaN a = true ∨ isNaN b = true
  · simp only [fmul_of_isNaN hnan, isNaN_cnan, hnan, true_or]
  obtain ⟨hna, hnb⟩ : isNaN a = false ∧ isNaN b = false := by simpa using hnan
  rw [isZero_iff, isZero_iff]
  rcases class_cases a with ⟨h, -, -⟩ | ⟨-, ha, ha'⟩ | ⟨-, ha', ha⟩
  · rw [hna] at h; cases h
  · rw [isNaN_fmul_of_isInf ha hnb]
    rcases class_cases b with ⟨h, -, -⟩ | ⟨-, hb, hb'⟩ | ⟨-, hb', hb⟩
    · rw [hnb] at h; cases h
    · simp [hna, hnb, ha', hb', magUnits_ne_zero_of_isInf hb]
    · simp [hna, hnb, ha, hb, hb']
  · rcases class_cases b with ⟨h, -, -⟩ | ⟨-, hb, hb'⟩ | ⟨-, hb', hb⟩
    · rw [hnb] at h; cases h
    · rw [fmul_comm, isNaN_fmul_of_isInf hb hna]
      simp [hna, hnb, ha, ha', hb]
    · simp [fmul_of_isFinite ha hb, isNaN_roundUnits, hna, hnb, ha', hb']

theorem isNaN_fdiv (a b : F64) : isNaN (fdiv a b) = true ↔ (isNaN a = true ∨ isNaN b = true) ∨
    (isInf a = true ∧ isInf b = true) ∨ (Claims.IsZero a ∧ Claims.IsZero b) := by
  by_cases hnan : isNaN a = true ∨ isNaN b = true
  · simp only [fdiv_of_isNaN hnan, isNaN_cnan, hnan, true_or]
  obtain ⟨hna, hnb⟩ : isNaN a = false ∧ isNaN b = false := by simpa using hnan
  rw [isZero_iff, isZero_iff]
  rcases class_cases a with ⟨h, -, -⟩ | ⟨-, ha, ha'⟩ | ⟨-, ha', ha⟩
  · rw [hna] at h; cases h
  · rw [fdiv_of_isInf ha hnb, isNaN_ite_cnan (isNaN_ofSignMag le_rfl)]
    simp [hna, hnb, ha, ha']
  · rcases class_cases b with ⟨h, -, -⟩ | ⟨-, hb, hb'⟩ | ⟨-, hb', hb⟩
    · rw [hnb] at h; cases h
    · simp [fdiv_isFinite_isInf ha hb, isNaN_ofSignMag, hna, hnb, ha', hb']
    · by_cases hzero : magUnits b = 0
      · rw [fdiv_by_zero ha hb hzero, isNaN_ite_cnan (isNaN_ofSignMag le_rfl)]
        simp [hna, hnb, ha, ha', hb, hzero]
      · simp [fdiv_of_isFinite ha hb hzero, isNaN_roundUnits, hna, hnb, ha', hzero]

/-! ## A NaN result is CNAN -/

theorem fadd_eq_cnan {a b : F64} (h : isNaN (fadd a b) = true) : fadd a b = cnan := by
  rcases (isNaN_fadd a b).mp h with hnan | ⟨ha, hb, hs⟩
  · exact fadd_of_isNaN hnan
  · rw [fadd_of_isInf ha (isNaN_of_isInf hb), if_pos ⟨hb, hs⟩]

theorem fmul_eq_cnan {a b : F64} (h : isNaN (fmul a b) = true) : fmul a b = cnan := by
  rcases (isNaN_fmul a b).mp h with hnan | ⟨ha, hb⟩ | ⟨ha, hb⟩
  · exact fmul_of_isNaN hnan
  · obtain ⟨hfin, hzero⟩ := isZero_iff.mp hb
    rw [fmul_of_isInf ha (isNaN_of_isFinite hfin), if_pos hzero]
  · obtain ⟨hfin, hzero⟩ := isZero_iff.mp ha
    rw [fmul_comm, fmul_of_isInf hb (isNaN_of_isFinite hfin), if_pos hzero]

theorem fdiv_eq_cnan {a b : F64} (h : isNaN (fdiv a b) = true) : fdiv a b = cnan := by
  rcases (isNaN_fdiv a b).mp h with hnan | ⟨ha, hb⟩ | ⟨ha, hb⟩
  · exact fdiv_of_isNaN hnan
  · rw [fdiv_of_isInf ha (isNaN_of_isInf hb), if_pos hb]
  · obtain ⟨hfa, hza⟩ := isZero_iff.mp ha
    obtain ⟨hfb, hzb⟩ := isZero_iff.mp hb
    rw [fdiv_by_zero hfa hfb hzb, if_pos hza]

/-! ## The low-pass and the high-pass kernel -/

/-- Doubling a value that stays below another finite one is exact. -/
theorem fmul_two_exact {a b : F64} (ha : isFinite a = true) (hb : isFinite b = true) (hlt : 2 * magUnits a < magUnits b) :
    isFinite (fmul f64Two a) = true ∧ signBit (fmul f64Two a) = signBit a ∧
      magUnits (fmul f64Two a) = 2 * magUnits a := by
  have h63 : ∀ {m : Nat}, m < infMag → m < 2 ^ 63 := fun h => lt_trans h (by decide)
  obtain ⟨m, hm, hma⟩ := exists_ofSignMag ha
  obtain ⟨mb, hmb, hmb'⟩ := exists_ofSignMag hb
  have hmag : magUnits a = magValue m := by rw [hma, magUnits_ofSignMag (h63 hm)]
  have hmagb : magUnits b = magValue mb := by rw [hmb', magUnits_ofSignMag (h63 hmb)]
  obtain ⟨m', hm'⟩ := exists_magValue_double m
  have hlt' : m' < infMag := lt_trans (magValue_lt_iff.mp (by rw [hm', ← hmag, ← hmagb]; exact hlt)) hmb
  have htwo : magUnits f64Two = 2 * 2 ^ 1074 := by decide +kernel
  have hprod : fmul f64Two a = ofSignMag (signBit a) m' := by
    rw [fmul_of_isFinite (by decide) ha, htwo, hmag, show 2 * 2 ^ 1074 * magValue m = magValue m' * 2 ^ 1074 by
      rw [hm', Nat.mul_right_comm], roundUnits_exact (Nat.two_pow_pos 1074) hlt']
    rw [show signBit f64Two = false by decide, Bool.false_bne]
  rw [hprod]
  exact ⟨isFinite_ofSignMag hlt', signBit_ofSignMag (h63 hlt'), by rw [magUnits_ofSignMag (h63 hlt'), hm', hmag]⟩

/-- A positive value has its sign bit clear. -/
theorem units_of_pos {a : F64} (h : 0 < units a) : signBit a = false ∧ units a = magUnits a := by
  unfold units at h ⊢
  cases hs : signBit a
  · exact ⟨rfl, rfl⟩
  · rw [hs, if_pos rfl] at h
    omega

/-- Subtracting a finite value from +0.0 gives one of the same magnitude, of the other sign unless it is a zero. -/
theorem fsub_posZero {a : F64} (ha : isFinite a = true) :
    isFinite (fsub posZero a) = true ∧ magUnits (fsub posZero a) = magUnits a ∧
      (magUnits a ≠ 0 → signBit (fsub posZero a) = !signBit a) := by
  have hna := isNaN_of_isFinite ha
  obtain ⟨m, hm, hma⟩ := exists_ofSignMag ha
  have h63 : m < 2 ^ 63 := lt_trans hm (by decide)
  have hmag : magUnits a = magValue m := by rw [hma, magUnits_ofSignMag h63]
  have hzero : units posZero + units (fneg a) = -units a := by
    rw [units_fneg hna, show units posZero = 0 by decide, zero_add]
  have hsub := fadd_of_isFinite (a := posZero) (b := fneg a) (by decide) (by rwa [isFinite_fneg hna])
  rw [hzero] at hsub
  rw [fsub, hsub]
  by_cases hz : magUnits a = 0
  · rw [if_pos (by rw [units_eq_zero.mpr hz, neg_zero])]
    refine ⟨isFinite_ofSignMag (by decide), ?_, fun h => absurd hz h⟩
    rw [magUnits_ofSignMag (by decide), hz, magValue_zero]
  · have hsign : decide (-units a < 0) = !signBit a := by
      unfold units
      cases signBit a
      · simp; omega
      · simp
    rw [if_neg (by rwa [neg_eq_zero, units_eq_zero]), Int.natAbs_neg, natAbs_units, hsign, hmag,
      ← Nat.mul_one (magValue m), roundUnits_exact one_pos hm]
    refine ⟨isFinite_ofSignMag hm, ?_, fun _ => signBit_ofSignMag h63⟩
    rw [magUnits_ofSignMag h63, Nat.mul_one]

/-- Only finite operands have a finite product. -/
theorem isFinite_of_fmul {a b : F64} (h : isFinite (fmul a b) = true) : isFinite a = true ∧ isFinite b = true := by
  have inf_left : ∀ {x y : F64}, isInf x = true → isNaN y = false → isFinite (fmul x y) = false := fun hx hy => by
    rw [fmul_of_isInf hx hy]
    split
    · decide
    · cases signBit _ != signBit _ <;> decide
  have hnan : ¬(isNaN a = true ∨ isNaN b = true) := fun hn => by
    rw [fmul_of_isNaN hn] at h
    cases h
  obtain ⟨hna, hnb⟩ : isNaN a = false ∧ isNaN b = false := by simpa using hnan
  rcases class_cases a with ⟨hn, -, -⟩ | ⟨-, ha, -⟩ | ⟨-, -, ha⟩
  · rw [hna] at hn; cases hn
  · rw [inf_left ha hnb] at h; cases h
  · rcases class_cases b with ⟨hn, -, -⟩ | ⟨-, hb, -⟩ | ⟨-, -, hb⟩
    · rw [hnb] at hn; cases hn
    · rw [fmul_comm, inf_left hb hna] at h; cases h
    · exact ⟨ha, hb⟩

/-- Finite values of exact sum 0 add up to a zero. -/
theorem fadd_of_cancel {a b : F64} (ha : isFinite a = true) (hb : isFinite b = true) (h : units a + units b = 0) :
    fadd a b = posZero ∨ fadd a b = negZero := by
  rw [fadd_of_isFinite ha hb, if_pos h]
  cases signBit a && signBit b
  · exact .inl rfl
  · exact .inr rfl

/-- The products of a value and of its negative with one factor cancel. -/
theorem fadd_fmul_cancel {a b w : F64} (hfin : isFinite (fmul a w) = true) (hb : isFinite b = true)
    (hmag : magUnits b = magUnits a) (hsign : magUnits a ≠ 0 → signBit b = !signBit a) :
    fadd (fmul a w) (fmul b w) = posZero ∨ fadd (fmul a w) (fmul b w) = negZero := by
  obtain ⟨ha, hw⟩ := isFinite_of_fmul hfin
  rw [fmul_of_isFinite ha hw] at hfin ⊢
  rw [fmul_of_isFinite hb hw, hmag]
  have hlt : roundMag (magUnits a * magUnits w) (2 ^ 1074) < infMag := by
    refine lt_of_le_of_ne (roundMag_le _ _) fun he => ?_
    rw [roundUnits, he] at hfin
    revert hfin
    cases signBit a != signBit w <;> decide
  have h63 := lt_trans hlt (show infMag < 2 ^ 63 by decide)
  refine fadd_of_cancel hfin (isFinite_ofSignMag hlt) ?_
  unfold roundUnits
  rw [units_ofSignMag h63, units_ofSignMag h63]
  by_cases hz : magUnits a = 0
  · rw [hz, Nat.zero_mul, roundMag_zero, magValue_zero]
    simp
  · rw [hsign hz]
    cases signBit a <;> cases signBit w <;> simp

end Sys2Proof.Machine

namespace Sys2Proof.Claims

open Sys2Proof.Machine

/-- Settles O31: the doubled cutoff is exact, and a quotient and the argument of the sine depend on the ratio only. -/
theorem lowPassDependsOnRatioOnly : Obligations.LowPassDependsOnRatioOnly := by
  intro fc fs fc' fs' n hfc hfs hfc' hfs' hpos hpos' hlt hlt' hratio
  obtain ⟨hsc, hc⟩ := units_of_pos hpos
  obtain ⟨hsc', hc'⟩ := units_of_pos hpos'
  obtain ⟨hss, hs⟩ := units_of_pos (show 0 < units fs by omega)
  obtain ⟨hss', hs'⟩ := units_of_pos (show 0 < units fs' by omega)
  unfold lpc
  by_cases hn : n = 0
  · rw [if_pos hn, if_pos hn]
    obtain ⟨hfin, hsign, hmag⟩ := fmul_two_exact hfc hfs (by omega)
    obtain ⟨hfin', hsign', hmag'⟩ := fmul_two_exact hfc' hfs' (by omega)
    rw [hc, hc', hs, hs'] at hratio
    have hratio' : magUnits fc * magUnits fs' = magUnits fc' * magUnits fs := by exact_mod_cast hratio
    have hexact : 2 * magUnits fc * 2 ^ 1074 * magUnits fs' = 2 * magUnits fc' * 2 ^ 1074 * magUnits fs := by
      calc 2 * magUnits fc * 2 ^ 1074 * magUnits fs' = 2 * 2 ^ 1074 * (magUnits fc * magUnits fs') := by ring
        _ = 2 * 2 ^ 1074 * (magUnits fc' * magUnits fs) := by rw [hratio']
        _ = 2 * magUnits fc' * 2 ^ 1074 * magUnits fs := by ring
    rw [fdiv_of_isFinite hfin hfs (by omega), fdiv_of_isFinite hfin' hfs' (by omega), hsign, hsign', hmag, hmag',
      hsc, hsc', hss, hss', roundUnits, roundUnits, roundMag_ratio (by omega) (by omega) hexact]
  · rw [if_neg hn, if_neg hn]
    have harg : sincArg fc fs n = sincArg fc' fs' n := by
      unfold sincArg
      rw [Rat.mkRat_eq_iff (by omega) (by omega), Int.toNat_of_nonneg (by omega), Int.toNat_of_nonneg (by omega),
        mul_right_comm, hratio, mul_right_comm]
    rw [harg]

/-- Settles O32: off centre the high-pass element is the exact negative of the low-pass one. -/
theorem kernelsCancelOffCentre : Obligations.KernelsCancelOffCentre := by
  intro fc fs w n hn hfin
  rw [hpc, if_neg hn]
  obtain ⟨hneg, hmag, hsign⟩ := fsub_posZero (isFinite_of_fmul hfin).1
  exact fadd_fmul_cancel hfin hneg hmag hsign

/-- Settles O39: by the classes of the operands. -/
theorem nanResultsAreCanonical : Obligations.NanResultsAreCanonical := by
  intro a b
  refine ⟨?_, isNaN_fadd a b, isNaN_fsub a b, isNaN_fmul a b, isNaN_fdiv a b, fun ha hb => ?_, fun ha hb => ?_,
    fun ha hb hzero => ?_, fun ha hb => ?_, fun ha hza hzb => ?_, fun ha => ?_, fun ha => ⟨signBit_fneg ha, fun k hk => ?_⟩⟩
  · intro r hr
    simp only [List.mem_cons, List.not_mem_nil, or_false] at hr
    rcases hr with rfl | rfl | rfl | rfl
    · exact fadd_eq_cnan
    · exact fadd_eq_cnan
    · exact fmul_eq_cnan
    · exact fdiv_eq_cnan
  · have hnb := isNaN_of_isFinite hb
    have hna := isNaN_of_isInf ha
    refine ⟨fadd_isInf_isFinite ha hb, ?_, fadd_isInf_isFinite ha (by rwa [isFinite_fneg hnb]), ?_⟩
    · rw [fadd_comm, fadd_isInf_isFinite ha hb]
    · rw [fsub, fadd_comm, fadd_isInf_isFinite (by rwa [isInf_fneg hna]) hb]
  · have hnb := isNaN_of_isInf hb
    refine ⟨?_, ?_, ?_⟩
    · rw [fadd_of_isInf ha hnb]
      by_cases hs : signBit a = signBit b
      · rw [if_neg (fun h => h.2 hs), if_pos hs]
      · rw [if_pos ⟨hb, hs⟩, if_neg hs]; rfl
    · rw [fsub, fadd_of_isInf ha (by rwa [isNaN_fneg]), isInf_fneg hnb, signBit_fneg hnb, hb]
      cases signBit a <;> cases signBit b <;> simp <;> rfl
    · rw [fmul_of_isInf ha hnb, if_neg (magUnits_ne_zero_of_isInf hb), infinity_eq]
  · have hmag : magUnits b ≠ 0 := fun h => hzero (isZero_iff.mpr ⟨hb, h⟩)
    rw [fmul_comm b a, fmul_of_isInf ha (isNaN_of_isFinite hb), if_neg hmag, infinity_eq]
    exact ⟨rfl, rfl⟩
  · rw [fdiv_of_isInf ha (isNaN_of_isFinite hb), isInf_of_isFinite hb, if_neg (by decide), fdiv_isFinite_isInf hb ha,
      infinity_eq, zero_eq, bne_comm (a := signBit b)]
    exact ⟨rfl, rfl⟩
  · obtain ⟨hfb, hmag⟩ := isZero_iff.mp hzb
    rw [fdiv_by_zero ha hfb hmag, if_neg fun h => hza (isZero_iff.mpr ⟨ha, h⟩), infinity_eq]
  · rw [fneg, if_pos ha]; rfl
  · rw [getLsbD_fneg ha, decide_eq_false (by omega), Bool.xor_false]

end Sys2Proof.Claims
end
